-- ==== Sys2Proof/Word.lean ====
section
/-! DEFINITION. The word types of the D04 block (00_scope.md R7, R8): a 32-bit host word, a 12-bit byte
address, an 8-bit byte and a 256-bit register value. -/

namespace Sys2Proof

/-- A 32-bit host data word or command word (R50, R70). -/
abbrev Word := BitVec 32

/-- A 12-bit byte address in the host window (R50). -/
abbrev Addr := BitVec 12

/-- A byte of a byte string (R8). -/
abbrev Byte := BitVec 8

/-- A 256-bit unsigned register value (R20). -/
abbrev Val := BitVec 256

end Sys2Proof
end

