-- ==== Sys2Proof/Syntax.lean ====
section
/-! DEFINITION. The commands of the block: one constructor per row of spec/opcode_table.json
(30_encoding.md R71, R77, R78). A command has its operands pulled out of the word; what it does stands under
Machine/. -/

namespace Sys2Proof

/-- A field register number 0 to 15, naming F0 to F15 (R20, R75). -/
abbrev RegNo := Fin 16

/-- The constant id of LDC (R74): `0` = P, `1` = N, `2` = Gx, `3` = Gy. -/
inductive ConstId where
  | p
  | n
  | gx
  | gy
  deriving DecidableEq, Repr

/-- A command (R77). `rd`, `rs1`, `rs2`, `rk` are register numbers. `qd`, `qa`, `qb` name a point operand and hold
the number of its x-coordinate's register, which the encoding admits only when it is even (R23, R76;
`WellFormed` states it). -/
inductive Instr where
  | nop
  | fredRaw (rd rs1 : RegNo)
  | fredP (rd rs1 : RegNo)
  | fredN (rd rs1 : RegNo)
  | fldi (rd : RegNo) (imm : Byte)
  | ldc (rd : RegNo) (cid : ConstId)
  | fadd (rd rs1 rs2 : RegNo)
  | fsub (rd rs1 rs2 : RegNo)
  | fmul (rd rs1 rs2 : RegNo)
  | fdiv (rd rs1 rs2 : RegNo)
  | finv (rd rs1 : RegNo)
  | fpow (rd rs1 rs2 : RegNo) (neg : Bool)
  | fneg (rd rs1 : RegNo)
  | fmod (rd rs1 rs2 : RegNo)
  | feq (rs1 rs2 : RegNo)
  | ldg (qd : RegNo)
  | padd (qd qa qb : RegNo)
  | pmul (qd rk qb : RegNo)
  | derenc (rs1 rs2 : RegNo)
  | derdec (qd : RegNo)
  | nonce (rd : RegNo)
  deriving DecidableEq, Repr

end Sys2Proof
end

