-- ==== Sys2Proof/WellFormed.lean ====
section
/-! DEFINITION. Which commands the encoding admits: every pair field is even (30_encoding.md R76). All other
limits of R71 to R75 are in the types of Syntax.lean. -/

namespace Sys2Proof

/-- A register number that names a pair `Qj = (F[2j], F[2j+1])`: an even one (R23, R76). -/
def evenPair (q : RegNo) : Bool := q.val % 2 == 0

/-- The pair fields of a command, in the order RD, RS1, RS2 (R71 classes Q1, Q3, QK). -/
def Instr.pairFields : Instr → List RegNo
  | .nop => []
  | .fredRaw _ _ => []
  | .fredP _ _ => []
  | .fredN _ _ => []
  | .fldi _ _ => []
  | .ldc _ _ => []
  | .fadd _ _ _ => []
  | .fsub _ _ _ => []
  | .fmul _ _ _ => []
  | .fdiv _ _ _ => []
  | .finv _ _ => []
  | .fpow _ _ _ _ => []
  | .fneg _ _ => []
  | .fmod _ _ _ => []
  | .feq _ _ => []
  | .ldg qd => [qd]
  | .padd qd qa qb => [qd, qa, qb]
  | .pmul qd _ qb => [qd, qb]
  | .derenc _ _ => []
  | .derdec qd => [qd]
  | .nonce _ => []

/-- A command that some word encodes: its pair fields are even (R76: "An odd value there is illegal"). -/
def Instr.WellFormed (i : Instr) : Bool := i.pairFields.all evenPair

end Sys2Proof
end

