-- ==== Sys2Proof/Decode.lean ====
section
/-! DEFINITION. Decoding a 32-bit command word and encoding a command (30_encoding.md R70 to R81). Decoding is
total (R80): every word gives exactly one command or the name of the reason it is illegal (R79). -/

namespace Sys2Proof

/-- Why a word is illegal (R79). The block reports each of them as `E_ILLEGAL`. -/
inductive Reject where
  | unassignedOpcode   -- R77: an OPC value not listed
  | reservedField      -- R72: a nonzero value in a field the class marks 0
  | modulusSelector    -- R73: FRED with MSEL 3 to 15
  | constantId         -- R74: LDC with an id above 3
  | powImmediate       -- R74: FPOW with IMM8[7:1] nonzero
  | oddPair            -- R76: an odd value in a pair field
  deriving DecidableEq, Repr

/-- The fields of a command word (R70). -/
structure Fields where
  opc : BitVec 8
  rd : RegNo
  rs1 : RegNo
  rs2 : RegNo
  msel : BitVec 4
  imm : Byte
  deriving DecidableEq, Repr

/-- A 4-bit field as a register number, its unsigned value (R75). -/
def regOfBits (b : BitVec 4) : RegNo := ⟨b.toNat, b.isLt⟩

/-- A register number as a 4-bit field (R75). -/
def bitsOfReg (r : RegNo) : BitVec 4 := BitVec.ofNat 4 r.val

/-- The fields of a word at the bit positions of R70. -/
def fieldsOf (w : Word) : Fields where
  opc := w.extractLsb' 24 8
  rd := regOfBits (w.extractLsb' 20 4)
  rs1 := regOfBits (w.extractLsb' 16 4)
  rs2 := regOfBits (w.extractLsb' 12 4)
  msel := w.extractLsb' 8 4
  imm := w.extractLsb' 0 8

/-- The word with the given fields (R70). -/
def packFields (f : Fields) : Word :=
  f.opc ++ bitsOfReg f.rd ++ bitsOfReg f.rs1 ++ bitsOfReg f.rs2 ++ f.msel ++ f.imm

/-- `i`, if `ok` holds, and otherwise the rejection `r`. -/
def acceptIf (ok : Bool) (r : Reject) (i : Instr) : Except Reject Instr :=
  if ok then .ok i else .error r

/-- FRED: class RM, then MSEL selects the tag of the result (R71, R73). -/
def decodeFred (f : Fields) : Except Reject Instr :=
  if f.rs2 = 0 ∧ f.imm = 0 then
    if f.msel = 0 then .ok (.fredRaw f.rd f.rs1)
    else if f.msel = 1 then .ok (.fredP f.rd f.rs1)
    else if f.msel = 2 then .ok (.fredN f.rd f.rs1)
    else .error .modulusSelector
  else .error .reservedField

/-- LDC: class RI, IMM8 is a constant id 0 to 3 (R74). -/
def decodeLdc (f : Fields) : Except Reject Instr :=
  if f.rs1 = 0 ∧ f.rs2 = 0 ∧ f.msel = 0 then
    if f.imm = 0 then .ok (.ldc f.rd .p)
    else if f.imm = 1 then .ok (.ldc f.rd .n)
    else if f.imm = 2 then .ok (.ldc f.rd .gx)
    else if f.imm = 3 then .ok (.ldc f.rd .gy)
    else .error .constantId
  else .error .reservedField

/-- FPOW: class RP, IMM8[0] is NEG and IMM8[7:1] must be zero (R74). -/
def decodeFpow (f : Fields) : Except Reject Instr :=
  if f.msel = 0 then
    if f.imm = 0 then .ok (.fpow f.rd f.rs1 f.rs2 false)
    else if f.imm = 1 then .ok (.fpow f.rd f.rs1 f.rs2 true)
    else .error .powImmediate
  else .error .reservedField

/-- Class Z (R71). -/
def decodeZ (f : Fields) (i : Instr) : Except Reject Instr :=
  acceptIf (f.rd == 0 && f.rs1 == 0 && f.rs2 == 0 && f.msel == 0 && f.imm == 0) .reservedField i

/-- Class R3 (R71): RD, RS1, RS2 used. -/
def decodeR3 (f : Fields) (mk : RegNo → RegNo → RegNo → Instr) : Except Reject Instr :=
  acceptIf (f.msel == 0 && f.imm == 0) .reservedField (mk f.rd f.rs1 f.rs2)

/-- Class R2 (R71): RD, RS1 used. -/
def decodeR2 (f : Fields) (mk : RegNo → RegNo → Instr) : Except Reject Instr :=
  acceptIf (f.rs2 == 0 && f.msel == 0 && f.imm == 0) .reservedField (mk f.rd f.rs1)

/-- Class C2 (R71): RS1, RS2 used. -/
def decodeC2 (f : Fields) (mk : RegNo → RegNo → Instr) : Except Reject Instr :=
  acceptIf (f.rd == 0 && f.msel == 0 && f.imm == 0) .reservedField (mk f.rs1 f.rs2)

/-- Class R1 (R71): RD used. -/
def decodeR1 (f : Fields) (mk : RegNo → Instr) : Except Reject Instr :=
  acceptIf (f.rs1 == 0 && f.rs2 == 0 && f.msel == 0 && f.imm == 0) .reservedField (mk f.rd)

/-- A command whose pair fields must be even (R76). -/
def acceptPairs (i : Instr) : Except Reject Instr := acceptIf i.WellFormed .oddPair i

/-- Class Q1 (R71): an even pair in RD. -/
def decodeQ1 (f : Fields) (mk : RegNo → Instr) : Except Reject Instr :=
  if f.rs1 = 0 ∧ f.rs2 = 0 ∧ f.msel = 0 ∧ f.imm = 0 then acceptPairs (mk f.rd) else .error .reservedField

/-- Classes Q3 and QK (R71): RD, RS1, RS2 used, those that are pairs even. -/
def decodeQ3 (f : Fields) (mk : RegNo → RegNo → RegNo → Instr) : Except Reject Instr :=
  if f.msel = 0 ∧ f.imm = 0 then acceptPairs (mk f.rd f.rs1 f.rs2) else .error .reservedField

/-- The command of a word's fields, by the opcode map of R77. -/
def decodeFields (f : Fields) : Except Reject Instr :=
  if f.opc = 0x00 then decodeZ f .nop
  else if f.opc = 0x01 then decodeFred f
  else if f.opc = 0x02 then
    acceptIf (f.rs1 == 0 && f.rs2 == 0 && f.msel == 0) .reservedField (.fldi f.rd f.imm)
  else if f.opc = 0x03 then decodeLdc f
  else if f.opc = 0x08 then decodeR3 f .fadd
  else if f.opc = 0x09 then decodeR3 f .fsub
  else if f.opc = 0x0A then decodeR3 f .fmul
  else if f.opc = 0x0B then decodeR3 f .fdiv
  else if f.opc = 0x0C then decodeR2 f .finv
  else if f.opc = 0x0D then decodeFpow f
  else if f.opc = 0x0E then decodeR2 f .fneg
  else if f.opc = 0x0F then decodeR3 f .fmod
  else if f.opc = 0x10 then decodeC2 f .feq
  else if f.opc = 0x20 then decodeQ1 f .ldg
  else if f.opc = 0x21 then decodeQ3 f .padd
  else if f.opc = 0x22 then decodeQ3 f .pmul
  else if f.opc = 0x30 then decodeC2 f .derenc
  else if f.opc = 0x31 then decodeQ1 f .derdec
  else if f.opc = 0x40 then decodeR1 f .nonce
  else .error .unassignedOpcode

/-- Decoding of a command word, total on all 32-bit words (R80). -/
def decode (w : Word) : Except Reject Instr := decodeFields (fieldsOf w)

/-- The LDC id of a constant (R74). -/
def ConstId.code : ConstId → Byte
  | .p => 0
  | .n => 1
  | .gx => 2
  | .gy => 3

/-- The fields a command is encoded in (R71, R77); a field its class does not use is 0 (R72). -/
def fieldsOfInstr : Instr → Fields
  | .nop => ⟨0x00, 0, 0, 0, 0, 0⟩
  | .fredRaw rd rs1 => ⟨0x01, rd, rs1, 0, 0, 0⟩
  | .fredP rd rs1 => ⟨0x01, rd, rs1, 0, 1, 0⟩
  | .fredN rd rs1 => ⟨0x01, rd, rs1, 0, 2, 0⟩
  | .fldi rd imm => ⟨0x02, rd, 0, 0, 0, imm⟩
  | .ldc rd cid => ⟨0x03, rd, 0, 0, 0, cid.code⟩
  | .fadd rd rs1 rs2 => ⟨0x08, rd, rs1, rs2, 0, 0⟩
  | .fsub rd rs1 rs2 => ⟨0x09, rd, rs1, rs2, 0, 0⟩
  | .fmul rd rs1 rs2 => ⟨0x0A, rd, rs1, rs2, 0, 0⟩
  | .fdiv rd rs1 rs2 => ⟨0x0B, rd, rs1, rs2, 0, 0⟩
  | .finv rd rs1 => ⟨0x0C, rd, rs1, 0, 0, 0⟩
  | .fpow rd rs1 rs2 neg => ⟨0x0D, rd, rs1, rs2, 0, if neg then 1 else 0⟩
  | .fneg rd rs1 => ⟨0x0E, rd, rs1, 0, 0, 0⟩
  | .fmod rd rs1 rs2 => ⟨0x0F, rd, rs1, rs2, 0, 0⟩
  | .feq rs1 rs2 => ⟨0x10, 0, rs1, rs2, 0, 0⟩
  | .ldg qd => ⟨0x20, qd, 0, 0, 0, 0⟩
  | .padd qd qa qb => ⟨0x21, qd, qa, qb, 0, 0⟩
  | .pmul qd rk qb => ⟨0x22, qd, rk, qb, 0, 0⟩
  | .derenc rs1 rs2 => ⟨0x30, 0, rs1, rs2, 0, 0⟩
  | .derdec qd => ⟨0x31, qd, 0, 0, 0, 0⟩
  | .nonce rd => ⟨0x40, rd, 0, 0, 0, 0⟩

/-- The word of a command. -/
def encode (i : Instr) : Word := packFields (fieldsOfInstr i)

/-- The `match` value of a command's row (R78). -/
def Instr.matchWord : Instr → Word
  | .nop => 0x00000000
  | .fredRaw _ _ => 0x01000000
  | .fredP _ _ => 0x01000100
  | .fredN _ _ => 0x01000200
  | .fldi _ _ => 0x02000000
  | .ldc _ _ => 0x03000000
  | .fadd _ _ _ => 0x08000000
  | .fsub _ _ _ => 0x09000000
  | .fmul _ _ _ => 0x0A000000
  | .fdiv _ _ _ => 0x0B000000
  | .finv _ _ => 0x0C000000
  | .fpow _ _ _ _ => 0x0D000000
  | .fneg _ _ => 0x0E000000
  | .fmod _ _ _ => 0x0F000000
  | .feq _ _ => 0x10000000
  | .ldg _ => 0x20000000
  | .padd _ _ _ => 0x21000000
  | .pmul _ _ _ => 0x22000000
  | .derenc _ _ => 0x30000000
  | .derdec _ => 0x31000000
  | .nonce _ => 0x40000000

/-- The `mask` value of a command's row (R78; FRED by its three MSEL rows). -/
def Instr.maskWord : Instr → Word
  | .nop => 0xFFFFFFFF
  | .fredRaw _ _ => 0xFF00FFFF
  | .fredP _ _ => 0xFF00FFFF
  | .fredN _ _ => 0xFF00FFFF
  | .fldi _ _ => 0xFF0FFF00
  | .ldc _ _ => 0xFF0FFFFC
  | .fadd _ _ _ => 0xFF000FFF
  | .fsub _ _ _ => 0xFF000FFF
  | .fmul _ _ _ => 0xFF000FFF
  | .fdiv _ _ _ => 0xFF000FFF
  | .finv _ _ => 0xFF00FFFF
  | .fpow _ _ _ _ => 0xFF000FFE
  | .fneg _ _ => 0xFF00FFFF
  | .fmod _ _ _ => 0xFF000FFF
  | .feq _ _ => 0xFFF00FFF
  | .ldg _ => 0xFF1FFFFF
  | .padd _ _ _ => 0xFF111FFF
  | .pmul _ _ _ => 0xFF101FFF
  | .derenc _ _ => 0xFFF00FFF
  | .derdec _ => 0xFF1FFFFF
  | .nonce _ => 0xFF0FFFFF

/-- The match and mask rows of R78, as spec/opcode_table.json splits them. -/
def opcodeRows : List (Word × Word) :=
  [(0x00000000, 0xFFFFFFFF), (0x01000000, 0xFF00FFFF), (0x01000100, 0xFF00FFFF), (0x01000200, 0xFF00FFFF),
   (0x02000000, 0xFF0FFF00), (0x03000000, 0xFF0FFFFC), (0x08000000, 0xFF000FFF), (0x09000000, 0xFF000FFF),
   (0x0A000000, 0xFF000FFF), (0x0B000000, 0xFF000FFF), (0x0C000000, 0xFF00FFFF), (0x0D000000, 0xFF000FFE),
   (0x0E000000, 0xFF00FFFF), (0x0F000000, 0xFF000FFF), (0x10000000, 0xFFF00FFF), (0x20000000, 0xFF1FFFFF),
   (0x21000000, 0xFF111FFF), (0x22000000, 0xFF101FFF), (0x30000000, 0xFFF00FFF), (0x31000000, 0xFF1FFFFF),
   (0x40000000, 0xFF0FFFFF)]

/-- A word meets a row of R78. -/
def meetsRow (w : Word) (row : Word × Word) : Bool := w &&& row.2 == row.1

/-- The command the decoder reads from a table word: `nbits` bits of `w`, every bit above them 0. A command is one
32-bit word (R81), so there is no order of words or bytes to lay out. -/
def decodeTableWord (nbits w : Nat) : Option Instr := (decode (BitVec.ofNat 32 (w % 2 ^ nbits))).toOption

end Sys2Proof
end

