-- ==== Sys2Proof/Config.lean ====
section
/-! DEFINITION. What the block fixes and never changes (10_state.md R30, R33), and the one free value of the
spec, the word a busy read returns (92_eei_decisions.md, OPEN parameter BusyRead). -/

namespace Sys2Proof

/-- The curve constants as a configuration record (R33: "The model should take them as a configuration
record with these values"). -/
structure Curve where
  p : Nat
  n : Nat
  gx : Nat
  gy : Nat
  deriving DecidableEq, Repr

/-- The secp256k1 values of R33. -/
def Config.secp256k1 : Curve where
  p := 0xFFFFFFFFFFFFFFFFFFFFFFFFFFFFFFFFFFFFFFFFFFFFFFFFFFFFFFFEFFFFFC2F
  n := 0xFFFFFFFFFFFFFFFFFFFFFFFFFFFFFFFEBAAEDCE6AF48A03BBFD25E8CD0364141
  gx := 0x79BE667EF9DCBBAC55A06295CE870B07029BFCDB2DCE28D959F2815B16F81798
  gy := 0x483ADA7726A3C4655DA4FBFC0E1108A8FD17B448A68554199C47D08FFB10D4B8

/-- The field prime P (R33). -/
def Config.P : Nat := Config.secp256k1.p

/-- The group order N (R33). -/
def Config.N : Nat := Config.secp256k1.n

/-- The x-coordinate of the generator (R33). -/
def Config.Gx : Nat := Config.secp256k1.gx

/-- The y-coordinate of the generator (R33). -/
def Config.Gy : Nat := Config.secp256k1.gy

/-- The constant of the ID register (R30). -/
def Config.idWord : Word := 0x0D040007

/-- FREE VALUE, DESIGN CHOICE (log 4), safe: the word that the n-th read of a value window, TAG, SIGBUF or
SIGLEN made while BUSY = 1 returns (R54, R57, R59: "an unspecified 32-bit value"). It has no body, so no proof
can use a value of it. -/
opaque Config.busyRead : Nat → Word

end Sys2Proof
end

