-- ==== Sys2Proof/Machine/State.lean ====
section
/-! DEFINITION. The state of the block (10_state.md, 43_nonce.md, 60_exceptions.md), the reasons a step can stop, and
the state after reset (70_reset_and_hazards.md R231). -/

namespace Sys2Proof.Machine

/-- The tag of a field register (R21). -/
inductive Tag where
  | raw    -- an unsigned 256-bit integer
  | p      -- a field element modulo P
  | n      -- a field element modulo N
  | none   -- no value: never written since reset
  deriving DecidableEq, Repr

/-- A field register: the value FV[i] and the tag FT[i] (R20). -/
structure FReg where
  val : Val
  tag : Tag
  deriving DecidableEq, Repr

/-- The error codes 1 to 7 (R201). Codes 8 to 15 are never produced; code 0 is the absence of a code. -/
inductive ErrCode where
  | illegal
  | uninit
  | fieldMismatch
  | powZeroNeg
  | modZero
  | scalarRange
  | derFormat
  deriving DecidableEq, Repr

/-- Bytes by byte address of the host window (R50), strictly rising, no entry equal to what an unlisted address reads
as. Only SIGBUF, 0x400 to 0x447, is byte storage (R36, R51); the other addresses name registers. -/
abbrev Memory := List Host.Cell

/-- What a byte nothing has written reads as: SIGBUF's reset value (R36, R231). -/
abbrev Memory.unlisted : BitVec 8 := 0

/-- The canonical form of a memory: addresses strictly rising, no byte equal to `Memory.unlisted`. -/
def Memory.wf : Memory → Bool
  | [] => true
  | [(_, b)] => b != Memory.unlisted
  | (a, b) :: (c, d) :: t => b != Memory.unlisted && decide (a < c) && Memory.wf ((c, d) :: t)

/-- The operand state of a command: what R202 captures at acceptance. -/
structure Inputs where
  regs : Vector FReg 16
  sigBuf : Memory
  sigLen : BitVec 7
  deriving DecidableEq, Repr

/-- The engine (R39): `Idle`, or `Running` the command `word` on the captured `inputs` (R202, R68). `draws` is how many
entropy requests a running NONCE has made (R182). -/
inductive Engine where
  | idle
  | running (word : Word) (inputs : Inputs) (draws : Nat)
  deriving DecidableEq, Repr

/-- An answer of the entropy source (R181). `bytes a` is the 32-byte string of `ent_data`, `a[0]` in its top byte. -/
inductive Answer where
  | insufficient
  | bytes (a : BitVec 256)
  deriving DecidableEq, Repr

/-- The entropy port (R181): the request outstanding, by its number, and an answer that has arrived for it. -/
structure EntropyPort where
  req : Option Nat
  ack : Option Answer
  deriving DecidableEq, Repr

/-- What can happen next (R17): a host bus transaction (R50), a turn of the engine (R203), an answer of the entropy
source to the request of the given number (R181), or the reset input (R230). The model's own (log 1). -/
inductive Event where
  | read (addr : Addr)
  | write (addr : Addr) (v : Word)
  | engine
  | answer (req : Nat) (a : Answer)
  | reset
  deriving DecidableEq, Repr

/-- How a host transaction that ends with OK ends (R52). -/
inductive Reply where
  | readOk (data : Word)
  | writeOk
  deriving DecidableEq, Repr

/-- The state: the block's own first (R20 to R36, R39, R181), then the model's own fields (log 1, 4, 8, 13). -/
structure State where
  /-- FV[i] and FT[i], i = 0 to 15 (R20). -/
  regs : Vector FReg 16
  /-- STATUS.BUSY (R26). -/
  busy : Bool
  /-- STATUS.DONE (R26). -/
  done : Bool
  /-- STATUS.EQ (R27). -/
  eq : Bool
  /-- STATUS.Z (R28). -/
  z : Bool
  /-- STATUS.ERR, `none` for 0 (R26, R201). -/
  err : Option ErrCode
  /-- STATUS.HERR (R206). -/
  herr : Bool
  /-- CMD, the last accepted command word (R31). -/
  cmd : Word
  /-- ERRINFO, the word of the last aborted command (R34). -/
  errInfo : Word
  /-- SIGLEN, bits 6:0 (R35). -/
  sigLen : BitVec 7
  /-- SIGBUF, byte j at address 0x400 + j (R36, R51). -/
  sigBuf : Memory
  /-- The engine (R39). -/
  engine : Engine
  /-- The entropy port (R181). -/
  port : EntropyPort
  /-- Model's own: the number the next entropy request gets (log 8). -/
  requests : Nat
  /-- Model's own: how many busy reads have drawn a free value (log 4). -/
  busyReads : Nat
  /-- Model's own: the events still to come, first one next (log 1). -/
  inputs : List Event
  /-- Model's own: how the last host transaction ended (log 13). -/
  reply : Option Reply
  deriving DecidableEq, Repr

/-- Why a step stops. Every fault is a `BUS_ERROR` of a host transaction (R52), which R52 asks the model to record as
a fault of the host program that is never cleared. Raised by `busRead` and `busWrite` only. All are safe: the
hardware would go on with its state unchanged, the model stops (log 3). -/
inductive Fault where
  /-- `addr[1:0] != 0b00` (R53). Raised by every transaction; safe. -/
  | busMisaligned (addr : Addr)
  /-- A reserved address (R51, R58). Raised by every transaction; safe. -/
  | busReserved (addr : Addr)
  /-- A write to ID, STATUS, ERRINFO or a TAG address (R58). Raised by writes; safe. -/
  | busReadOnly (addr : Addr)
  /-- A write to CTRL with any of bits 31:1 set (R32, R58). Raised by writes; safe. -/
  | busCtrlReserved (v : Word)
  deriving DecidableEq, Repr

/-- Why a step has no meaning. -/
inductive Refusal where
  /-- An instruction whose meaning has not been written; raised by an arm of `exec` only, and by none now. Safe. -/
  | notModelled (mnemonic : String)
  deriving DecidableEq, Repr

/-- No request outstanding and no answer waiting (R231). -/
def EntropyPort.quiet : EntropyPort := ⟨none, none⟩

/-- The state after reset (R231). -/
def State.reset : State where
  regs := Vector.replicate 16 ⟨0, .none⟩
  busy := false
  done := false
  eq := false
  z := false
  err := none
  herr := false
  cmd := 0
  errInfo := 0
  sigLen := 0
  sigBuf := []
  engine := .idle
  port := .quiet
  requests := 0
  busyReads := 0
  inputs := []
  reply := none

end Sys2Proof.Machine
end

