-- ==== Sys2Proof/Machine/Flags.lean ====
section
/-! DEFINITION. The flags Z and EQ (10_state.md R27, R28), the bits of tags and error codes (R21, 60_exceptions.md
R201), and the STATUS word (R26). -/

namespace Sys2Proof.Machine

/-- Z of a command that writes one field register: whether the value written is 0 (R28). -/
def zOfValue (v : Val) : Bool := v == 0

/-- Z of LDG, PADD and PMUL: whether the point written is the sentinel `(0, 0)` (R28). -/
def zOfPoint (x y : Val) : Bool := x == 0 && y == 0

/-- Z of DERDEC: whether the parsed r or the parsed s is 0 (R28). -/
def zOfSignature (r s : Val) : Bool := r == 0 || s == 0

/-- EQ of FEQ: values and tags both equal (R27, R112). -/
def eqOfRegs (a b : FReg) : Bool := a.val == b.val && a.tag == b.tag

/-- The two bits of a tag (R21). -/
def Tag.bits : Tag → BitVec 2
  | .raw => 0b00
  | .p => 0b01
  | .n => 0b10
  | .none => 0b11

/-- The number of an error code (R201). -/
def ErrCode.bits : ErrCode → BitVec 4
  | .illegal => 1
  | .uninit => 2
  | .fieldMismatch => 3
  | .powZeroNeg => 4
  | .modZero => 5
  | .scalarRange => 6
  | .derFormat => 7

/-- STATUS.ERR: 0 when there is no error (R26). -/
def errBits : Option ErrCode → BitVec 4
  | none => 0
  | some e => e.bits

/-- The STATUS word (R26): BUSY bit 0, DONE bit 1, EQ bit 2, Z bit 3, ERR bits 7:4, HERR bit 8, bits 31:9 zero. -/
def State.status (s : State) : Word :=
  (0 : BitVec 23) ++ BitVec.ofBool s.herr ++ errBits s.err ++ BitVec.ofBool s.z ++ BitVec.ofBool s.eq
    ++ BitVec.ofBool s.done ++ BitVec.ofBool s.busy

end Sys2Proof.Machine
end

