-- ==== Sys2Proof/Machine/Ops.lean ====
section
/-! DEFINITION. The named operations over memory, registers and the engine: accepting a command (60_exceptions.md
R202), committing and aborting it (R203), clearing an error (R207), resetting (70_reset_and_hazards.md R230, R231),
and the entropy port's two sides (43_nonce.md R181). -/

namespace Sys2Proof.Machine

/-! ### Memory -/

/-- The byte at an address. -/
def Memory.read : Memory → Nat → Byte
  | [], _ => Memory.unlisted
  | (c, x) :: t, a => if c = a then x else Memory.read t a

/-- A cell list with a byte put in front, unless it is what an unlisted address reads as. -/
def Memory.consCell (a : Nat) (b : Byte) (t : Memory) : Memory :=
  if b = Memory.unlisted then t else (a, b) :: t

/-- Writing a byte, which keeps the canonical form. -/
def Memory.write : Memory → Nat → Byte → Memory
  | [], a, b => Memory.consCell a b []
  | (c, x) :: t, a, b =>
    if a < c then Memory.consCell a b ((c, x) :: t)
    else if a = c then Memory.consCell a b t
    else (c, x) :: Memory.write t a b

/-- Writing a byte string from an address upwards. -/
def Memory.writeBytes : Memory → Nat → List Byte → Memory
  | m, _, [] => m
  | m, a, b :: t => Memory.writeBytes (Memory.write m a b) (a + 1) t

/-- The `n` bytes from an address upwards. -/
def Memory.readBytes (m : Memory) (a : Nat) : Nat → List Byte
  | 0 => []
  | n + 1 => Memory.read m a :: Memory.readBytes m (a + 1) n

/-- The address of SIGBUF[0] (R51). -/
def sigBase : Nat := 0x400

/-- The number of bytes of SIGBUF (R7, R36). -/
def sigSize : Nat := 72

/-- SIGBUF[j] (R9, R36). -/
def Memory.sig (m : Memory) (j : Nat) : Byte := Memory.read m (sigBase + j)

/-! ### Byte strings (R8) -/

/-- `be(bytes)`: the unsigned integer whose most significant byte is the first. -/
def beNat (bs : List Byte) : Nat := bs.foldl (fun acc b => acc * 256 + b.toNat) 0

/-- `be_n(v)`: the `n`-byte big-endian string of `v`, for `v < 2^(8n)`. -/
def beBytes : Nat → Nat → List Byte
  | 0, _ => []
  | n + 1, v => BitVec.ofNat 8 (v / 256 ^ n) :: beBytes n v

/-- The four bytes of a word, bits 31:24 first (R56). -/
def bytesOfWord (v : Word) : List Byte :=
  [v.extractLsb' 24 8, v.extractLsb' 16 8, v.extractLsb' 8 8, v.extractLsb' 0 8]

/-- The word of the four bytes from an address, the first one in bits 31:24 (R56). -/
def Memory.readWord (m : Memory) (a : Nat) : Word :=
  Memory.read m a ++ Memory.read m (a + 1) ++ Memory.read m (a + 2) ++ Memory.read m (a + 3)

/-! ### Registers -/

/-- F[i] of a register file (R20). -/
def getReg (rs : Vector FReg 16) (i : RegNo) : FReg := rs[i.val]

/-- `F[i] <- r` in a register file; no register is hardwired (R22). -/
def setReg (rs : Vector FReg 16) (i : RegNo) (r : FReg) : Vector FReg 16 := rs.set i.val r

/-- F[i] of the live register file. -/
def State.reg (s : State) (i : RegNo) : FReg := getReg s.regs i

/-- Word `w` of a value, word 0 the most significant (R54): bits `255-32w : 224-32w`. -/
def wordOfVal (v : Val) (w : Fin 8) : Word := v.extractLsb' (224 - 32 * w.val) 32

/-- A value with its word `w` replaced, the other 224 bits kept (R55). -/
def replaceWord (v : Val) (w : Fin 8) (x : Word) : Val :=
  (v &&& ~~~((0xFFFFFFFF : Val) <<< (224 - 32 * w.val))) ||| (x.setWidth 256 <<< (224 - 32 * w.val))

/-! ### Accepting, committing and aborting a command -/

/-- The operand state as it stands now (R202). -/
def State.capture (s : State) : Inputs := ⟨s.regs, s.sigBuf, s.sigLen⟩

/-- What a command reads: the inputs captured at acceptance while the engine runs (R68), and the live ones when no
command is running (log 7; no step runs a command then). -/
def State.operands (s : State) : Inputs :=
  match s.engine with
  | .idle => s.capture
  | .running _ ins _ => ins

/-- The word of the command: the engine's, and CMD when no command is running (log 7). -/
def State.commandWord (s : State) : Word :=
  match s.engine with
  | .idle => s.cmd
  | .running w _ _ => w

/-- The accepting branch of R202: CMD, DONE, BUSY and the engine. No request of an earlier command is outstanding
(R39: working values do not survive the command that made them). -/
def State.launch (s : State) (w : Word) : State :=
  { s with cmd := w, done := false, busy := true, engine := .running w s.capture 0, port := .quiet }

/-- The host protocol error: HERR is set and nothing else changes (R206). -/
def State.protocolError (s : State) : State := { s with herr := true }

/-- A host write to CMD (R202). -/
def State.offer (s : State) (w : Word) : State :=
  if s.busy || s.err.isSome || s.herr then s.protocolError else s.launch w

/-- What a command that completes writes (R203): field registers, the byte string and length put in SIGBUF and
SIGLEN, EQ and Z. What it leaves out stays as it was. -/
structure Effect where
  regs : List (RegNo × FReg) := []
  sig : Option (List Byte × BitVec 7) := none
  eq : Option Bool := none
  z : Option Bool := none
  deriving DecidableEq, Repr

/-- Writing the listed registers. -/
def writeRegs (rs : Vector FReg 16) (l : List (RegNo × FReg)) : Vector FReg 16 :=
  l.foldl (fun rs w => setReg rs w.1 w.2) rs

/-- SIGBUF after an effect: the bytes from SIGBUF[0] upwards (R160). -/
def Effect.sigBuf (e : Effect) (m : Memory) : Memory :=
  match e.sig with
  | none => m
  | some (bs, _) => Memory.writeBytes m sigBase bs

/-- SIGLEN after an effect. -/
def Effect.sigLen (e : Effect) (n : BitVec 7) : BitVec 7 :=
  match e.sig with
  | none => n
  | some (_, l) => l

/-- Commit (R203): every write of the command's rule takes effect at once, DONE <- 1, BUSY <- 0, engine <- Idle. -/
def State.commit (s : State) (e : Effect) : State :=
  { s with
    regs := writeRegs s.regs e.regs
    sigBuf := e.sigBuf s.sigBuf
    sigLen := e.sigLen s.sigLen
    eq := e.eq.getD s.eq
    z := e.z.getD s.z
    done := true
    busy := false
    engine := .idle
    port := .quiet }

/-- Abort (R203), the one way a command fails: ERR and ERRINFO are written, DONE <- 1, BUSY <- 0, engine <- Idle, and
no register, tag, SIGBUF, SIGLEN, EQ or Z is written. -/
def State.abort (s : State) (c : ErrCode) : State :=
  { s with
    err := some c
    errInfo := s.commandWord
    done := true
    busy := false
    engine := .idle
    port := .quiet }

/-- Commit or abort (R13): a command's whole effect, or its error code. -/
def State.finish (s : State) (r : Except ErrCode Effect) : State :=
  match r with
  | .ok e => s.commit e
  | .error c => s.abort c

/-- `finish` as the outcome of a step. -/
def complete (s : State) (r : Except ErrCode Effect) : Host.Outcome State Fault Refusal := .next (s.finish r)

/-- CLR_ERR (R207): ERR <- 0, HERR <- 0, nothing else. -/
def State.clearErrors (s : State) : State := { s with err := none, herr := false }

/-- The reset input (R230): every piece of the block's state takes its value of R231 at once. The model's own fields
`requests`, `busyReads` and `inputs` go on (log 11). -/
def State.resetAll (s : State) : State :=
  { State.reset with requests := s.requests, busyReads := s.busyReads, inputs := s.inputs }

/-! ### The entropy port -/

/-- The count of draws goes up (R182). -/
def Engine.countDraw : Engine → Engine
  | .idle => .idle
  | .running w ins d => .running w ins (d + 1)

/-- The engine raises `ent_req`: a new request, under a new number, is outstanding (R181). -/
def State.requestEntropy (s : State) : State :=
  { s with
    port := ⟨some s.requests, none⟩
    requests := s.requests + 1
    engine := s.engine.countDraw }

/-- An answer arrives for request `n` (R181). It is taken if that request is outstanding, which ends the request, and
is ignored otherwise (R185, R210). -/
def State.takeAnswer (s : State) (n : Nat) (a : Answer) : State :=
  if s.port.req = some n then { s with port := ⟨none, some a⟩ } else s

/-- The draw of one busy read: the free value, and the counter moved on (R54, log 4). -/
def State.drawBusyRead (s : State) : Word × State :=
  (Config.busyRead s.busyReads, { s with busyReads := s.busyReads + 1 })

end Sys2Proof.Machine
end

