-- ==== Sys2Proof/Machine/Bus.lean ====
section
/-! DEFINITION. Host bus transactions (20_memory.md R50 to R60): the address map, reads and writes. -/

namespace Sys2Proof.Machine

/-- What an address names (R51). -/
inductive Loc where
  | id
  | status
  | cmd
  | ctrl
  | errInfo
  | sigLen
  | value (i : RegNo) (w : Fin 8)
  | tag (i : RegNo)
  | sigWord (w : Fin 18)
  deriving DecidableEq, Repr

/-- The address map (R51). A misaligned address (R53) and a reserved one (R58) end with `BUS_ERROR`. -/
def locate (addr : Addr) : Except Fault Loc :=
  let a := addr.toNat
  if a % 4 ≠ 0 then .error (.busMisaligned addr)
  else if a = 0x000 then .ok .id
  else if a = 0x004 then .ok .status
  else if a = 0x008 then .ok .cmd
  else if a = 0x00C then .ok .ctrl
  else if a = 0x010 then .ok .errInfo
  else if a = 0x014 then .ok .sigLen
  else if 0x100 ≤ a ∧ a < 0x300 then
    .ok (.value (Fin.ofNat 16 ((a - 0x100) / 0x20)) (Fin.ofNat 8 ((a - 0x100) % 0x20 / 4)))
  else if 0x300 ≤ a ∧ a < 0x340 then .ok (.tag (Fin.ofNat 16 ((a - 0x300) / 4)))
  else if 0x400 ≤ a ∧ a < 0x448 then .ok (.sigWord (Fin.ofNat 18 ((a - 0x400) / 4)))
  else .error (.busReserved addr)

/-- Whether a read returns a free value while `BUSY = 1` (R54, R57, R59); the other registers are always readable
(R235). -/
def Loc.busyGuarded : Loc → Bool
  | .id => false
  | .status => false
  | .cmd => false
  | .ctrl => false
  | .errInfo => false
  | .sigLen => true
  | .value _ _ => true
  | .tag _ => true
  | .sigWord _ => true

/-- The byte address of SIGBUF word `w` (R51). -/
def sigWordAddr (w : Fin 18) : Nat := sigBase + 4 * w.val

/-- The word a read returns when it is not a busy read (R30, R26, R31, R32, R34, R35, R54, R57, R59). -/
def readLoc (s : State) : Loc → Word
  | .id => Config.idWord
  | .status => s.status
  | .cmd => s.cmd
  | .ctrl => 0
  | .errInfo => s.errInfo
  | .sigLen => s.sigLen.setWidth 32
  | .value i w => wordOfVal (s.reg i).val w
  | .tag i => (s.reg i).tag.bits.setWidth 32
  | .sigWord w => s.sigBuf.readWord (sigWordAddr w)

/-- A host read that ends with OK and the given data; the data is the model's record of it (log 13). -/
def State.replyRead (s : State) (d : Word) : State := { s with reply := some (.readOk d) }

/-- A host write that ends with OK. -/
def State.replyWrite (s : State) : State := { s with reply := some .writeOk }

/-- `MemRead(addr, 4)` (R50, R54, R57, R59, R60). It changes nothing of the block. -/
def busRead (addr : Addr) (s : State) : Host.Outcome State Fault Refusal :=
  match locate addr with
  | .error f => .fault f
  | .ok loc =>
    if s.busy && loc.busyGuarded then .next (s.drawBusyRead.2.replyRead s.drawBusyRead.1)
    else .next (s.replyRead (readLoc s loc))

/-- A write to word `w` of F[i]'s value window (R55, R25). -/
def State.writeValueWord (s : State) (i : RegNo) (w : Fin 8) (v : Word) : State :=
  if s.busy then s.protocolError
  else { s with regs := setReg s.regs i ⟨replaceWord (s.reg i).val w v, .raw⟩ }

/-- A write to SIGBUF word `w` (R59). -/
def State.writeSigWord (s : State) (w : Fin 18) (v : Word) : State :=
  if s.busy then s.protocolError
  else { s with sigBuf := Memory.writeBytes s.sigBuf (sigWordAddr w) (bytesOfWord v) }

/-- A write to SIGLEN (R35, R59): a value above 72 is a host protocol error. -/
def State.writeSigLen (s : State) (v : Word) : State :=
  if s.busy || 72 < v.toNat then s.protocolError
  else { s with sigLen := v.setWidth 7 }

/-- A write to CTRL (R32, R207): bit 0 is CLR_ERR, and a reserved bit set is a `BUS_ERROR`. -/
def State.writeCtrl (s : State) (v : Word) : Except Fault State :=
  if v.extractLsb' 1 31 ≠ 0 then .error (.busCtrlReserved v)
  else if v = 1 then .ok s.clearErrors
  else .ok s

/-- The write of a word to what an address names, before its reply (R58 for the read-only ones). -/
def writeLoc (s : State) (addr : Addr) (v : Word) : Loc → Except Fault State
  | .id => .error (.busReadOnly addr)
  | .status => .error (.busReadOnly addr)
  | .cmd => .ok (s.offer v)
  | .ctrl => s.writeCtrl v
  | .errInfo => .error (.busReadOnly addr)
  | .sigLen => .ok (s.writeSigLen v)
  | .value i w => .ok (s.writeValueWord i w v)
  | .tag _ => .error (.busReadOnly addr)
  | .sigWord w => .ok (s.writeSigWord w v)

/-- `MemWrite(addr, 4, v)` (R50). A `BUS_ERROR` changes no state (R52). -/
def busWrite (addr : Addr) (v : Word) (s : State) : Host.Outcome State Fault Refusal :=
  match locate addr with
  | .error f => .fault f
  | .ok loc =>
    match writeLoc s addr v loc with
    | .error f => .fault f
    | .ok t => .next t.replyWrite

end Sys2Proof.Machine
end

