-- ==== Sys2Proof/Machine/Operands.lean ====
section
/-! DEFINITION. The operand forms of the commands (00_scope.md R10, R11; 10_state.md R23; 30_encoding.md R76) and the
effects they end in (10_state.md R24, R28). A reading that fails names its error code. -/

namespace Sys2Proof.Machine

/-- The modulus of a tag (R9 `mod_of`; RAW and NONE have none). -/
def Tag.modulus : Tag → Option Nat
  | .raw => Option.none
  | .p => some Config.P
  | .n => some Config.N
  | .none => Option.none

/-- `ReadOp(i)` (R10). -/
def readOp (o : Inputs) (i : RegNo) : Except ErrCode FReg :=
  if (getReg o.regs i).tag = .none then .error .uninit else .ok (getReg o.regs i)

/-- One field element read by `FieldOp1` (R11): its value, modulus and tag. -/
structure Field1 where
  a : Nat
  m : Nat
  tag : Tag
  deriving DecidableEq, Repr

/-- Two field elements read by `FieldOp2` (R11). -/
structure Field2 where
  a : Nat
  b : Nat
  m : Nat
  tag : Tag
  deriving DecidableEq, Repr

/-- A register read as a field element: its tag must be P or N (R11). -/
def asField (x : FReg) : Except ErrCode Field1 :=
  match x.tag.modulus with
  | some m => .ok ⟨x.val.toNat, m, x.tag⟩
  | none => .error .fieldMismatch

/-- `FieldOp1(i)` (R11). -/
def fieldOp1 (o : Inputs) (i : RegNo) : Except ErrCode Field1 := do
  let x ← readOp o i
  asField x

/-- `FieldOp2(i, j)` (R11): both operands are read before any tag is checked. -/
def fieldOp2 (o : Inputs) (i j : RegNo) : Except ErrCode Field2 := do
  let x ← readOp o i
  let y ← readOp o j
  let f ← asField x
  if x.tag = y.tag then .ok ⟨f.a, y.val.toNat, f.m, f.tag⟩ else .error .fieldMismatch

/-- The register of the y-coordinate of the pair named by `q` (R23). -/
def pairY (q : RegNo) : RegNo := q + 1

/-- The pair fields of a command must be even (R76). -/
def requireEven (qs : List RegNo) : Except ErrCode Unit := if qs.all evenPair then .ok () else .error .illegal

/-- The two coordinates of a point operand, x first (R23, R141). -/
def readPair (o : Inputs) (q : RegNo) : Except ErrCode (FReg × FReg) := do
  let x ← readOp o q
  let y ← readOp o (pairY q)
  .ok (x, y)

/-- The coordinate check of the point commands: every tag is P (R23, R141). -/
def requireTagP (rs : List FReg) : Except ErrCode Unit :=
  if rs.all (fun r => r.tag == .p) then .ok () else .error .fieldMismatch

/-- The effect of a command that writes one field register (R24, R28). -/
def writeField (rd : RegNo) (v : Val) (t : Tag) : Effect :=
  { regs := [(rd, ⟨v, t⟩)], z := some (zOfValue v) }

/-- The effect of LDG, PADD and PMUL: both coordinates, tagged P (R23, R24, R28). -/
def writePoint (qd : RegNo) (x y : Val) : Effect :=
  { regs := [(qd, ⟨x, .p⟩), (pairY qd, ⟨y, .p⟩)], z := some (zOfPoint x y) }

/-- The effect of DERDEC: r and s, tagged RAW (R24, R28, R166). -/
def writeSignature (qd : RegNo) (r s : Val) : Effect :=
  { regs := [(qd, ⟨r, .raw⟩), (pairY qd, ⟨s, .raw⟩)], z := some (zOfSignature r s) }

/-- A number below `2^256` as a register value (R9 `zext_256`). -/
def valOf (n : Nat) : Val := BitVec.ofNat 256 n

end Sys2Proof.Machine
end

