-- ==== Sys2Proof/Machine/Der.lean ====
section
/-! DEFINITION. The signature serializer (42_der.md R160, R164). -/

namespace Sys2Proof.Machine

/-- `der_int(v)` (R160): a 32-byte big-endian magnitude, with a `0x00` in front when its high bit is set, wrapped as
an INTEGER. -/
def derInt (v : Nat) : List Byte :=
  let body := beBytes 32 v
  let body := if 0x80 ≤ (body.headD 0).toNat then 0x00 :: body else body
  0x02 :: BitVec.ofNat 8 body.length :: body

/-- `der_seq(r, s)` (R160): the two INTEGERs wrapped as a SEQUENCE. -/
def derSeq (r s : Nat) : List Byte :=
  let c := derInt r ++ derInt s
  0x30 :: BitVec.ofNat 8 c.length :: c

/-- The effect of DERENC (R160, R162): the string, then zero fill up to the end of SIGBUF, and its length. -/
def writeDer (d : List Byte) : Effect :=
  { sig := some (d ++ List.replicate (sigSize - d.length) 0, BitVec.ofNat 7 d.length) }

/-- DERENC (R160): r, then s, any tags; EQ and Z unchanged. -/
def derencResult (rs1 rs2 : RegNo) (o : Inputs) : Except ErrCode Effect := do
  let r ← readOp o rs1
  let s ← readOp o rs2
  .ok (writeDer (derSeq r.val.toNat s.val.toNat))

/-- DERENC (R160). -/
def execDerenc (rs1 rs2 : RegNo) (s : State) : Host.Outcome State Fault Refusal :=
  complete s (derencResult rs1 rs2 s.operands)

/-- One check of DERDEC (R164): if it fails the command aborts with `E_DER_FORMAT`. -/
def derCheck (ok : Bool) : Except ErrCode Unit := if ok then .ok () else .error .derFormat

/-- The checks of DERDEC and the pair `(r, s)` they admit (R164), in the order listed; `b j` is SIGBUF[j] and `L` is
SIGLEN. -/
def derParse (m : Memory) (L : Nat) : Except ErrCode (Nat × Nat) := do
  let b : Nat → Nat := fun j => (m.sig j).toNat
  derCheck (decide (8 ≤ L))
  derCheck (b 0 == 0x30)
  derCheck (decide (b 1 < 0x80))
  derCheck (b 1 == L - 2)
  derCheck (b 2 == 0x02)
  let lr := b 3
  derCheck (decide (1 ≤ lr ∧ lr ≤ 33))
  derCheck (decide (6 + lr ≤ L))
  derCheck (b (4 + lr) == 0x02)
  let ls := b (5 + lr)
  derCheck (decide (1 ≤ ls ∧ ls ≤ 33))
  derCheck (6 + lr + ls == L)
  let r := beNat (m.readBytes (sigBase + 4) lr)
  let s := beNat (m.readBytes (sigBase + (6 + lr)) ls)
  derCheck (decide (r < 2 ^ 256 ∧ s < 2 ^ 256))
  .ok (r, s)

/-- DERDEC (R164): it reads SIGLEN and SIGBUF and no field register; the results are RAW (R166). -/
def derdecResult (qd : RegNo) (o : Inputs) : Except ErrCode Effect := do
  requireEven [qd]
  let (r, s) ← derParse o.sigBuf o.sigLen.toNat
  .ok (writeSignature qd (valOf r) (valOf s))

/-- DERDEC (R164). -/
def execDerdec (qd : RegNo) (s : State) : Host.Outcome State Fault Refusal :=
  complete s (derdecResult qd s.operands)

end Sys2Proof.Machine
end

