-- ==== Sys2Proof/Machine/Arith.lean ====
section
/-! DEFINITION. The arithmetic of the field and point commands over unbounded integers (00_scope.md R8, R12;
40_field.md R113; 41_point.md R141, R143). Montgomery forms are not represented (10_state.md R40). -/

namespace Sys2Proof.Machine

/-- The double-and-multiply loop of `powMod`, least significant exponent bit first. -/
def powModLoop (m : Nat) : Nat → Nat → Nat → Nat → Nat
  | 0, _, _, acc => acc
  | k + 1, b, e, acc => powModLoop m k (b * b % m) (e / 2) (if e % 2 = 1 then acc * b % m else acc)

/-- `b^e mod m`. `Sys2Proof.Machine.powMod_eq` proves it equal to `b ^ e % m`. -/
def powMod (b e m : Nat) : Nat := powModLoop m (e.log2 + 1) (b % m) e (1 % m)

/-- `(a + b) mod m` (R104). -/
def addMod (a b m : Nat) : Nat := (a + b) % m

/-- `(a - b) mod m`, in `[0, m)` (R8, R105). -/
def subMod (a b m : Nat) : Nat := (((a : Int) - (b : Int)) % (m : Int)).toNat

/-- `(a * b) mod m`, the exact product reduced (R106). -/
def mulMod (a b m : Nat) : Nat := a * b % m

/-- `(-a) mod m` (R110). -/
def negMod (a m : Nat) : Nat := ((-(a : Int)) % (m : Int)).toNat

/-- `inv_m(b) = b^(m-2) mod m` (R12). -/
def invMod (b m : Nat) : Nat := powMod b (m - 2) m

/-- `div_m(a, b) = (a * inv_m(b)) mod m` (R12). -/
def divMod (a b m : Nat) : Nat := a * invMod b m % m

/-- The exponent of FPOW (R109): `e`, or `(-e) mod (m - 1)` when the exponent is negative. -/
def powExponent (e m : Nat) (neg : Bool) : Nat := if neg && e != 0 then negMod e (m - 1) else e

/-- The slope of `padd` (R141): the doubling slope when both coordinates are equal, else the chord slope. -/
def slope (p q : Nat × Nat) : Nat :=
  if p.1 = q.1 ∧ p.2 = q.2 then
    divMod (3 * p.1 * p.1 % Config.P) (2 * p.2 % Config.P) Config.P
  else
    divMod (subMod q.2 p.2 Config.P) (subMod q.1 p.1 Config.P) Config.P

/-- The point with slope `lam` through `p` and `q` (R141): `xr = (lam * lam - xp - xq) mod P`,
`yr = (lam * (xp - xr) - yp) mod P`. -/
def chordPoint (lam : Nat) (p q : Nat × Nat) : Nat × Nat :=
  let xr := (((lam : Int) * lam - p.1 - q.1) % (Config.P : Int)).toNat
  let yr := (((lam : Int) * ((p.1 : Int) - xr) - p.2) % (Config.P : Int)).toNat
  (xr, yr)

/-- `padd(p, q)` (R141), applied to all pairs as written: no check that a point is on the curve, no special case for
the sentinel or for opposite points. -/
def padd (p q : Nat × Nat) : Nat × Nat := chordPoint (slope p q) p q

/-- The bits of R143's loop: `left` bits to go, the next one bit `i` of `k`. -/
def scalarLoop (k : Nat) : Nat → Nat → Nat × Nat → Nat × Nat → Nat × Nat
  | 0, _, acc, _ => acc
  | left + 1, i, acc, b =>
    scalarLoop k left (i + 1)
      (if k.testBit i then (if acc.1 = 0 ∧ acc.2 = 0 then b else padd acc b) else acc)
      (padd b b)

/-- `scalarmul(k, B0)` (R143): 256 bits, least significant first, the accumulator starting as the sentinel. -/
def scalarmul (k : Nat) (b : Nat × Nat) : Nat × Nat := scalarLoop k 256 0 (0, 0) b

end Sys2Proof.Machine
end

