-- ==== Sys2Proof/Machine/Field.lean ====
section
/-! DEFINITION. The field family (40_field.md R101 to R112). Each command has its result as a function of the inputs
captured at acceptance, its errors in the order of R100, and its meaning, which commits or aborts with that result. -/

namespace Sys2Proof.Machine

/-- FRED with the tag `t` of its result (R101): the value as it is for RAW, reduced for P and N. -/
def fredResult (t : Tag) (rd rs1 : RegNo) (o : Inputs) : Except ErrCode Effect := do
  let x ← readOp o rs1
  match t.modulus with
  | some m => .ok (writeField rd (valOf (x.val.toNat % m)) t)
  | Option.none => .ok (writeField rd x.val t)

/-- FRED.RAW (R101): `r = v; tr = RAW`. -/
def execFredRaw (rd rs1 : RegNo) (s : State) : Host.Outcome State Fault Refusal :=
  complete s (fredResult .raw rd rs1 s.operands)

/-- FRED.P (R101): `r = v mod P; tr = P`. -/
def execFredP (rd rs1 : RegNo) (s : State) : Host.Outcome State Fault Refusal :=
  complete s (fredResult .p rd rs1 s.operands)

/-- FRED.N (R101): `r = v mod N; tr = N`. -/
def execFredN (rd rs1 : RegNo) (s : State) : Host.Outcome State Fault Refusal :=
  complete s (fredResult .n rd rs1 s.operands)

/-- FLDI (R102): `F[rd] <- (zext_256(imm), RAW)`. It reads no register. -/
def execFldi (rd : RegNo) (imm : Byte) (s : State) : Host.Outcome State Fault Refusal :=
  complete s (.ok (writeField rd (imm.setWidth 256) .raw))

/-- The constant of an LDC id (R103). -/
def constOf : ConstId → Nat
  | .p => Config.P
  | .n => Config.N
  | .gx => Config.Gx
  | .gy => Config.Gy

/-- LDC (R103): `F[rd] <- (c, RAW)`. It reads no register. -/
def execLdc (rd : RegNo) (cid : ConstId) (s : State) : Host.Outcome State Fault Refusal :=
  complete s (.ok (writeField rd (valOf (constOf cid)) .raw))

/-- A command that combines two field elements of one modulus by `f` (R104 to R107). -/
def field2Result (f : Nat → Nat → Nat → Nat) (rd rs1 rs2 : RegNo) (o : Inputs) : Except ErrCode Effect := do
  let x ← fieldOp2 o rs1 rs2
  .ok (writeField rd (valOf (f x.a x.b x.m)) x.tag)

/-- A command that transforms one field element by `f` (R108, R110). -/
def field1Result (f : Nat → Nat → Nat) (rd rs1 : RegNo) (o : Inputs) : Except ErrCode Effect := do
  let x ← fieldOp1 o rs1
  .ok (writeField rd (valOf (f x.a x.m)) x.tag)

/-- FADD (R104): `r = (a + b) mod m`. -/
def execFadd (rd rs1 rs2 : RegNo) (s : State) : Host.Outcome State Fault Refusal :=
  complete s (field2Result addMod rd rs1 rs2 s.operands)

/-- FSUB (R105): `r = (a - b) mod m`. -/
def execFsub (rd rs1 rs2 : RegNo) (s : State) : Host.Outcome State Fault Refusal :=
  complete s (field2Result subMod rd rs1 rs2 s.operands)

/-- FMUL (R106): `r = (a * b) mod m`, the plain residue. -/
def execFmul (rd rs1 rs2 : RegNo) (s : State) : Host.Outcome State Fault Refusal :=
  complete s (field2Result mulMod rd rs1 rs2 s.operands)

/-- FDIV (R107): `r = (a * b^(m-2)) mod m`; dividing by 0 gives 0. -/
def execFdiv (rd rs1 rs2 : RegNo) (s : State) : Host.Outcome State Fault Refusal :=
  complete s (field2Result divMod rd rs1 rs2 s.operands)

/-- FINV (R108): `r = b^(m-2) mod m`. -/
def execFinv (rd rs1 : RegNo) (s : State) : Host.Outcome State Fault Refusal :=
  complete s (field1Result invMod rd rs1 s.operands)

/-- FPOW (R109). Both operands are read before the base's tag is checked; the exponent's tag is not checked. -/
def fpowResult (rd rs1 rs2 : RegNo) (neg : Bool) (o : Inputs) : Except ErrCode Effect := do
  let b ← readOp o rs1
  let e ← readOp o rs2
  let x ← asField b
  if neg && e.val.toNat != 0 && x.a == 0 then .error .powZeroNeg
  else .ok (writeField rd (valOf (powMod x.a (powExponent e.val.toNat x.m neg) x.m)) x.tag)

/-- FPOW (R109). -/
def execFpow (rd rs1 rs2 : RegNo) (neg : Bool) (s : State) : Host.Outcome State Fault Refusal :=
  complete s (fpowResult rd rs1 rs2 neg s.operands)

/-- FNEG (R110): `r = (-a) mod m`. -/
def execFneg (rd rs1 : RegNo) (s : State) : Host.Outcome State Fault Refusal :=
  complete s (field1Result negMod rd rs1 s.operands)

/-- FMOD (R111): the integer remainder of the two values, whatever their tags; the result is RAW. -/
def fmodResult (rd rs1 rs2 : RegNo) (o : Inputs) : Except ErrCode Effect := do
  let a ← readOp o rs1
  let d ← readOp o rs2
  if d.val.toNat = 0 then .error .modZero
  else .ok (writeField rd (valOf (a.val.toNat % d.val.toNat)) .raw)

/-- FMOD (R111). -/
def execFmod (rd rs1 rs2 : RegNo) (s : State) : Host.Outcome State Fault Refusal :=
  complete s (fmodResult rd rs1 rs2 s.operands)

/-- FEQ (R112): `EQ <- (a = b and ta = tb)`; no register is written and Z is unchanged. -/
def feqResult (rs1 rs2 : RegNo) (o : Inputs) : Except ErrCode Effect := do
  let a ← readOp o rs1
  let b ← readOp o rs2
  .ok { eq := some (eqOfRegs a b) }

/-- FEQ (R112). -/
def execFeq (rs1 rs2 : RegNo) (s : State) : Host.Outcome State Fault Refusal :=
  complete s (feqResult rs1 rs2 s.operands)

end Sys2Proof.Machine
end

