-- ==== Sys2Proof/Machine/Nonce.lean ====
section
/-! DEFINITION. The nonce generator (43_nonce.md R180 to R183). One turn of the engine is one pass of R180's loop up
to the point where it must wait for the entropy source. -/

namespace Sys2Proof.Machine

/-- The scalar an answer gives, if it is one that R180 accepts: 32 bytes with `0 < k < N`. -/
def acceptedNonce : Answer → Option Val
  | .insufficient => none
  | .bytes a => if 0 < a.toNat ∧ a.toNat < Config.N then some a else none

/-- NONCE (R180). With an answer at hand it commits `k` with tag N if R180 accepts it, and otherwise draws again. With
no answer at hand it makes a request, and while that request is outstanding it waits with nothing changed (log 9).
It reads no register. -/
def execNonce (rd : RegNo) (s : State) : Host.Outcome State Fault Refusal :=
  match s.port.ack with
  | some a =>
    match acceptedNonce a with
    | some k => complete s (.ok (writeField rd k .n))
    | none => .next s.requestEntropy
  | none =>
    match s.port.req with
    | some _ => .next s
    | none => .next s.requestEntropy

end Sys2Proof.Machine
end

