-- ==== Sys2Proof/Machine/Point.lean ====
section
/-! DEFINITION. The point family (41_point.md R140 to R143). A command whose pair field is odd is illegal and aborts
with `E_ILLEGAL` (30_encoding.md R76, R79); the decoder never hands one over (log 14). -/

namespace Sys2Proof.Machine

/-- LDG (R140): `F[qd] <- (Gx, P); F[qd+1] <- (Gy, P)`. It reads no register. -/
def ldgResult (qd : RegNo) : Except ErrCode Effect := do
  requireEven [qd]
  .ok (writePoint qd (valOf Config.Gx) (valOf Config.Gy))

/-- LDG (R140). -/
def execLdg (qd : RegNo) (s : State) : Host.Outcome State Fault Refusal := complete s (ldgResult qd)

/-- PADD (R141): operands in the order qa, qa+1, qb, qb+1, then the tags, then `padd`. -/
def paddResult (qd qa qb : RegNo) (o : Inputs) : Except ErrCode Effect := do
  requireEven [qd, qa, qb]
  let (xp, yp) ← readPair o qa
  let (xq, yq) ← readPair o qb
  requireTagP [xp, yp, xq, yq]
  let r := padd (xp.val.toNat, yp.val.toNat) (xq.val.toNat, yq.val.toNat)
  .ok (writePoint qd (valOf r.1) (valOf r.2))

/-- PADD (R141). -/
def execPadd (qd qa qb : RegNo) (s : State) : Host.Outcome State Fault Refusal :=
  complete s (paddResult qd qa qb s.operands)

/-- PMUL (R142): operands in the order rk, qb, qb+1, then the tags, then the range of the scalar, then `scalarmul`.
The scalar is used by its value, whatever its tag. -/
def pmulResult (qd rk qb : RegNo) (o : Inputs) : Except ErrCode Effect := do
  requireEven [qd, qb]
  let k ← readOp o rk
  let (xb, yb) ← readPair o qb
  requireTagP [xb, yb]
  if 0 < k.val.toNat ∧ k.val.toNat < Config.N then
    let r := scalarmul k.val.toNat (xb.val.toNat, yb.val.toNat)
    .ok (writePoint qd (valOf r.1) (valOf r.2))
  else .error .scalarRange

/-- PMUL (R142). -/
def execPmul (qd rk qb : RegNo) (s : State) : Host.Outcome State Fault Refusal :=
  complete s (pmulResult qd rk qb s.operands)

end Sys2Proof.Machine
end

