-- ==== Sys2Proof/Machine/System.lean ====
section
/-! DEFINITION. The system family: NOP (44_system.md R195). -/

namespace Sys2Proof.Machine

/-- NOP (R195): "no operation"; only what every commit does. -/
def execNop (s : State) : Host.Outcome State Fault Refusal := complete s (.ok {})

end Sys2Proof.Machine
end

