-- ==== Sys2Proof/Machine/Dispatch.lean ====
section
/-! DEFINITION. What the engine does to the state on a turn with a given command: one arm per command, each one call
of its meaning. -/

namespace Sys2Proof.Machine

def exec (i : Instr) (s : State) : Host.Outcome State Fault Refusal :=
  match i with
  | .nop => Sys2Proof.Machine.execNop s
  | .fredRaw rd rs1 => Sys2Proof.Machine.execFredRaw rd rs1 s
  | .fredP rd rs1 => Sys2Proof.Machine.execFredP rd rs1 s
  | .fredN rd rs1 => Sys2Proof.Machine.execFredN rd rs1 s
  | .fldi rd imm => Sys2Proof.Machine.execFldi rd imm s
  | .ldc rd cid => Sys2Proof.Machine.execLdc rd cid s
  | .fadd rd rs1 rs2 => Sys2Proof.Machine.execFadd rd rs1 rs2 s
  | .fsub rd rs1 rs2 => Sys2Proof.Machine.execFsub rd rs1 rs2 s
  | .fmul rd rs1 rs2 => Sys2Proof.Machine.execFmul rd rs1 rs2 s
  | .fdiv rd rs1 rs2 => Sys2Proof.Machine.execFdiv rd rs1 rs2 s
  | .finv rd rs1 => Sys2Proof.Machine.execFinv rd rs1 s
  | .fpow rd rs1 rs2 neg => Sys2Proof.Machine.execFpow rd rs1 rs2 neg s
  | .fneg rd rs1 => Sys2Proof.Machine.execFneg rd rs1 s
  | .fmod rd rs1 rs2 => Sys2Proof.Machine.execFmod rd rs1 rs2 s
  | .feq rs1 rs2 => Sys2Proof.Machine.execFeq rs1 rs2 s
  | .ldg qd => Sys2Proof.Machine.execLdg qd s
  | .padd qd qa qb => Sys2Proof.Machine.execPadd qd qa qb s
  | .pmul qd rk qb => Sys2Proof.Machine.execPmul qd rk qb s
  | .derenc rs1 rs2 => Sys2Proof.Machine.execDerenc rs1 rs2 s
  | .derdec qd => Sys2Proof.Machine.execDerdec qd s
  | .nonce rd => Sys2Proof.Machine.execNonce rd s

end Sys2Proof.Machine
end

