-- ==== Sys2Proof/Machine/Control.lean ====
section
/-! DEFINITION. Whose turn it is: the engine's turn, which decodes the running command word and runs it
(60_exceptions.md R202, R203), and what each event does (00_scope.md R17). -/

namespace Sys2Proof.Machine

/-- A turn of the engine. An idle engine does nothing. A running one decodes its word, after acceptance (R202), and
does what the command does; an illegal word aborts with `E_ILLEGAL` (R72, R79). -/
def engineTurn (s : State) : Host.Outcome State Fault Refusal :=
  match s.engine with
  | .idle => .next s
  | .running w _ _ =>
    match decode w with
    | .ok i => exec i s
    | .error _ => .next (s.abort .illegal)

/-- What one event does (R17). -/
def handle (e : Event) (s : State) : Host.Outcome State Fault Refusal :=
  match e with
  | .read a => busRead a s
  | .write a v => busWrite a v s
  | .engine => engineTurn s
  | .answer n a => .next (s.takeAnswer n a)
  | .reset => .next s.resetAll

/-- The state without its next event. -/
def State.popInput (s : State) : State := { s with inputs := s.inputs.tail }

/-- The next event: the first one of `inputs`, and a turn of the engine when there is none (log 2). -/
def State.nextEvent (s : State) : Event := s.inputs.headD .engine

/-- The command word of the fetch: `w` is accepted and the engine's turn is next (log 10). -/
def State.placeCommand (s : State) (w : Word) : State :=
  { s.launch w with inputs := .engine :: s.inputs }

end Sys2Proof.Machine
end

