-- ==== Sys2Proof/Machine/Step.lean ====
section
/-! DEFINITION. One step of the machine, and the placing of a command word where the next step runs it. -/

namespace Sys2Proof.Machine

/-- One step: the next event happens (R17, R64: one agent at a time, in order). -/
def step (s : State) : Host.Outcome State Fault Refusal := handle s.nextEvent s.popInput

/-- The state in which the very next step runs the command whose `nbits` bits are `w`, every bit above them 0: the word
has been accepted and the engine's turn is next (log 10). -/
def State.withFetchWord (s : State) (nbits w : Nat) : State := s.placeCommand (BitVec.ofNat 32 (w % 2 ^ nbits))

end Sys2Proof.Machine
end

