-- ==== Sys2Proof/Safety.lean ====
section
/-! DEFINITION. What counts as a safe run, the invariants of the machine, and the words the claims are stated in:
what a command that completes, aborts or waits does to the state, and the spec's formulas written with plain powers
and folds, apart from the functions the machine evaluates. -/

namespace Sys2Proof.Safety

open Sys2Proof.Machine

/-! ### Safe runs -/

/-- No host protocol error is recorded (R206): the host has kept the busy discipline of R235. -/
def noProtocolError (s : State) : Bool := !s.herr

/-- A run of `k` steps that meets no bus error (R52) and records no host protocol error. -/
def safeRun : Nat → State → Bool
  | 0, s => noProtocolError s
  | k + 1, s =>
    noProtocolError s &&
      match step s with
      | .next t => safeRun k t
      | .fault _ => false
      | .refused _ => false

/-! ### Invariants -/

/-- R21: a P-tagged value is below P and an N-tagged one below N. -/
def RegsReduced (rs : Vector FReg 16) : Prop :=
  ∀ i : RegNo, ∀ m, (getReg rs i).tag.modulus = some m → (getReg rs i).val.toNat < m

/-- R21 for the live register file and for the one a running command has captured. -/
def FieldValuesReduced (s : State) : Prop :=
  RegsReduced s.regs ∧ ∀ w ins d, s.engine = .running w ins d → RegsReduced ins.regs

/-- SIGBUF's cells are in canonical form and lie at its 72 addresses (R36, R51), and SIGLEN is at most 72 (R35). -/
def SigStoreLegal (s : State) : Prop :=
  s.sigBuf.wf = true ∧ (∀ c ∈ s.sigBuf, sigBase ≤ c.1 ∧ c.1 < sigBase + sigSize) ∧ s.sigLen.toNat ≤ sigSize

/-- The status bits agree with the engine (R26, R202, R203): BUSY exactly while a command runs; while one runs, DONE and
ERR are 0, CMD is its word, and what it captured is what the registers, SIGBUF and SIGLEN hold (R68). -/
def EngineConsistent (s : State) : Prop :=
  match s.engine with
  | .idle => s.busy = false
  | .running w ins _ => s.busy = true ∧ s.done = false ∧ s.err = none ∧ s.cmd = w ∧ ins = s.capture

/-- The entropy port is used by a running NONCE only (R210, R231): with a request outstanding or an answer waiting the
engine runs a NONCE word, and there is never both a request and an answer. -/
def PortConsistent (s : State) : Prop :=
  (s.port ≠ .quiet → ∃ w ins d rd, s.engine = .running w ins d ∧ decode w = .ok (.nonce rd)) ∧
    (s.port.req = none ∨ s.port.ack = none)

/-- Every request outstanding has a number already given out, so that a later request never shares it (log 8). -/
def RequestNumbered (s : State) : Prop := ∀ n, s.port.req = some n → n < s.requests

/-! ### What a step does to the state -/

/-- What every completing command leaves, whatever else it writes (R203): BUSY 0, DONE 1, the engine idle and the port
quiet; ERR, HERR, CMD, ERRINFO and the model's own fields as they were. -/
def Completed (s t : State) : Prop :=
  t.busy = false ∧ t.done = true ∧ t.engine = .idle ∧ t.port = .quiet ∧ t.err = s.err ∧ t.herr = s.herr ∧
    t.cmd = s.cmd ∧ t.errInfo = s.errInfo ∧ t.requests = s.requests ∧ t.busyReads = s.busyReads ∧
    t.inputs = s.inputs ∧ t.reply = s.reply

/-- Every register but the listed ones keeps its value and tag. -/
def OnlyRegs (s t : State) (ds : List RegNo) : Prop := ∀ i : RegNo, i ∉ ds → t.reg i = s.reg i

/-- SIGLEN and every byte of memory keep their value. -/
def SigSame (s t : State) : Prop := t.sigLen = s.sigLen ∧ ∀ a, t.sigBuf.read a = s.sigBuf.read a

/-- An abort with code `c` (R203): ERR, ERRINFO, DONE and BUSY are written, the engine is idle, and every other value is
what it was. -/
def Aborted (s t : State) (c : ErrCode) : Prop :=
  t.err = some c ∧ t.errInfo = s.commandWord ∧ t.done = true ∧ t.busy = false ∧ t.engine = .idle ∧
    t.port = .quiet ∧ OnlyRegs s t [] ∧ SigSame s t ∧ t.eq = s.eq ∧ t.z = s.z ∧ t.herr = s.herr ∧ t.cmd = s.cmd ∧
    t.requests = s.requests ∧ t.busyReads = s.busyReads ∧ t.inputs = s.inputs ∧ t.reply = s.reply

/-- The command `i` aborts with code `c` on `s`. -/
def AbortsWith (i : Instr) (s : State) (c : ErrCode) : Prop := ∃ t, exec i s = .next t ∧ Aborted s t c

/-- The command `i` commits on `s`, writing the number `v` with tag `tag` to F[rd], Z by `v = 0` (R28), and nothing
else but what every completing command writes. -/
def CommitsReg (i : Instr) (s : State) (rd : RegNo) (v : Nat) (tag : Tag) : Prop :=
  ∃ t, exec i s = .next t ∧ (t.reg rd).val.toNat = v ∧ (t.reg rd).tag = tag ∧ t.z = decide (v = 0) ∧ t.eq = s.eq ∧
    OnlyRegs s t [rd] ∧ SigSame s t ∧ Completed s t

/-- The command `i` commits on `s`, writing the numbers `x` and `y` with tag `tag` to F[qd] and F[qd+1] and `zf` to Z,
and nothing else but what every completing command writes. -/
def CommitsPair (i : Instr) (s : State) (qd : RegNo) (x y : Nat) (tag : Tag) (zf : Bool) : Prop :=
  ∃ t, exec i s = .next t ∧ (t.reg qd).val.toNat = x ∧ (t.reg qd).tag = tag ∧ (t.reg (pairY qd)).val.toNat = y ∧
    (t.reg (pairY qd)).tag = tag ∧ t.z = zf ∧ t.eq = s.eq ∧ OnlyRegs s t [qd, pairY qd] ∧ SigSame s t ∧ Completed s t

/-- Operand register `i` of a command (R10): F[i] as captured at acceptance. -/
def arg (s : State) (i : RegNo) : FReg := getReg s.operands.regs i

/-- A list of operands in which one has tag NONE (R10). -/
def SomeUninit (s : State) (is : List RegNo) : Prop := ∃ i ∈ is, (arg s i).tag = .none

/-- The command is encoded by the given fields (R70, R71, R77) and by no other word. -/
def EncodedBy (i : Instr) (f : Fields) : Prop := ∀ w, decode w = .ok i ↔ w = packFields f

/-- A command of two field-element operands (R11, R100): `E_UNINIT` when an operand has tag NONE; otherwise
`E_FIELD_MISMATCH` when the tags differ or one is RAW; otherwise it commits `f m a b` with the operands' tag. -/
def TwoFieldCommand (i : Instr) (s : State) (rd rs1 rs2 : RegNo) (f : Nat → Nat → Nat → Nat) : Prop :=
  (SomeUninit s [rs1, rs2] → AbortsWith i s .uninit) ∧
  (¬SomeUninit s [rs1, rs2] → (arg s rs1).tag ≠ (arg s rs2).tag ∨ (arg s rs1).tag = .raw ∨ (arg s rs2).tag = .raw →
    AbortsWith i s .fieldMismatch) ∧
  ∀ m, (arg s rs1).tag.modulus = some m → (arg s rs2).tag = (arg s rs1).tag →
    CommitsReg i s rd (f m (arg s rs1).val.toNat (arg s rs2).val.toNat) (arg s rs1).tag

/-- A command of one field-element operand (R11, R100). -/
def OneFieldCommand (i : Instr) (s : State) (rd rs1 : RegNo) (f : Nat → Nat → Nat) : Prop :=
  (SomeUninit s [rs1] → AbortsWith i s .uninit) ∧
  ((arg s rs1).tag = .raw → AbortsWith i s .fieldMismatch) ∧
  ∀ m, (arg s rs1).tag.modulus = some m → CommitsReg i s rd (f m (arg s rs1).val.toNat) (arg s rs1).tag

/-! ### The spec's formulas -/

/-- `inv_m(b) = b^(m-2) mod m` (R12). -/
def invSpec (m b : Nat) : Nat := b ^ (m - 2) % m

/-- `div_m(a, b) = (a * inv_m(b)) mod m` (R12). -/
def divSpec (m a b : Nat) : Nat := a * invSpec m b % m

/-- The least non-negative residue of an integer (R8). -/
def residue (a : Int) (m : Nat) : Nat := (a % (m : Int)).toNat

/-- `padd` (R141). -/
def paddSpec (p q : Nat × Nat) : Nat × Nat :=
  let lam :=
    if p = q then divSpec Config.P (3 * p.1 * p.1 % Config.P) (2 * p.2 % Config.P)
    else divSpec Config.P (residue ((q.2 : Int) - p.2) Config.P) (residue ((q.1 : Int) - p.1) Config.P)
  let xr := residue ((lam : Int) * lam - p.1 - q.1) Config.P
  (xr, residue ((lam : Int) * (p.1 - xr) - p.2) Config.P)

/-- One bit of `scalarmul` (R143): the accumulator and the working base after bit `i`. -/
def scalarBit (k : Nat) (st : (Nat × Nat) × (Nat × Nat)) (i : Nat) : (Nat × Nat) × (Nat × Nat) :=
  (if k.testBit i then (if st.1 = (0, 0) then st.2 else paddSpec st.1 st.2) else st.1, paddSpec st.2 st.2)

/-- `scalarmul` (R143): bits 0 to 255 in order, the accumulator starting as the sentinel. -/
def scalarmulSpec (k : Nat) (b : Nat × Nat) : Nat × Nat := ((List.range 256).foldl (scalarBit k) ((0, 0), b)).1

/-- A pair of numbers on the curve (R19): `y^2 mod P = (x^3 + 7) mod P`. -/
def OnCurve (p : Nat × Nat) : Prop := p.2 ^ 2 % Config.P = (p.1 ^ 3 + 7) % Config.P

/-- `be_32(v)` (R8): byte `i` is bits `255-8i : 248-8i`. -/
def be32Spec (v : Nat) : List Byte := (List.range 32).map fun i => BitVec.ofNat 8 (v / 2 ^ (248 - 8 * i))

/-- `der_int(v)` (R160): the pad byte exactly when the high bit of the 256-bit value is set. -/
def derIntSpec (v : Nat) : List Byte :=
  if 2 ^ 255 ≤ v then [0x02, 33, 0x00] ++ be32Spec v else [0x02, 32] ++ be32Spec v

/-- The length of `der_seq(r, s)`: 70, and one more for each pad byte (R161). -/
def derLenSpec (r s : Nat) : Nat := 70 + (if 2 ^ 255 ≤ r then 1 else 0) + (if 2 ^ 255 ≤ s then 1 else 0)

/-- `der_seq(r, s)` (R160). -/
def derSeqSpec (r s : Nat) : List Byte :=
  [0x30, BitVec.ofNat 8 (derLenSpec r s - 2)] ++ derIntSpec r ++ derIntSpec s

/-- `be` of `n` bytes of SIGBUF from byte `j` (R8). -/
def sigNumber (m : Memory) (j n : Nat) : Nat := beNat ((List.range n).map fun i => m.sig (j + i))

/-- The strings DERDEC accepts, with the pair `(r, s)` they hold (R164): all its checks pass. -/
def DerAccepts (m : Memory) (L r s : Nat) : Prop :=
  ∃ lr ls, 8 ≤ L ∧ (m.sig 0).toNat = 0x30 ∧ (m.sig 1).toNat < 0x80 ∧ (m.sig 1).toNat = L - 2 ∧
    (m.sig 2).toNat = 0x02 ∧ (m.sig 3).toNat = lr ∧ 1 ≤ lr ∧ lr ≤ 33 ∧ 6 + lr ≤ L ∧ (m.sig (4 + lr)).toNat = 0x02 ∧
    (m.sig (5 + lr)).toNat = ls ∧ 1 ≤ ls ∧ ls ≤ 33 ∧ 6 + lr + ls = L ∧ r = sigNumber m 4 lr ∧
    s = sigNumber m (6 + lr) ls ∧ r < 2 ^ 256 ∧ s < 2 ^ 256

/-- The registers a command writes when it commits (R24). -/
def destinations : Instr → List RegNo
  | .nop => []
  | .fredRaw rd _ => [rd]
  | .fredP rd _ => [rd]
  | .fredN rd _ => [rd]
  | .fldi rd _ => [rd]
  | .ldc rd _ => [rd]
  | .fadd rd _ _ => [rd]
  | .fsub rd _ _ => [rd]
  | .fmul rd _ _ => [rd]
  | .fdiv rd _ _ => [rd]
  | .finv rd _ => [rd]
  | .fpow rd _ _ _ => [rd]
  | .fneg rd _ => [rd]
  | .fmod rd _ _ => [rd]
  | .feq _ _ => []
  | .ldg qd => [qd, pairY qd]
  | .padd qd _ _ => [qd, pairY qd]
  | .pmul qd _ _ => [qd, pairY qd]
  | .derenc _ _ => []
  | .derdec qd => [qd, pairY qd]
  | .nonce rd => [rd]

/-- The commands that write Z when they commit (R28): all but FEQ, DERENC and NOP. -/
def writesZ : Instr → Bool
  | .nop => false
  | .fredRaw _ _ => true
  | .fredP _ _ => true
  | .fredN _ _ => true
  | .fldi _ _ => true
  | .ldc _ _ => true
  | .fadd _ _ _ => true
  | .fsub _ _ _ => true
  | .fmul _ _ _ => true
  | .fdiv _ _ _ => true
  | .finv _ _ => true
  | .fpow _ _ _ _ => true
  | .fneg _ _ => true
  | .fmod _ _ _ => true
  | .feq _ _ => false
  | .ldg _ => true
  | .padd _ _ _ => true
  | .pmul _ _ _ => true
  | .derenc _ _ => false
  | .derdec _ => true
  | .nonce _ => true

/-- The codes a command can abort with (R201, the "raised by" column; `E_ILLEGAL` for an odd pair field, R76). -/
def mayRaise : Instr → List ErrCode
  | .nop => []
  | .fredRaw _ _ => [.uninit]
  | .fredP _ _ => [.uninit]
  | .fredN _ _ => [.uninit]
  | .fldi _ _ => []
  | .ldc _ _ => []
  | .fadd _ _ _ => [.uninit, .fieldMismatch]
  | .fsub _ _ _ => [.uninit, .fieldMismatch]
  | .fmul _ _ _ => [.uninit, .fieldMismatch]
  | .fdiv _ _ _ => [.uninit, .fieldMismatch]
  | .finv _ _ => [.uninit, .fieldMismatch]
  | .fpow _ _ _ _ => [.uninit, .fieldMismatch, .powZeroNeg]
  | .fneg _ _ => [.uninit, .fieldMismatch]
  | .fmod _ _ _ => [.uninit, .modZero]
  | .feq _ _ => [.uninit]
  | .ldg _ => [.illegal]
  | .padd _ _ _ => [.illegal, .uninit, .fieldMismatch]
  | .pmul _ _ _ => [.illegal, .uninit, .fieldMismatch, .scalarRange]
  | .derenc _ _ => [.uninit]
  | .derdec _ => [.illegal, .derFormat]
  | .nonce _ => []

/-- R79, from the fields of a word alone: the OPC is unassigned (R77), or a field its class marks 0 is not (R71, R72), or
MSEL of FRED is 3 to 15 (R73), or the id of LDC is above 3, or IMM8[7:1] of FPOW is not 0 (R74), or a pair field is
odd (R76). -/
def IllegalFields (f : Fields) : Prop :=
  (f.opc.toNat ∉ [0x00, 0x01, 0x02, 0x03, 0x08, 0x09, 0x0A, 0x0B, 0x0C, 0x0D, 0x0E, 0x0F, 0x10, 0x20, 0x21, 0x22,
    0x30, 0x31, 0x40]) ∨
  (f.rd.val ≠ 0 ∧ f.opc.toNat ∈ [0x00, 0x10, 0x30]) ∨
  (f.rs1.val ≠ 0 ∧ f.opc.toNat ∈ [0x00, 0x02, 0x03, 0x20, 0x31, 0x40]) ∨
  (f.rs2.val ≠ 0 ∧ f.opc.toNat ∈ [0x00, 0x01, 0x02, 0x03, 0x0C, 0x0E, 0x20, 0x31, 0x40]) ∨
  (f.msel.toNat ≠ 0 ∧ f.opc.toNat ≠ 0x01) ∨
  (f.imm.toNat ≠ 0 ∧ f.opc.toNat ∉ [0x02, 0x03, 0x0D]) ∨
  (f.opc.toNat = 0x01 ∧ 3 ≤ f.msel.toNat) ∨
  (f.opc.toNat = 0x03 ∧ 3 < f.imm.toNat) ∨
  (f.opc.toNat = 0x0D ∧ f.imm.toNat / 2 ≠ 0) ∨
  (f.rd.val % 2 = 1 ∧ f.opc.toNat ∈ [0x20, 0x21, 0x22, 0x31]) ∨
  (f.rs1.val % 2 = 1 ∧ f.opc.toNat = 0x21) ∨
  (f.rs2.val % 2 = 1 ∧ f.opc.toNat ∈ [0x21, 0x22])

/-- A word of the given OPC that R79 lists as illegal aborts with `E_ILLEGAL` at the engine's turn, whatever the registers
hold: the check of the word comes first (R100, R205). -/
def IllegalFormsAbort (opc : BitVec 8) : Prop :=
  ∀ (s : State) (w : Word) (ins : Inputs) (d : Nat), s.engine = .running w ins d → (fieldsOf w).opc = opc →
    IllegalFields (fieldsOf w) → ∃ t, engineTurn s = .next t ∧ Aborted s t .illegal

/-- Everything of the block but the reply and the free-value counter is as it was: what a read leaves (R60). -/
def BlockSame (s t : State) : Prop :=
  OnlyRegs s t [] ∧ SigSame s t ∧ t.busy = s.busy ∧ t.done = s.done ∧ t.eq = s.eq ∧ t.z = s.z ∧ t.err = s.err ∧
    t.herr = s.herr ∧ t.cmd = s.cmd ∧ t.errInfo = s.errInfo ∧ t.engine = s.engine ∧ t.port = s.port ∧
    t.requests = s.requests ∧ t.inputs = s.inputs

/-- Everything of the block but HERR is as it was, and HERR is set: what a host protocol error does (R206). -/
def OnlyHerrSet (s t : State) : Prop := BlockSame { s with herr := true } t

/-- The address of word `w` of F[i]'s value window (R51). -/
def valueAddr (i : RegNo) (w : Fin 8) : Addr := BitVec.ofNat 12 (0x100 + 0x20 * i.val + 4 * w.val)

/-- The address of TAG[i] (R51). -/
def tagAddr (i : RegNo) : Addr := BitVec.ofNat 12 (0x300 + 4 * i.val)

/-- The address of SIGBUF word `w` (R51). -/
def sigAddr (w : Fin 18) : Addr := BitVec.ofNat 12 (0x400 + 4 * w.val)

/-- The read ends with OK and returns `d`, and nothing of the block changes (R60). -/
def ReadsAs (a : Addr) (s : State) (d : Word) : Prop :=
  ∃ t, busRead a s = .next t ∧ t.reply = some (.readOk d) ∧ BlockSame s t ∧ t.busyReads = s.busyReads

/-- The read ends with OK and returns a free value (R54, R57, R59), and nothing of the block changes. -/
def ReadsFree (a : Addr) (s : State) : Prop :=
  ∃ t, busRead a s = .next t ∧ t.reply = some (.readOk (Config.busyRead s.busyReads)) ∧ BlockSame s t

/-- The transaction ends with `BUS_ERROR` (R52): the step answers a fault, and there is no next state. -/
def WriteFaults (a : Addr) (v : Word) (s : State) : Prop := ∃ f, busWrite a v s = .fault f

/-- The read ends with `BUS_ERROR` (R52). -/
def ReadFaults (a : Addr) (s : State) : Prop := ∃ f, busRead a s = .fault f

/-- An address that R51 lists. -/
def Listed (a : Addr) : Prop :=
  a.toNat % 4 = 0 ∧ (a.toNat < 0x018 ∨ (0x100 ≤ a.toNat ∧ a.toNat < 0x340) ∨ (0x400 ≤ a.toNat ∧ a.toNat < 0x448))

end Sys2Proof.Safety
end

