-- ==== Sys2Proof/Certificates/Slice0/Obligations.lean ====
section
/-! DEFINITION. The statements for the provers. Each docstring names the rules of spec/ that it formalises; the words
the statements use stand in Sys2Proof/Safety.lean. -/

open Sys2Proof Sys2Proof.Machine Sys2Proof.Safety

/-! ### Encoding -/

/-- R70, R71, R77: decoding the word of a well-formed command gives the command back, whatever its operands. -/
def Obligations.DecodeOfEncodeIsIdentity : Prop :=
  ∀ i : Instr, i.WellFormed = true → decode (encode i) = .ok i

/-- R80: a word that decodes to a command is the one word of that command, and the command is well formed. -/
def Obligations.DecodedWordIsTheEncoding : Prop :=
  ∀ (w : Word) (i : Instr), decode w = .ok i → encode i = w ∧ i.WellFormed = true

/-- R78: a word decodes to a command exactly when it meets a match and mask row; it then meets that command's row, and
no other: "At most one row matches any word". -/
def Obligations.DecodableWordsAreTheTableRows : Prop :=
  (∀ w : Word, (∃ i, decode w = .ok i) ↔ ∃ row ∈ opcodeRows, meetsRow w row = true) ∧
    ∀ (w : Word) (i : Instr), decode w = .ok i →
      (i.matchWord, i.maskWord) ∈ opcodeRows ∧
        ∀ row ∈ opcodeRows, meetsRow w row = true ↔ row = (i.matchWord, i.maskWord)

/-- R84: the worked encodings of the spec decode to the commands they stand for. -/
def Obligations.WorkedEncodingsDecode : Prop :=
  decode 0x08312000 = .ok (.fadd 3 1 2) ∧ decode 0x01100100 = .ok (.fredP 1 0) ∧ decode 0x01100200 = .ok (.fredN 1 0) ∧
    decode 0x02000007 = .ok (.fldi 0 7) ∧ decode 0x03200001 = .ok (.ldc 2 .n) ∧
    decode 0x0D201001 = .ok (.fpow 2 0 1 true) ∧ decode 0x10045000 = .ok (.feq 4 5) ∧ decode 0x20000000 = .ok (.ldg 0) ∧
    decode 0x21200000 = .ok (.padd 2 0 0) ∧ decode 0x22460000 = .ok (.pmul 4 6 0) ∧
    decode 0x30089000 = .ok (.derenc 8 9) ∧ decode 0x31A00000 = .ok (.derdec 10) ∧ decode 0x40700000 = .ok (.nonce 7)

/-- R72, R79: the illegal words are exactly those R79 lists, by their fields; each is accepted, and then aborts with
`E_ILLEGAL` and writes nothing but ERR, ERRINFO, DONE and BUSY. -/
def Obligations.IllegalWordsAreAcceptedThenAbort : Prop :=
  (∀ w : Word, IllegalFields (fieldsOf w) ↔ ∃ r, decode w = .error r) ∧
    ∀ (s : State) (w : Word), s.busy = false → s.err = none → s.herr = false → IllegalFields (fieldsOf w) →
      ∃ t u, busWrite 0x008 w s = .next t ∧ t.busy = true ∧ t.cmd = w ∧ OnlyRegs s t [] ∧ SigSame s t ∧ t.eq = s.eq ∧
        t.z = s.z ∧ t.errInfo = s.errInfo ∧ engineTurn t = .next u ∧ Aborted t u .illegal ∧ u.errInfo = w

/-! ### The step -/

/-- A step is its next event, on the state without that event (R17, log 1). At the engine's turn, which is also the event
of an empty list (log 2), it is `exec i` when the running word decodes to `i` (R202, R203), the abort with `E_ILLEGAL`
when the word is illegal (R79), and nothing at all when the engine is idle (R39, R61). A read and a write event are the
bus transactions; an answer and the reset input do what `takeAnswer` and `resetAll` do (R181, R230). The step after `withFetchWord` runs the word placed, on the operand state as it stands. -/
def Obligations.StepRunsTheDecodedCommand : Prop :=
  (∀ (s : State) (w : Word) (ins : Inputs) (d : Nat) (i : Instr), s.nextEvent = .engine → s.engine = .running w ins d →
    decode w = .ok i → step s = exec i s.popInput) ∧
    (∀ (s : State) (w : Word) (ins : Inputs) (d : Nat), s.nextEvent = .engine → s.engine = .running w ins d →
      (∀ i, decode w ≠ .ok i) → step s = .next (s.popInput.abort .illegal)) ∧
    (∀ s : State, s.nextEvent = .engine → s.engine = .idle → step s = .next s.popInput) ∧
    (∀ s : State, s.inputs = [] → s.nextEvent = .engine ∧ s.popInput = s) ∧
    (∀ (s : State) (e : Event) (rest : List Event), s.inputs = e :: rest →
      s.nextEvent = e ∧ s.popInput = { s with inputs := rest }) ∧
    (∀ (s : State) (a : Addr), s.nextEvent = .read a → step s = busRead a s.popInput) ∧
    (∀ (s : State) (a : Addr) (v : Word), s.nextEvent = .write a v → step s = busWrite a v s.popInput) ∧
    (∀ (s : State) (n : Nat) (a : Answer), s.nextEvent = .answer n a → step s = .next (s.popInput.takeAnswer n a)) ∧
    (∀ s : State, s.nextEvent = .reset → step s = .next s.popInput.resetAll) ∧
    ∀ (s : State) (nbits n : Nat) (i : Instr), decode (BitVec.ofNat 32 (n % 2 ^ nbits)) = .ok i →
      step (s.withFetchWord nbits n) = exec i (s.launch (BitVec.ofNat 32 (n % 2 ^ nbits))) ∧
        (s.launch (BitVec.ofNat 32 (n % 2 ^ nbits))).operands = s.capture

/-- R52, R53, R58: a command never stops the machine, and no step stops for want of a meaning; only a host transaction
stops it, by a bus error. -/
def Obligations.OnlyBusErrorsStopTheMachine : Prop :=
  (∀ (i : Instr) (s : State), ∃ t, exec i s = .next t) ∧ (∀ (s : State) (r : Refusal), step s ≠ .refused r) ∧
    ∀ (s : State) (f : Fault), step s = .fault f → (∃ a, s.nextEvent = .read a) ∨ ∃ a v, s.nextEvent = .write a v

/-- R203, R201: a command other than NONCE ends at the engine's turn, with BUSY 0, DONE 1 and the engine idle; and whatever
the command, its turn leaves ERR and ERRINFO as they were, or is a precise abort with a code that R201 lists for it. -/
def Obligations.CommandsCommitOrAbortPrecisely : Prop :=
  ∀ (i : Instr) (s : State), ∃ t, exec i s = .next t ∧
    ((∀ rd, i ≠ .nonce rd) → t.busy = false ∧ t.done = true ∧ t.engine = .idle ∧ t.port = .quiet) ∧
    ((t.err = s.err ∧ t.errInfo = s.errInfo) ∨ ∃ c ∈ mayRaise i, Aborted s t c)

/-! ### Reset -/

/-- R230, R231: the reset input, whatever the state, puts every piece of state to its reset value at once, which is also
the state the machine starts in. -/
def Obligations.ResetPutsEveryValue : Prop :=
  ∀ (s : State) (rest : List Event), s.inputs = .reset :: rest → ∃ t, step s = .next t ∧ t.inputs = rest ∧
    ∀ u ∈ [t, State.reset],
      (∀ i, u.reg i = ⟨0, .none⟩) ∧ u.status = 0 ∧ u.busy = false ∧ u.done = false ∧ u.eq = false ∧ u.z = false ∧
        u.err = none ∧ u.herr = false ∧ u.cmd = 0 ∧ readLoc u .ctrl = 0 ∧ u.errInfo = 0 ∧ u.sigLen = 0 ∧
        (∀ a, u.sigBuf.read a = 0) ∧ readLoc u .id = 0x0D040007 ∧ u.engine = .idle ∧ u.port.req = none ∧
        Config.P = 0xFFFFFFFFFFFFFFFFFFFFFFFFFFFFFFFFFFFFFFFFFFFFFFFFFFFFFFFEFFFFFC2F ∧
        Config.N = 0xFFFFFFFFFFFFFFFFFFFFFFFFFFFFFFFEBAAEDCE6AF48A03BBFD25E8CD0364141 ∧
        Config.Gx = 0x79BE667EF9DCBBAC55A06295CE870B07029BFCDB2DCE28D959F2815B16F81798 ∧
        Config.Gy = 0x483ADA7726A3C4655DA4FBFC0E1108A8FD17B448A68554199C47D08FFB10D4B8

/-! ### System commands -/

/-- R195: NOP is accepted like any command, writes no register and no flag, and commits: its only effects are CMD <- 0,
DONE <- 1, BUSY <- 0. -/
def Obligations.NopOnlyCommits : Prop :=
  EncodedBy .nop ⟨0x00, 0, 0, 0, 0, 0⟩ ∧ IllegalFormsAbort 0x00 ∧
    (∀ s : State, ∃ t, exec .nop s = .next t ∧ OnlyRegs s t [] ∧ SigSame s t ∧ t.eq = s.eq ∧ t.z = s.z ∧ Completed s t) ∧
    ∀ s : State, s.busy = false → s.err = none → s.herr = false →
      ∃ t u, busWrite 0x008 0x00000000 s = .next t ∧ engineTurn t = .next u ∧ u.cmd = 0 ∧ u.done = true ∧
        u.busy = false ∧ OnlyRegs s u [] ∧ SigSame s u ∧ u.eq = s.eq ∧ u.z = s.z ∧ u.err = none ∧ u.herr = false ∧
        u.errInfo = s.errInfo

/-! ### Field commands -/

/-- R101: FRED copies the value (RAW) or reduces it modulo P or N; its only error besides decoding is `E_UNINIT`. -/
def Obligations.FredReducesIntoItsModulus : Prop :=
  ∀ (s : State) (rd rs1 : RegNo),
    (EncodedBy (.fredRaw rd rs1) ⟨0x01, rd, rs1, 0, 0, 0⟩ ∧ EncodedBy (.fredP rd rs1) ⟨0x01, rd, rs1, 0, 1, 0⟩ ∧
      EncodedBy (.fredN rd rs1) ⟨0x01, rd, rs1, 0, 2, 0⟩) ∧ IllegalFormsAbort 0x01 ∧
    (SomeUninit s [rs1] →
      AbortsWith (.fredRaw rd rs1) s .uninit ∧ AbortsWith (.fredP rd rs1) s .uninit ∧
        AbortsWith (.fredN rd rs1) s .uninit) ∧
    (¬SomeUninit s [rs1] →
      CommitsReg (.fredRaw rd rs1) s rd (arg s rs1).val.toNat .raw ∧
        CommitsReg (.fredP rd rs1) s rd ((arg s rs1).val.toNat % Config.P) .p ∧
        CommitsReg (.fredN rd rs1) s rd ((arg s rs1).val.toNat % Config.N) .n)

/-- R102: FLDI writes the zero-extended immediate, tag RAW, on every state. -/
def Obligations.FldiLoadsTheImmediate : Prop :=
  ∀ (s : State) (rd : RegNo) (imm : Byte),
    EncodedBy (.fldi rd imm) ⟨0x02, rd, 0, 0, 0, imm⟩ ∧ IllegalFormsAbort 0x02 ∧
      CommitsReg (.fldi rd imm) s rd imm.toNat .raw

/-- R103: LDC writes P, N, Gx or Gy, tag RAW, with Z 0, on every state. -/
def Obligations.LdcLoadsTheConstant : Prop :=
  ∀ (s : State) (rd : RegNo),
    (EncodedBy (.ldc rd .p) ⟨0x03, rd, 0, 0, 0, 0⟩ ∧ EncodedBy (.ldc rd .n) ⟨0x03, rd, 0, 0, 0, 1⟩ ∧
      EncodedBy (.ldc rd .gx) ⟨0x03, rd, 0, 0, 0, 2⟩ ∧ EncodedBy (.ldc rd .gy) ⟨0x03, rd, 0, 0, 0, 3⟩) ∧
    IllegalFormsAbort 0x03 ∧
    CommitsReg (.ldc rd .p) s rd Config.P .raw ∧ CommitsReg (.ldc rd .n) s rd Config.N .raw ∧
    CommitsReg (.ldc rd .gx) s rd Config.Gx .raw ∧ CommitsReg (.ldc rd .gy) s rd Config.Gy .raw ∧
    ∀ cid t, exec (.ldc rd cid) s = .next t → t.z = false

/-- R104: FADD. -/
def Obligations.FaddAddsModulo : Prop :=
  ∀ (s : State) (rd rs1 rs2 : RegNo),
    EncodedBy (.fadd rd rs1 rs2) ⟨0x08, rd, rs1, rs2, 0, 0⟩ ∧ IllegalFormsAbort 0x08 ∧
      TwoFieldCommand (.fadd rd rs1 rs2) s rd rs1 rs2 fun m a b => (a + b) % m

/-- R105: FSUB; the result lies in `[0, m)` also when `a < b`. -/
def Obligations.FsubSubtractsModulo : Prop :=
  ∀ (s : State) (rd rs1 rs2 : RegNo),
    EncodedBy (.fsub rd rs1 rs2) ⟨0x09, rd, rs1, rs2, 0, 0⟩ ∧ IllegalFormsAbort 0x09 ∧
      TwoFieldCommand (.fsub rd rs1 rs2) s rd rs1 rs2 fun m a b => residue ((a : Int) - b) m

/-- R106: FMUL gives the plain residue of the exact product. -/
def Obligations.FmulMultipliesModulo : Prop :=
  ∀ (s : State) (rd rs1 rs2 : RegNo),
    EncodedBy (.fmul rd rs1 rs2) ⟨0x0A, rd, rs1, rs2, 0, 0⟩ ∧ IllegalFormsAbort 0x0A ∧
      TwoFieldCommand (.fmul rd rs1 rs2) s rd rs1 rs2 fun m a b => a * b % m

/-- R107, R12: FDIV is `a * b^(m-2) mod m`, written with the plain power; dividing by 0 gives 0 and is no error. -/
def Obligations.FdivDividesByFermat : Prop :=
  ∀ (s : State) (rd rs1 rs2 : RegNo),
    EncodedBy (.fdiv rd rs1 rs2) ⟨0x0B, rd, rs1, rs2, 0, 0⟩ ∧ IllegalFormsAbort 0x0B ∧
      TwoFieldCommand (.fdiv rd rs1 rs2) s rd rs1 rs2 (fun m a b => a * (b ^ (m - 2) % m) % m) ∧
      ((arg s rs1).tag.modulus.isSome → (arg s rs2).tag = (arg s rs1).tag → (arg s rs2).val = 0 →
        CommitsReg (.fdiv rd rs1 rs2) s rd 0 (arg s rs1).tag)

/-- R108, R12: FINV is `b^(m-2) mod m`, written with the plain power; the inverse of 0 is 0 and no
error, and Z is 1 exactly when the operand is 0 (of an operand below its modulus, R21). -/
def Obligations.FinvInvertsByFermat : Prop :=
  ∀ (s : State) (rd rs1 : RegNo),
    EncodedBy (.finv rd rs1) ⟨0x0C, rd, rs1, 0, 0, 0⟩ ∧ IllegalFormsAbort 0x0C ∧
      OneFieldCommand (.finv rd rs1) s rd rs1 (fun m b => b ^ (m - 2) % m) ∧
      ((arg s rs1).tag.modulus.isSome → (arg s rs1).val = 0 → CommitsReg (.finv rd rs1) s rd 0 (arg s rs1).tag) ∧
      ∀ m, (arg s rs1).tag.modulus = some m → (arg s rs1).val.toNat < m →
        ∃ t, exec (.finv rd rs1) s = .next t ∧ (t.z = true ↔ (arg s rs1).val = 0)

/-- R109: FPOW. The exponent's tag is not checked; a negative exponent is reduced modulo `m - 1`, one that is not
negative is used as it is; a zero base with a negative exponent aborts. -/
def Obligations.FpowRaisesToThePower : Prop :=
  ∀ (s : State) (rd rs1 rs2 : RegNo) (neg : Bool),
    EncodedBy (.fpow rd rs1 rs2 neg) ⟨0x0D, rd, rs1, rs2, 0, if neg then 1 else 0⟩ ∧ IllegalFormsAbort 0x0D ∧
    (SomeUninit s [rs1, rs2] → AbortsWith (.fpow rd rs1 rs2 neg) s .uninit) ∧
    (¬SomeUninit s [rs1, rs2] → (arg s rs1).tag = .raw → AbortsWith (.fpow rd rs1 rs2 neg) s .fieldMismatch) ∧
    ∀ m, (arg s rs1).tag.modulus = some m → (arg s rs2).tag ≠ .none →
      (neg = true → (arg s rs2).val ≠ 0 → (arg s rs1).val = 0 → AbortsWith (.fpow rd rs1 rs2 neg) s .powZeroNeg) ∧
      (neg = true → (arg s rs2).val ≠ 0 → (arg s rs1).val ≠ 0 →
        CommitsReg (.fpow rd rs1 rs2 neg) s rd
          ((arg s rs1).val.toNat ^ residue (-((arg s rs2).val.toNat : Int)) (m - 1) % m) (arg s rs1).tag) ∧
      (neg = false ∨ (arg s rs2).val = 0 →
        CommitsReg (.fpow rd rs1 rs2 neg) s rd ((arg s rs1).val.toNat ^ (arg s rs2).val.toNat % m) (arg s rs1).tag)

/-- R110: FNEG. -/
def Obligations.FnegNegatesModulo : Prop :=
  ∀ (s : State) (rd rs1 : RegNo),
    EncodedBy (.fneg rd rs1) ⟨0x0E, rd, rs1, 0, 0, 0⟩ ∧ IllegalFormsAbort 0x0E ∧
      OneFieldCommand (.fneg rd rs1) s rd rs1 fun m a => residue (-(a : Int)) m

/-- R111: FMOD is the integer remainder of the values, tags ignored, result RAW; divisor 0 aborts. -/
def Obligations.FmodTakesTheRemainder : Prop :=
  ∀ (s : State) (rd rs1 rs2 : RegNo),
    EncodedBy (.fmod rd rs1 rs2) ⟨0x0F, rd, rs1, rs2, 0, 0⟩ ∧ IllegalFormsAbort 0x0F ∧
    (SomeUninit s [rs1, rs2] → AbortsWith (.fmod rd rs1 rs2) s .uninit) ∧
    (¬SomeUninit s [rs1, rs2] → (arg s rs2).val = 0 → AbortsWith (.fmod rd rs1 rs2) s .modZero) ∧
    (¬SomeUninit s [rs1, rs2] → (arg s rs2).val ≠ 0 →
      CommitsReg (.fmod rd rs1 rs2) s rd ((arg s rs1).val.toNat % (arg s rs2).val.toNat) .raw)

/-- R112: FEQ compares value and tag, writes EQ and no register, and leaves Z; it never raises `E_FIELD_MISMATCH`. -/
def Obligations.FeqComparesValueAndTag : Prop :=
  ∀ (s : State) (rs1 rs2 : RegNo),
    EncodedBy (.feq rs1 rs2) ⟨0x10, 0, rs1, rs2, 0, 0⟩ ∧ IllegalFormsAbort 0x10 ∧
    (SomeUninit s [rs1, rs2] → AbortsWith (.feq rs1 rs2) s .uninit) ∧
    (¬SomeUninit s [rs1, rs2] → ∃ t, exec (.feq rs1 rs2) s = .next t ∧
      t.eq = decide ((arg s rs1).val = (arg s rs2).val ∧ (arg s rs1).tag = (arg s rs2).tag) ∧ t.z = s.z ∧
      OnlyRegs s t [] ∧ SigSame s t ∧ Completed s t)

/-- R107, R114 and the primality of P and N (R33): a field element that is not 0 divided by itself is 1. -/
def Obligations.FdivOfEqualOperandsIsOne : Prop :=
  ∀ (s : State) (rd rs1 rs2 : RegNo) (m : Nat), (arg s rs1).tag.modulus = some m → arg s rs2 = arg s rs1 →
    0 < (arg s rs1).val.toNat → (arg s rs1).val.toNat < m → CommitsReg (.fdiv rd rs1 rs2) s rd 1 (arg s rs1).tag

/-- R114, R109: FPOW with a negative exponent gives the inverse of FPOW with the exponent itself. -/
def Obligations.FpowNegativeIsTheInverse : Prop :=
  ∀ (s : State) (rd rs1 rs2 : RegNo) (m : Nat), (arg s rs1).tag.modulus = some m → (arg s rs2).tag ≠ .none →
    0 < (arg s rs1).val.toNat → (arg s rs1).val.toNat < m →
    ∃ x, CommitsReg (.fpow rd rs1 rs2 true) s rd x (arg s rs1).tag ∧
      x * ((arg s rs1).val.toNat ^ (arg s rs2).val.toNat % m) % m = 1

/-! ### Point commands -/

/-- R140: LDG writes G with tag P and Z 0 on every state; an odd pair field is illegal. -/
def Obligations.LdgLoadsTheGenerator : Prop :=
  ∀ (s : State) (qd : RegNo),
    (evenPair qd = true → EncodedBy (.ldg qd) ⟨0x20, qd, 0, 0, 0, 0⟩ ∧ IllegalFormsAbort 0x20 ∧
      CommitsPair (.ldg qd) s qd Config.Gx Config.Gy .p false) ∧
    (evenPair qd = false → AbortsWith (.ldg qd) s .illegal)

/-- R141: PADD applies the chord or the doubling formula, written with plain powers, to any four P-tagged coordinates. -/
def Obligations.PaddAddsByTheFormula : Prop :=
  ∀ (s : State) (qd qa qb : RegNo),
    ((Instr.padd qd qa qb).WellFormed = false → AbortsWith (.padd qd qa qb) s .illegal) ∧
    ((Instr.padd qd qa qb).WellFormed = true →
      EncodedBy (.padd qd qa qb) ⟨0x21, qd, qa, qb, 0, 0⟩ ∧ IllegalFormsAbort 0x21 ∧
      (SomeUninit s [qa, pairY qa, qb, pairY qb] → AbortsWith (.padd qd qa qb) s .uninit) ∧
      (¬SomeUninit s [qa, pairY qa, qb, pairY qb] → (∃ i ∈ [qa, pairY qa, qb, pairY qb], (arg s i).tag ≠ .p) →
        AbortsWith (.padd qd qa qb) s .fieldMismatch) ∧
      ((∀ i ∈ [qa, pairY qa, qb, pairY qb], (arg s i).tag = .p) →
        ∀ r, r = paddSpec ((arg s qa).val.toNat, (arg s (pairY qa)).val.toNat)
            ((arg s qb).val.toNat, (arg s (pairY qb)).val.toNat) →
          CommitsPair (.padd qd qa qb) s qd r.1 r.2 .p (decide (r = (0, 0)))))

/-- R142, R143: PMUL runs the double-and-add algorithm on the value of the scalar, over plain powers, when the scalar is in
range; the scalar's tag is not checked. -/
def Obligations.PmulMultipliesByDoubleAndAdd : Prop :=
  ∀ (s : State) (qd rk qb : RegNo),
    ((Instr.pmul qd rk qb).WellFormed = false → AbortsWith (.pmul qd rk qb) s .illegal) ∧
    ((Instr.pmul qd rk qb).WellFormed = true →
      EncodedBy (.pmul qd rk qb) ⟨0x22, qd, rk, qb, 0, 0⟩ ∧ IllegalFormsAbort 0x22 ∧
      (SomeUninit s [rk, qb, pairY qb] → AbortsWith (.pmul qd rk qb) s .uninit) ∧
      (¬SomeUninit s [rk, qb, pairY qb] → ((arg s qb).tag ≠ .p ∨ (arg s (pairY qb)).tag ≠ .p) →
        AbortsWith (.pmul qd rk qb) s .fieldMismatch) ∧
      ((arg s rk).tag ≠ .none → (arg s qb).tag = .p → (arg s (pairY qb)).tag = .p →
        ((arg s rk).val.toNat = 0 ∨ Config.N ≤ (arg s rk).val.toNat → AbortsWith (.pmul qd rk qb) s .scalarRange) ∧
        (0 < (arg s rk).val.toNat → (arg s rk).val.toNat < Config.N →
          ∀ r, r = scalarmulSpec (arg s rk).val.toNat ((arg s qb).val.toNat, (arg s (pairY qb)).val.toNat) →
            CommitsPair (.pmul qd rk qb) s qd r.1 r.2 .p (decide (r = (0, 0))))))

/-- Two corner cases of R144: `k = 1` gives the base itself, and the sentinel as base gives the sentinel for every legal
`k`. And one case that R144 does not list, which follows from R143 with R142: `k = 2` gives what PADD of the base with
itself gives. -/
def Obligations.PmulCornerCases : Prop :=
  ∀ (s : State) (qd rk qb : RegNo), (Instr.pmul qd rk qb).WellFormed = true → (arg s rk).tag ≠ .none →
    (arg s qb).tag = .p → (arg s (pairY qb)).tag = .p →
    ∀ b, b = ((arg s qb).val.toNat, (arg s (pairY qb)).val.toNat) →
      ((arg s rk).val.toNat = 1 → CommitsPair (.pmul qd rk qb) s qd b.1 b.2 .p (decide (b = (0, 0)))) ∧
      ((arg s rk).val.toNat = 2 → ∀ r, r = paddSpec b b →
        CommitsPair (.pmul qd rk qb) s qd r.1 r.2 .p (decide (r = (0, 0)))) ∧
      (0 < (arg s rk).val.toNat → (arg s rk).val.toNat < Config.N → b = (0, 0) →
        CommitsPair (.pmul qd rk qb) s qd 0 0 .p true)

/-- R19, R33, R141: on points of the curve with different x, or the same point with `y != 0`, PADD gives a point of the
curve. -/
def Obligations.PaddStaysOnTheCurve : Prop :=
  ∀ (s : State) (qd qa qb : RegNo), (Instr.padd qd qa qb).WellFormed = true →
    (∀ i ∈ [qa, pairY qa, qb, pairY qb], (arg s i).tag = .p ∧ (arg s i).val.toNat < Config.P) →
    ∀ p q, p = ((arg s qa).val.toNat, (arg s (pairY qa)).val.toNat) →
      q = ((arg s qb).val.toNat, (arg s (pairY qb)).val.toNat) → OnCurve p → OnCurve q →
      (p.1 ≠ q.1 ∨ (p = q ∧ p.2 ≠ 0)) →
      ∃ t, exec (.padd qd qa qb) s = .next t ∧
        OnCurve ((t.reg qd).val.toNat, (t.reg (pairY qd)).val.toNat) ∧ (t.reg qd).val.toNat < Config.P ∧
        (t.reg (pairY qd)).val.toNat < Config.P

/-! ### Signature commands -/

/-- R160, R161, R162: DERENC puts the DER string in SIGBUF, zero-fills the rest, writes SIGLEN and nothing else. -/
def Obligations.DerencSerializes : Prop :=
  ∀ (s : State) (rs1 rs2 : RegNo),
    EncodedBy (.derenc rs1 rs2) ⟨0x30, 0, rs1, rs2, 0, 0⟩ ∧ IllegalFormsAbort 0x30 ∧
    (SomeUninit s [rs1, rs2] → AbortsWith (.derenc rs1 rs2) s .uninit) ∧
    (¬SomeUninit s [rs1, rs2] → s.sigBuf.wf = true →
      ∀ D, D = derSeqSpec (arg s rs1).val.toNat (arg s rs2).val.toNat →
        ∃ t, exec (.derenc rs1 rs2) s = .next t ∧ t.sigLen.toNat = D.length ∧ 70 ≤ D.length ∧ D.length ≤ 72 ∧
          (∀ j, j < D.length → t.sigBuf.sig j = D.getD j 0) ∧
          (∀ j, D.length ≤ j → j < 72 → t.sigBuf.sig j = 0) ∧
          (∀ a, a < sigBase ∨ sigBase + sigSize ≤ a → t.sigBuf.read a = s.sigBuf.read a) ∧
          OnlyRegs s t [] ∧ t.eq = s.eq ∧ t.z = s.z ∧ Completed s t)

/-- R164, R166: DERDEC writes the pair its checks admit, tag RAW, Z by `r = 0 or s = 0`; any other string aborts with
`E_DER_FORMAT`. -/
def Obligations.DerdecParses : Prop :=
  ∀ (s : State) (qd : RegNo),
    (evenPair qd = false → AbortsWith (.derdec qd) s .illegal) ∧
    (evenPair qd = true →
      EncodedBy (.derdec qd) ⟨0x31, qd, 0, 0, 0, 0⟩ ∧ IllegalFormsAbort 0x31 ∧
      (∀ r v, DerAccepts s.operands.sigBuf s.operands.sigLen.toNat r v →
        CommitsPair (.derdec qd) s qd r v .raw (decide (r = 0 ∨ v = 0))) ∧
      ((∀ r v, ¬DerAccepts s.operands.sigBuf s.operands.sigLen.toNat r v) → AbortsWith (.derdec qd) s .derFormat))

/-- R167: the DER round trip. From any state with readable operands, DERENC commits, and a DERDEC accepted on what it
leaves gives the two values back, tag RAW, padded or not. -/
def Obligations.DerRoundTrip : Prop :=
  ∀ (s : State) (rs1 rs2 qd : RegNo) (w : Word), ¬SomeUninit s [rs1, rs2] → s.sigBuf.wf = true →
    decode w = .ok (.derdec qd) →
    ∃ t u, exec (.derenc rs1 rs2) s = .next t ∧ engineTurn (t.launch w) = .next u ∧
      u.reg qd = ⟨(arg s rs1).val, .raw⟩ ∧ u.reg (pairY qd) = ⟨(arg s rs2).val, .raw⟩ ∧
      OnlyRegs s u [qd, pairY qd] ∧ SigSame t u ∧ u.err = s.err

/-! ### Nonce and entropy -/

/-- R180, turn by turn (log 9): an answer in range commits `k` with tag N and Z 0; any other answer, and a turn with
nothing requested, leads to a new request and writes nothing; with a request outstanding the engine waits. -/
def Obligations.NonceTurn : Prop :=
  ∀ (s : State) (rd : RegNo),
    EncodedBy (.nonce rd) ⟨0x40, rd, 0, 0, 0, 0⟩ ∧ IllegalFormsAbort 0x40 ∧
    (∀ a : BitVec 256, s.port.ack = some (.bytes a) → 0 < a.toNat → a.toNat < Config.N →
      CommitsReg (.nonce rd) s rd a.toNat .n) ∧
    ((s.port.ack = some .insufficient ∨
        (∃ a : BitVec 256, s.port.ack = some (.bytes a) ∧ (a.toNat = 0 ∨ Config.N ≤ a.toNat)) ∨ s.port = .quiet) →
      ∃ t, exec (.nonce rd) s = .next t ∧ t.port = ⟨some s.requests, none⟩ ∧ t.requests = s.requests + 1 ∧
        t.engine = s.engine.countDraw ∧
        BlockSame { s with port := t.port, requests := t.requests, engine := t.engine } t) ∧
    (s.port.ack = none → s.port.req ≠ none → exec (.nonce rd) s = .next s)

/-- R180, R183: a NONCE whose source answers each request, with answers that R180 rejects and then one it accepts, ends
with that answer's `k` in F[rd], tag N, after one request for each answer. The events are those of log 8. -/
def Obligations.NonceDrawsUntilAccepted : Prop :=
  ∀ (s : State) (rd : RegNo) (w : Word) (bad : List Answer) (k : BitVec 256) (rest : List Event),
    decode w = .ok (.nonce rd) → (∀ a ∈ bad, acceptedNonce a = none) → 0 < k.toNat → k.toNat < Config.N →
    ∃ t, core.run (2 * bad.length + 3)
        { s.launch w with
          inputs := .engine ::
            ((bad ++ [Answer.bytes k]).zipIdx s.requests).flatMap (fun p => [Event.answer p.2 p.1, .engine]) ++ rest } = .next t ∧
      t.reg rd = ⟨k, .n⟩ ∧ OnlyRegs s t [rd] ∧ SigSame s t ∧ t.z = false ∧ t.eq = s.eq ∧ t.err = s.err ∧ t.busy = false ∧
      t.done = true ∧ t.requests = s.requests + bad.length + 1 ∧ t.inputs = rest

/-- R184: "At commit, `0 < FV[rd] < N` and `FT[rd] = N`, whatever the source answered." -/
def Obligations.NonceCommitsInRange : Prop :=
  ∀ (s t : State) (rd : RegNo), s.busy = true → exec (.nonce rd) s = .next t → t.busy = false →
    0 < (t.reg rd).val.toNat ∧ (t.reg rd).val.toNat < Config.N ∧ (t.reg rd).tag = .n ∧ t.z = false

/-- R185, R210: an answer that no outstanding request asked for is ignored; a reset drops the request, and an answer to a
request made before it can meet no later one. The numbers that tell the requests apart are the model's (log 8): the
reset input keeps the count of requests (log 11), and no step of the machine lowers it. -/
def Obligations.UnaskedAnswersAreIgnored : Prop :=
  (∀ (s : State) (n : Nat) (a : Answer), s.port.req ≠ some n → handle (.answer n a) s = .next s) ∧
    (∀ (s : State) (n : Nat) (a : Answer), RequestNumbered s → s.port.req = some n →
      handle (.answer n a) s.resetAll = .next s.resetAll ∧ s.resetAll.port.req = none ∧
        s.requests ≤ s.resetAll.requests ∧
        ∀ t : State, s.requests ≤ t.requests → handle (.answer n a) t.requestEntropy = .next t.requestEntropy) ∧
    ∀ s t : State, step s = .next t → s.requests ≤ t.requests

/-! ### Acceptance, errors and clearing -/

/-- R202, R31: a write to CMD is accepted exactly when BUSY, ERR and HERR are all clear. -/
def Obligations.CommandAcceptance : Prop :=
  ∀ (s : State) (w : Word),
    ((s.busy = true ∨ s.err ≠ none ∨ s.herr = true) → ∃ t, busWrite 0x008 w s = .next t ∧ OnlyHerrSet s t) ∧
    (s.busy = false → s.err = none → s.herr = false →
      ∃ t, busWrite 0x008 w s = .next t ∧ t.cmd = w ∧ t.done = false ∧ t.busy = true ∧
        t.engine = .running w ⟨s.regs, s.sigBuf, s.sigLen⟩ 0 ∧ OnlyRegs s t [] ∧ SigSame s t ∧ t.eq = s.eq ∧
        t.z = s.z ∧ t.err = none ∧ t.herr = false ∧ t.errInfo = s.errInfo ∧ t.inputs = s.inputs ∧
        t.requests = s.requests ∧ t.busyReads = s.busyReads) ∧
    ReadsAs 0x008 s s.cmd

/-- R206: the host protocol errors set HERR and change nothing else, the running command included. -/
def Obligations.ProtocolErrorsSetOnlyHerr : Prop :=
  ∀ (s : State) (v : Word),
    ((s.busy = true ∨ s.err ≠ none ∨ s.herr = true) → ∃ t, busWrite 0x008 v s = .next t ∧ OnlyHerrSet s t) ∧
    (s.busy = true → (∀ i w, ∃ t, busWrite (valueAddr i w) v s = .next t ∧ OnlyHerrSet s t) ∧
      (∀ w, ∃ t, busWrite (sigAddr w) v s = .next t ∧ OnlyHerrSet s t) ∧
      ∃ t, busWrite 0x014 v s = .next t ∧ OnlyHerrSet s t) ∧
    (72 < v.toNat → ∃ t, busWrite 0x014 v s = .next t ∧ OnlyHerrSet s t)

/-- R207, R32: the CTRL register. A write of 1 clears ERR and HERR and nothing else, at any time; a write of 0 does
nothing; a write with a reserved bit is a bus error; a read gives 0. -/
def Obligations.CtrlClearsErrors : Prop :=
  ∀ (s : State),
    (∃ t, busWrite 0x00C 1 s = .next t ∧ t.err = none ∧ t.herr = false ∧
      BlockSame { s with err := none, herr := false } t) ∧
    (∃ t, busWrite 0x00C 0 s = .next t ∧ BlockSame s t) ∧
    (∀ v : Word, 2 ≤ v.toNat → WriteFaults 0x00C v s) ∧ ReadsAs 0x00C s 0

/-- R26, R207: ERR is sticky. Once set it keeps its code, and HERR once set stays set, until CLR_ERR or reset. -/
def Obligations.ErrorBitsAreSticky : Prop :=
  ∀ (s t : State), step s = .next t → s.nextEvent ≠ .reset → s.nextEvent ≠ .write 0x00C 1 →
    (s.herr = true → t.herr = true) ∧ (EngineConsistent s → s.err ≠ none → t.err = s.err)

/-- R34: ERRINFO reads as the word of the last aborted command; only an abort and reset write it; CLR_ERR does not clear
it; a write to it is a bus error. -/
def Obligations.ErrInfoIsWrittenByAbortsOnly : Prop :=
  (∀ s : State, ReadsAs 0x010 s s.errInfo ∧ ∀ v, WriteFaults 0x010 v s) ∧ State.reset.errInfo = 0 ∧
    ∀ (s t : State), step s = .next t → s.nextEvent ≠ .reset →
      t.errInfo = s.errInfo ∨ (s.nextEvent = .engine ∧ ∃ c, Aborted s.popInput t c ∧ t.errInfo = s.commandWord)

/-! ### The host bus -/

/-- R30: ID reads 0x0D040007 at all times, and a write to it is a bus error. -/
def Obligations.IdReadsItsConstant : Prop :=
  ∀ (s : State), ReadsAs 0x000 s 0x0D040007 ∧ ∀ v, WriteFaults 0x000 v s

/-- R26: STATUS reads its fields at their bits, reserved bits 0, at any time; a write to it is a bus error. -/
def Obligations.StatusReadsItsFields : Prop :=
  ∀ (s : State), (∀ v, WriteFaults 0x004 v s) ∧
    ∃ d : Word, ReadsAs 0x004 s d ∧ d.getLsbD 0 = s.busy ∧ d.getLsbD 1 = s.done ∧ d.getLsbD 2 = s.eq ∧
      d.getLsbD 3 = s.z ∧ d.getLsbD 8 = s.herr ∧ d.toNat < 512 ∧
      d.toNat / 16 % 16 =
        (match s.err with
          | none => 0
          | some .illegal => 1
          | some .uninit => 2
          | some .fieldMismatch => 3
          | some .powZeroNeg => 4
          | some .modZero => 5
          | some .scalarRange => 6
          | some .derFormat => 7)

/-- R54: a value window word. Idle, word `w` reads bits `255-32w : 224-32w` whatever the tag; busy, it reads a free value. -/
def Obligations.ValueWindowRead : Prop :=
  ∀ (s : State) (i : RegNo) (w : Fin 8),
    (s.busy = false → ReadsAs (valueAddr i w) s
      (BitVec.ofNat 32 ((s.reg i).val.toNat / 2 ^ (224 - 32 * w.val) % 2 ^ 32))) ∧
    (s.busy = true → ReadsFree (valueAddr i w) s)

/-- R55, R25: idle, a write to a value window word replaces those 32 bits, keeps the other seven words and makes the tag
RAW; busy, it changes nothing but HERR. -/
def Obligations.ValueWindowWrite : Prop :=
  ∀ (s : State) (i : RegNo) (w : Fin 8) (v : Word),
    (s.busy = false → ∃ t, busWrite (valueAddr i w) v s = .next t ∧ (t.reg i).tag = .raw ∧
      (∀ u : Fin 8, (t.reg i).val.extractLsb' (224 - 32 * u.val) 32 =
        if u = w then v else (s.reg i).val.extractLsb' (224 - 32 * u.val) 32) ∧
      OnlyRegs s t [i] ∧ BlockSame { s with regs := t.regs } t) ∧
    (s.busy = true → ∃ t, busWrite (valueAddr i w) v s = .next t ∧ OnlyHerrSet s t)

/-- R57: the TAG window reads the tag's two bits and is read-only; busy, it reads a free value. -/
def Obligations.TagWindow : Prop :=
  ∀ (s : State) (i : RegNo),
    (s.busy = false → ReadsAs (tagAddr i) s
      (match (s.reg i).tag with
        | .raw => 0
        | .p => 1
        | .n => 2
        | .none => 3)) ∧
    (s.busy = true → ReadsFree (tagAddr i) s) ∧ ∀ v, WriteFaults (tagAddr i) v s

/-- R59, R56, R36: the SIGBUF window. Idle, a word reads as its four bytes, the first in bits 31:24, and a write replaces
those four bytes and no other; busy, a read is free and a write changes nothing but HERR. -/
def Obligations.SigBufWindow : Prop :=
  ∀ (s : State) (w : Fin 18) (v : Word),
    (s.busy = false → ReadsAs (sigAddr w) s
      (s.sigBuf.sig (4 * w.val) ++ s.sigBuf.sig (4 * w.val + 1) ++ s.sigBuf.sig (4 * w.val + 2) ++
        s.sigBuf.sig (4 * w.val + 3))) ∧
    (s.busy = true → ReadsFree (sigAddr w) s) ∧
    (s.busy = false → s.sigBuf.wf = true → ∃ t, busWrite (sigAddr w) v s = .next t ∧
      t.sigBuf.sig (4 * w.val) ++ t.sigBuf.sig (4 * w.val + 1) ++ t.sigBuf.sig (4 * w.val + 2) ++
        t.sigBuf.sig (4 * w.val + 3) = v ∧
      (∀ a, a < sigBase + 4 * w.val ∨ sigBase + 4 * w.val + 4 ≤ a → t.sigBuf.read a = s.sigBuf.read a) ∧
      t.sigLen = s.sigLen ∧ BlockSame { s with sigBuf := t.sigBuf } t) ∧
    (s.busy = true → ∃ t, busWrite (sigAddr w) v s = .next t ∧ OnlyHerrSet s t)

/-- R35, R59: SIGLEN. Idle, it reads its seven bits and takes a value from 0 to 72; a value above 72 sets HERR and
changes nothing else; busy, a read is free and a write changes nothing but HERR. -/
def Obligations.SigLenRegister : Prop :=
  ∀ (s : State) (v : Word),
    (s.busy = false → ReadsAs 0x014 s (BitVec.ofNat 32 s.sigLen.toNat)) ∧ (s.busy = true → ReadsFree 0x014 s) ∧
    (s.busy = false → v.toNat ≤ 72 → ∃ t, busWrite 0x014 v s = .next t ∧ t.sigLen.toNat = v.toNat ∧
      BlockSame { s with sigLen := t.sigLen } t) ∧
    (72 < v.toNat ∨ s.busy = true → ∃ t, busWrite 0x014 v s = .next t ∧ OnlyHerrSet s t) ∧ State.reset.sigLen = 0

/-- R51, R53, R58: a transaction ends with `BUS_ERROR` when its address is misaligned or not listed, and a write also when
it goes to ID, STATUS, ERRINFO, a TAG or reserved bits of CTRL; every other transaction ends with OK. -/
def Obligations.BusErrorsExactlyWhereStated : Prop :=
  ∀ (s : State) (a : Addr) (v : Word),
    (¬Listed a → ReadFaults a s ∧ WriteFaults a v s) ∧
    (Listed a → ∃ t d, busRead a s = .next t ∧ t.reply = some (.readOk d)) ∧ ReadsAs 0x00C s 0 ∧
    (Listed a → (a ∈ [0x000, 0x004, 0x010] ∨ (0x300 ≤ a.toNat ∧ a.toNat < 0x340) ∨ (a = 0x00C ∧ 2 ≤ v.toNat) →
      WriteFaults a v s) ∧
      (¬(a ∈ [0x000, 0x004, 0x010] ∨ (0x300 ≤ a.toNat ∧ a.toNat < 0x340) ∨ (a = 0x00C ∧ 2 ≤ v.toNat)) →
        ∃ t, busWrite a v s = .next t ∧ t.reply = some .writeOk))

/-- R60: no read changes anything of the block, and two reads of the same idle address return the same value. -/
def Obligations.ReadsHaveNoSideEffect : Prop :=
  (∀ (a : Addr) (s t : State), busRead a s = .next t → BlockSame s t) ∧
    ∀ (a : Addr) (s t u : State), s.busy = false → busRead a s = .next t → busRead a t = .next u → u.reply = t.reply

/-! ### Rules of the whole machine -/

/-- R27: EQ changes only by a committed FEQ and by reset. -/
def Obligations.EqChangesOnlyByFeq : Prop :=
  ∀ (s t : State), step s = .next t → t.eq ≠ s.eq →
    s.nextEvent = .reset ∨ (s.nextEvent = .engine ∧ t.err = s.err ∧
      ∃ w ins d rs1 rs2, s.engine = .running w ins d ∧ decode w = .ok (.feq rs1 rs2))

/-- R28: Z changes only by a committed command of the table of R28 and by reset. -/
def Obligations.ZChangesOnlyByItsCommands : Prop :=
  ∀ (s t : State), step s = .next t → t.z ≠ s.z →
    s.nextEvent = .reset ∨ (s.nextEvent = .engine ∧ t.err = s.err ∧
      ∃ w ins d i, s.engine = .running w ins d ∧ decode w = .ok i ∧ writesZ i = true)

/-- R24, R25, R55: whatever the command, a register that is not one of its destinations keeps its value and tag, and a
command other than DERENC leaves SIGLEN and every byte of memory; and in a step of the machine a register changes only
by reset, by a host write to a word of its own value window, which leaves it RAW, or by a command at its commit. -/
def Obligations.RegistersChangeOnlyByTheirWriters : Prop :=
  (∀ (i : Instr) (s t : State), exec i s = .next t →
    OnlyRegs s t (destinations i) ∧ ((∀ rs1 rs2, i ≠ .derenc rs1 rs2) → SigSame s t)) ∧
  ∀ (s t : State) (r : RegNo), step s = .next t → t.reg r ≠ s.reg r →
    s.nextEvent = .reset ∨
      ((∃ w v, s.nextEvent = .write (valueAddr r w) v) ∧ s.busy = false ∧ (t.reg r).tag = .raw) ∨
      (s.nextEvent = .engine ∧ t.busy = false ∧ t.done = true ∧ t.err = s.err ∧
        ∃ w ins d i, s.engine = .running w ins d ∧ decode w = .ok i ∧ r ∈ destinations i)

/-- R55, R59, R68: while a command runs, nothing the host or the entropy source does changes a register, SIGBUF, SIGLEN, EQ,
Z or the command, so its operands stay as captured. -/
def Obligations.BusyOperandsAreFrozen : Prop :=
  ∀ (s t : State), step s = .next t → s.busy = true → s.nextEvent ≠ .engine → s.nextEvent ≠ .reset →
    OnlyRegs s t [] ∧ SigSame s t ∧ t.eq = s.eq ∧ t.z = s.z ∧ t.cmd = s.cmd ∧ t.engine = s.engine ∧ t.busy = true

/-! ### Invariants -/

/-- R21: every step keeps every P-tagged value below P and every N-tagged value below N. -/
def Obligations.StepKeepsFieldValuesReduced : Prop :=
  ∀ s t : State, FieldValuesReduced s → step s = .next t → FieldValuesReduced t

/-- R35, R36: every step keeps SIGBUF in its 72 bytes and in canonical form, and SIGLEN at most 72. -/
def Obligations.StepKeepsSigStoreLegal : Prop :=
  ∀ s t : State, SigStoreLegal s → step s = .next t → SigStoreLegal t

/-- R26, R39, R68, R202, R203: every step keeps the status bits in agreement with the engine, and the captured inputs equal
to the live ones while a command runs. -/
def Obligations.StepKeepsEngineConsistent : Prop :=
  ∀ s t : State, EngineConsistent s → step s = .next t → EngineConsistent t

/-- R210, R231 and log 8: every step keeps the entropy port quiet unless a NONCE runs, and request numbers fresh. -/
def Obligations.StepKeepsPortConsistent : Prop :=
  ∀ s t : State, PortConsistent s → RequestNumbered s → step s = .next t → PortConsistent t ∧ RequestNumbered t

/-- The invariants hold of the state after reset. -/
def Obligations.ResetMeetsTheInvariants : Prop :=
  FieldValuesReduced State.reset ∧ SigStoreLegal State.reset ∧ EngineConsistent State.reset ∧
    PortConsistent State.reset ∧ RequestNumbered State.reset
end

