-- ==== Sys2Proof/Laws/Arith.lean ====
section
/-! SUPPORT. The arithmetic the machine evaluates, in plain powers and residues, and its bounds. -/

namespace Sys2Proof.Machine

theorem powModLoop_eq (m : Nat) : ∀ k b e acc, e < 2 ^ k →
    powModLoop m k b e acc % m = acc * b ^ e % m := by
  intro k
  induction k with
  | zero =>
    intro b e acc he
    have : e = 0 := by simpa using he
    simp [powModLoop, this]
  | succ k ih =>
    intro b e acc he
    have he2 : e / 2 < 2 ^ k := by omega
    rw [powModLoop, ih _ _ _ he2]
    have hsq : (b * b % m) ^ (e / 2) ≡ b ^ (2 * (e / 2)) [MOD m] := by
      rw [pow_mul, pow_two]
      exact (Nat.mod_modEq _ _).pow _
    rcases Nat.mod_two_eq_zero_or_one e with h0 | h1
    · rw [if_neg (by omega)]
      have hexp : 2 * (e / 2) = e := by omega
      rw [hexp] at hsq
      exact hsq.mul_left acc
    · rw [if_pos h1]
      have hexp : e = 2 * (e / 2) + 1 := by omega
      have : acc * b % m * (b * b % m) ^ (e / 2) ≡ acc * b * b ^ (2 * (e / 2)) [MOD m] :=
        (Nat.mod_modEq _ _).mul hsq
      refine this.trans ?_
      conv_rhs => rw [hexp, pow_succ]
      rw [show acc * b * b ^ (2 * (e / 2)) = acc * (b ^ (2 * (e / 2)) * b) by ring]

theorem powModLoop_lt (m : Nat) : ∀ k b e acc, acc < m → powModLoop m k b e acc < m := by
  intro k
  induction k with
  | zero => intro b e acc h; exact h
  | succ k ih =>
    intro b e acc h
    refine ih _ _ _ ?_
    split
    · exact Nat.mod_lt _ (by omega)
    · exact h

/-- The machine's `powMod` is `b ^ e mod m`, for every base, exponent and modulus. -/
theorem powMod_eq (b e m : Nat) : powMod b e m = b ^ e % m := by
  have key : powMod b e m % m = b ^ e % m := by
    unfold powMod
    rw [powModLoop_eq m _ _ _ _ Nat.lt_log2_self]
    have : 1 % m * (b % m) ^ e ≡ 1 * b ^ e [MOD m] := (Nat.mod_modEq _ _).mul ((Nat.mod_modEq _ _).pow _)
    exact this.trans (by rw [one_mul])
  rcases Nat.lt_trichotomy m 0 with h | h | h
  · omega
  · subst h
    simpa using key
  · rcases Nat.lt_or_ge 1 m with h1 | h1
    · rw [← key]
      refine (Nat.mod_eq_of_lt ?_).symm
      exact powModLoop_lt _ _ _ _ _ (Nat.mod_lt _ h)
    · have : m = 1 := by omega
      subst this
      have hlt : powMod b e 1 < 1 := powModLoop_lt _ _ _ _ _ (by decide)
      omega

theorem invMod_eq (b m : Nat) : invMod b m = b ^ (m - 2) % m := powMod_eq b (m - 2) m

theorem divMod_eq (a b m : Nat) : divMod a b m = a * (b ^ (m - 2) % m) % m := by
  rw [divMod, invMod_eq]

/-! ### Bounds (R113): a result lies below its modulus -/

theorem powMod_lt (b e : Nat) {m : Nat} (h : 0 < m) : powMod b e m < m := by
  rw [powMod_eq]
  exact Nat.mod_lt _ h

theorem addMod_lt (a b : Nat) {m : Nat} (h : 0 < m) : addMod a b m < m := Nat.mod_lt _ h

theorem mulMod_lt (a b : Nat) {m : Nat} (h : 0 < m) : mulMod a b m < m := Nat.mod_lt _ h

theorem divMod_lt (a b : Nat) {m : Nat} (h : 0 < m) : divMod a b m < m := Nat.mod_lt _ h

theorem invMod_lt (b : Nat) {m : Nat} (h : 0 < m) : invMod b m < m := powMod_lt _ _ h

/-- The least non-negative residue of an integer lies below the modulus. -/
theorem toNat_emod_lt (a : Int) {m : Nat} (h : 0 < m) : (a % (m : Int)).toNat < m := by
  have h0 : 0 ≤ a % (m : Int) := Int.emod_nonneg _ (by omega)
  have h1 : a % (m : Int) < m := Int.emod_lt_of_pos _ (by omega)
  omega

theorem subMod_lt (a b : Nat) {m : Nat} (h : 0 < m) : subMod a b m < m := toNat_emod_lt _ h

theorem negMod_lt (a : Nat) {m : Nat} (h : 0 < m) : negMod a m < m := toNat_emod_lt _ h

theorem P_pos : 0 < Config.P := by decide

theorem N_pos : 0 < Config.N := by decide

theorem P_lt : Config.P < 2 ^ 256 := by decide

theorem N_lt : Config.N < 2 ^ 256 := by decide

theorem N_lt_P : Config.N < Config.P := by decide

theorem P_lt_two_N : Config.P < 2 * Config.N := by decide

theorem chordPoint_lt (lam : Nat) (p q : Nat × Nat) :
    (chordPoint lam p q).1 < Config.P ∧ (chordPoint lam p q).2 < Config.P :=
  ⟨toNat_emod_lt _ P_pos, toNat_emod_lt _ P_pos⟩

theorem padd_lt (p q : Nat × Nat) : (padd p q).1 < Config.P ∧ (padd p q).2 < Config.P := chordPoint_lt _ _ _

/-- A property of pairs that `padd` always has, and that the accumulator and the base have, holds of the result of the
loop. -/
theorem scalarLoop_induction {C : Nat × Nat → Prop} (hp : ∀ p q, C (padd p q)) (k : Nat) :
    ∀ left i acc b, C acc → C b → C (scalarLoop k left i acc b) := by
  intro left
  induction left with
  | zero => intro i acc b ha _; exact ha
  | succ left ih =>
    intro i acc b ha hb
    refine ih _ _ _ ?_ (hp b b)
    split
    · split
      · exact hb
      · exact hp acc b
    · exact ha

/-- A property of pairs that the sentinel, the base and every `padd` have holds of `scalarmul`. -/
theorem scalarmul_induction {C : Nat × Nat → Prop} (hp : ∀ p q, C (padd p q)) (h0 : C (0, 0)) (k : Nat) {b : Nat × Nat}
    (hb : C b) : C (scalarmul k b) := scalarLoop_induction hp k _ _ _ _ h0 hb

end Sys2Proof.Machine
end

