-- ==== Sys2Proof/Laws/State.lean ====
section
/-! SUPPORT. One lemma per field per update of the state: what each named operation writes and what it leaves. -/

namespace Sys2Proof.Machine

/-! ### `commit` -/

@[simp] theorem State.commit_regs (s : State) (e : Effect) : (s.commit e).regs = writeRegs s.regs e.regs := rfl
@[simp] theorem State.commit_busy (s : State) (e : Effect) : (s.commit e).busy = false := rfl
@[simp] theorem State.commit_done (s : State) (e : Effect) : (s.commit e).done = true := rfl
@[simp] theorem State.commit_eq (s : State) (e : Effect) : (s.commit e).eq = e.eq.getD s.eq := rfl
@[simp] theorem State.commit_z (s : State) (e : Effect) : (s.commit e).z = e.z.getD s.z := rfl
@[simp] theorem State.commit_err (s : State) (e : Effect) : (s.commit e).err = s.err := rfl
@[simp] theorem State.commit_herr (s : State) (e : Effect) : (s.commit e).herr = s.herr := rfl
@[simp] theorem State.commit_cmd (s : State) (e : Effect) : (s.commit e).cmd = s.cmd := rfl
@[simp] theorem State.commit_errInfo (s : State) (e : Effect) : (s.commit e).errInfo = s.errInfo := rfl
@[simp] theorem State.commit_sigLen (s : State) (e : Effect) : (s.commit e).sigLen = e.sigLen s.sigLen := rfl
@[simp] theorem State.commit_sigBuf (s : State) (e : Effect) : (s.commit e).sigBuf = e.sigBuf s.sigBuf := rfl
@[simp] theorem State.commit_engine (s : State) (e : Effect) : (s.commit e).engine = .idle := rfl
@[simp] theorem State.commit_port (s : State) (e : Effect) : (s.commit e).port = .quiet := rfl
@[simp] theorem State.commit_requests (s : State) (e : Effect) : (s.commit e).requests = s.requests := rfl
@[simp] theorem State.commit_busyReads (s : State) (e : Effect) : (s.commit e).busyReads = s.busyReads := rfl
@[simp] theorem State.commit_inputs (s : State) (e : Effect) : (s.commit e).inputs = s.inputs := rfl
@[simp] theorem State.commit_reply (s : State) (e : Effect) : (s.commit e).reply = s.reply := rfl

/-! ### `abort` -/

@[simp] theorem State.abort_regs (s : State) (c : ErrCode) : (s.abort c).regs = s.regs := rfl
@[simp] theorem State.abort_busy (s : State) (c : ErrCode) : (s.abort c).busy = false := rfl
@[simp] theorem State.abort_done (s : State) (c : ErrCode) : (s.abort c).done = true := rfl
@[simp] theorem State.abort_eq (s : State) (c : ErrCode) : (s.abort c).eq = s.eq := rfl
@[simp] theorem State.abort_z (s : State) (c : ErrCode) : (s.abort c).z = s.z := rfl
@[simp] theorem State.abort_err (s : State) (c : ErrCode) : (s.abort c).err = some c := rfl
@[simp] theorem State.abort_herr (s : State) (c : ErrCode) : (s.abort c).herr = s.herr := rfl
@[simp] theorem State.abort_cmd (s : State) (c : ErrCode) : (s.abort c).cmd = s.cmd := rfl
@[simp] theorem State.abort_errInfo (s : State) (c : ErrCode) : (s.abort c).errInfo = s.commandWord := rfl
@[simp] theorem State.abort_sigLen (s : State) (c : ErrCode) : (s.abort c).sigLen = s.sigLen := rfl
@[simp] theorem State.abort_sigBuf (s : State) (c : ErrCode) : (s.abort c).sigBuf = s.sigBuf := rfl
@[simp] theorem State.abort_engine (s : State) (c : ErrCode) : (s.abort c).engine = .idle := rfl
@[simp] theorem State.abort_port (s : State) (c : ErrCode) : (s.abort c).port = .quiet := rfl
@[simp] theorem State.abort_requests (s : State) (c : ErrCode) : (s.abort c).requests = s.requests := rfl
@[simp] theorem State.abort_busyReads (s : State) (c : ErrCode) : (s.abort c).busyReads = s.busyReads := rfl
@[simp] theorem State.abort_inputs (s : State) (c : ErrCode) : (s.abort c).inputs = s.inputs := rfl
@[simp] theorem State.abort_reply (s : State) (c : ErrCode) : (s.abort c).reply = s.reply := rfl

/-! ### `launch` -/

@[simp] theorem State.launch_regs (s : State) (w : Word) : (s.launch w).regs = s.regs := rfl
@[simp] theorem State.launch_busy (s : State) (w : Word) : (s.launch w).busy = true := rfl
@[simp] theorem State.launch_done (s : State) (w : Word) : (s.launch w).done = false := rfl
@[simp] theorem State.launch_eq (s : State) (w : Word) : (s.launch w).eq = s.eq := rfl
@[simp] theorem State.launch_z (s : State) (w : Word) : (s.launch w).z = s.z := rfl
@[simp] theorem State.launch_err (s : State) (w : Word) : (s.launch w).err = s.err := rfl
@[simp] theorem State.launch_herr (s : State) (w : Word) : (s.launch w).herr = s.herr := rfl
@[simp] theorem State.launch_cmd (s : State) (w : Word) : (s.launch w).cmd = w := rfl
@[simp] theorem State.launch_errInfo (s : State) (w : Word) : (s.launch w).errInfo = s.errInfo := rfl
@[simp] theorem State.launch_sigLen (s : State) (w : Word) : (s.launch w).sigLen = s.sigLen := rfl
@[simp] theorem State.launch_sigBuf (s : State) (w : Word) : (s.launch w).sigBuf = s.sigBuf := rfl
@[simp] theorem State.launch_engine (s : State) (w : Word) : (s.launch w).engine = .running w s.capture 0 := rfl
@[simp] theorem State.launch_port (s : State) (w : Word) : (s.launch w).port = .quiet := rfl
@[simp] theorem State.launch_requests (s : State) (w : Word) : (s.launch w).requests = s.requests := rfl
@[simp] theorem State.launch_busyReads (s : State) (w : Word) : (s.launch w).busyReads = s.busyReads := rfl
@[simp] theorem State.launch_inputs (s : State) (w : Word) : (s.launch w).inputs = s.inputs := rfl
@[simp] theorem State.launch_reply (s : State) (w : Word) : (s.launch w).reply = s.reply := rfl

/-! ### `protocolError` -/

@[simp] theorem State.protocolError_regs (s : State) : s.protocolError.regs = s.regs := rfl
@[simp] theorem State.protocolError_busy (s : State) : s.protocolError.busy = s.busy := rfl
@[simp] theorem State.protocolError_done (s : State) : s.protocolError.done = s.done := rfl
@[simp] theorem State.protocolError_eq (s : State) : s.protocolError.eq = s.eq := rfl
@[simp] theorem State.protocolError_z (s : State) : s.protocolError.z = s.z := rfl
@[simp] theorem State.protocolError_err (s : State) : s.protocolError.err = s.err := rfl
@[simp] theorem State.protocolError_herr (s : State) : s.protocolError.herr = true := rfl
@[simp] theorem State.protocolError_cmd (s : State) : s.protocolError.cmd = s.cmd := rfl
@[simp] theorem State.protocolError_errInfo (s : State) : s.protocolError.errInfo = s.errInfo := rfl
@[simp] theorem State.protocolError_sigLen (s : State) : s.protocolError.sigLen = s.sigLen := rfl
@[simp] theorem State.protocolError_sigBuf (s : State) : s.protocolError.sigBuf = s.sigBuf := rfl
@[simp] theorem State.protocolError_engine (s : State) : s.protocolError.engine = s.engine := rfl
@[simp] theorem State.protocolError_port (s : State) : s.protocolError.port = s.port := rfl
@[simp] theorem State.protocolError_requests (s : State) : s.protocolError.requests = s.requests := rfl
@[simp] theorem State.protocolError_busyReads (s : State) : s.protocolError.busyReads = s.busyReads := rfl
@[simp] theorem State.protocolError_inputs (s : State) : s.protocolError.inputs = s.inputs := rfl
@[simp] theorem State.protocolError_reply (s : State) : s.protocolError.reply = s.reply := rfl

/-! ### `clearErrors` -/

@[simp] theorem State.clearErrors_regs (s : State) : s.clearErrors.regs = s.regs := rfl
@[simp] theorem State.clearErrors_busy (s : State) : s.clearErrors.busy = s.busy := rfl
@[simp] theorem State.clearErrors_done (s : State) : s.clearErrors.done = s.done := rfl
@[simp] theorem State.clearErrors_eq (s : State) : s.clearErrors.eq = s.eq := rfl
@[simp] theorem State.clearErrors_z (s : State) : s.clearErrors.z = s.z := rfl
@[simp] theorem State.clearErrors_err (s : State) : s.clearErrors.err = none := rfl
@[simp] theorem State.clearErrors_herr (s : State) : s.clearErrors.herr = false := rfl
@[simp] theorem State.clearErrors_cmd (s : State) : s.clearErrors.cmd = s.cmd := rfl
@[simp] theorem State.clearErrors_errInfo (s : State) : s.clearErrors.errInfo = s.errInfo := rfl
@[simp] theorem State.clearErrors_sigLen (s : State) : s.clearErrors.sigLen = s.sigLen := rfl
@[simp] theorem State.clearErrors_sigBuf (s : State) : s.clearErrors.sigBuf = s.sigBuf := rfl
@[simp] theorem State.clearErrors_engine (s : State) : s.clearErrors.engine = s.engine := rfl
@[simp] theorem State.clearErrors_port (s : State) : s.clearErrors.port = s.port := rfl
@[simp] theorem State.clearErrors_requests (s : State) : s.clearErrors.requests = s.requests := rfl
@[simp] theorem State.clearErrors_busyReads (s : State) : s.clearErrors.busyReads = s.busyReads := rfl
@[simp] theorem State.clearErrors_inputs (s : State) : s.clearErrors.inputs = s.inputs := rfl
@[simp] theorem State.clearErrors_reply (s : State) : s.clearErrors.reply = s.reply := rfl

/-! ### `resetAll` -/

@[simp] theorem State.resetAll_regs (s : State) : s.resetAll.regs = Vector.replicate 16 ⟨0, .none⟩ := rfl
@[simp] theorem State.resetAll_busy (s : State) : s.resetAll.busy = false := rfl
@[simp] theorem State.resetAll_done (s : State) : s.resetAll.done = false := rfl
@[simp] theorem State.resetAll_eq (s : State) : s.resetAll.eq = false := rfl
@[simp] theorem State.resetAll_z (s : State) : s.resetAll.z = false := rfl
@[simp] theorem State.resetAll_err (s : State) : s.resetAll.err = none := rfl
@[simp] theorem State.resetAll_herr (s : State) : s.resetAll.herr = false := rfl
@[simp] theorem State.resetAll_cmd (s : State) : s.resetAll.cmd = 0 := rfl
@[simp] theorem State.resetAll_errInfo (s : State) : s.resetAll.errInfo = 0 := rfl
@[simp] theorem State.resetAll_sigLen (s : State) : s.resetAll.sigLen = 0 := rfl
@[simp] theorem State.resetAll_sigBuf (s : State) : s.resetAll.sigBuf = [] := rfl
@[simp] theorem State.resetAll_engine (s : State) : s.resetAll.engine = .idle := rfl
@[simp] theorem State.resetAll_port (s : State) : s.resetAll.port = .quiet := rfl
@[simp] theorem State.resetAll_requests (s : State) : s.resetAll.requests = s.requests := rfl
@[simp] theorem State.resetAll_busyReads (s : State) : s.resetAll.busyReads = s.busyReads := rfl
@[simp] theorem State.resetAll_inputs (s : State) : s.resetAll.inputs = s.inputs := rfl
@[simp] theorem State.resetAll_reply (s : State) : s.resetAll.reply = none := rfl

/-! ### `requestEntropy` -/

@[simp] theorem State.requestEntropy_regs (s : State) : s.requestEntropy.regs = s.regs := rfl
@[simp] theorem State.requestEntropy_busy (s : State) : s.requestEntropy.busy = s.busy := rfl
@[simp] theorem State.requestEntropy_done (s : State) : s.requestEntropy.done = s.done := rfl
@[simp] theorem State.requestEntropy_eq (s : State) : s.requestEntropy.eq = s.eq := rfl
@[simp] theorem State.requestEntropy_z (s : State) : s.requestEntropy.z = s.z := rfl
@[simp] theorem State.requestEntropy_err (s : State) : s.requestEntropy.err = s.err := rfl
@[simp] theorem State.requestEntropy_herr (s : State) : s.requestEntropy.herr = s.herr := rfl
@[simp] theorem State.requestEntropy_cmd (s : State) : s.requestEntropy.cmd = s.cmd := rfl
@[simp] theorem State.requestEntropy_errInfo (s : State) : s.requestEntropy.errInfo = s.errInfo := rfl
@[simp] theorem State.requestEntropy_sigLen (s : State) : s.requestEntropy.sigLen = s.sigLen := rfl
@[simp] theorem State.requestEntropy_sigBuf (s : State) : s.requestEntropy.sigBuf = s.sigBuf := rfl
@[simp] theorem State.requestEntropy_engine (s : State) : s.requestEntropy.engine = s.engine.countDraw := rfl
@[simp] theorem State.requestEntropy_port (s : State) : s.requestEntropy.port = ⟨some s.requests, none⟩ := rfl
@[simp] theorem State.requestEntropy_requests (s : State) : s.requestEntropy.requests = s.requests + 1 := rfl
@[simp] theorem State.requestEntropy_busyReads (s : State) : s.requestEntropy.busyReads = s.busyReads := rfl
@[simp] theorem State.requestEntropy_inputs (s : State) : s.requestEntropy.inputs = s.inputs := rfl
@[simp] theorem State.requestEntropy_reply (s : State) : s.requestEntropy.reply = s.reply := rfl

/-! ### `drawBusyRead_snd` -/

@[simp] theorem State.drawBusyRead_snd_regs (s : State) : s.drawBusyRead.2.regs = s.regs := rfl
@[simp] theorem State.drawBusyRead_snd_busy (s : State) : s.drawBusyRead.2.busy = s.busy := rfl
@[simp] theorem State.drawBusyRead_snd_done (s : State) : s.drawBusyRead.2.done = s.done := rfl
@[simp] theorem State.drawBusyRead_snd_eq (s : State) : s.drawBusyRead.2.eq = s.eq := rfl
@[simp] theorem State.drawBusyRead_snd_z (s : State) : s.drawBusyRead.2.z = s.z := rfl
@[simp] theorem State.drawBusyRead_snd_err (s : State) : s.drawBusyRead.2.err = s.err := rfl
@[simp] theorem State.drawBusyRead_snd_herr (s : State) : s.drawBusyRead.2.herr = s.herr := rfl
@[simp] theorem State.drawBusyRead_snd_cmd (s : State) : s.drawBusyRead.2.cmd = s.cmd := rfl
@[simp] theorem State.drawBusyRead_snd_errInfo (s : State) : s.drawBusyRead.2.errInfo = s.errInfo := rfl
@[simp] theorem State.drawBusyRead_snd_sigLen (s : State) : s.drawBusyRead.2.sigLen = s.sigLen := rfl
@[simp] theorem State.drawBusyRead_snd_sigBuf (s : State) : s.drawBusyRead.2.sigBuf = s.sigBuf := rfl
@[simp] theorem State.drawBusyRead_snd_engine (s : State) : s.drawBusyRead.2.engine = s.engine := rfl
@[simp] theorem State.drawBusyRead_snd_port (s : State) : s.drawBusyRead.2.port = s.port := rfl
@[simp] theorem State.drawBusyRead_snd_requests (s : State) : s.drawBusyRead.2.requests = s.requests := rfl
@[simp] theorem State.drawBusyRead_snd_busyReads (s : State) : s.drawBusyRead.2.busyReads = s.busyReads + 1 := rfl
@[simp] theorem State.drawBusyRead_snd_inputs (s : State) : s.drawBusyRead.2.inputs = s.inputs := rfl
@[simp] theorem State.drawBusyRead_snd_reply (s : State) : s.drawBusyRead.2.reply = s.reply := rfl

/-! ### `replyRead` -/

@[simp] theorem State.replyRead_regs (s : State) (d : Word) : (s.replyRead d).regs = s.regs := rfl
@[simp] theorem State.replyRead_busy (s : State) (d : Word) : (s.replyRead d).busy = s.busy := rfl
@[simp] theorem State.replyRead_done (s : State) (d : Word) : (s.replyRead d).done = s.done := rfl
@[simp] theorem State.replyRead_eq (s : State) (d : Word) : (s.replyRead d).eq = s.eq := rfl
@[simp] theorem State.replyRead_z (s : State) (d : Word) : (s.replyRead d).z = s.z := rfl
@[simp] theorem State.replyRead_err (s : State) (d : Word) : (s.replyRead d).err = s.err := rfl
@[simp] theorem State.replyRead_herr (s : State) (d : Word) : (s.replyRead d).herr = s.herr := rfl
@[simp] theorem State.replyRead_cmd (s : State) (d : Word) : (s.replyRead d).cmd = s.cmd := rfl
@[simp] theorem State.replyRead_errInfo (s : State) (d : Word) : (s.replyRead d).errInfo = s.errInfo := rfl
@[simp] theorem State.replyRead_sigLen (s : State) (d : Word) : (s.replyRead d).sigLen = s.sigLen := rfl
@[simp] theorem State.replyRead_sigBuf (s : State) (d : Word) : (s.replyRead d).sigBuf = s.sigBuf := rfl
@[simp] theorem State.replyRead_engine (s : State) (d : Word) : (s.replyRead d).engine = s.engine := rfl
@[simp] theorem State.replyRead_port (s : State) (d : Word) : (s.replyRead d).port = s.port := rfl
@[simp] theorem State.replyRead_requests (s : State) (d : Word) : (s.replyRead d).requests = s.requests := rfl
@[simp] theorem State.replyRead_busyReads (s : State) (d : Word) : (s.replyRead d).busyReads = s.busyReads := rfl
@[simp] theorem State.replyRead_inputs (s : State) (d : Word) : (s.replyRead d).inputs = s.inputs := rfl
@[simp] theorem State.replyRead_reply (s : State) (d : Word) : (s.replyRead d).reply = some (.readOk d) := rfl

/-! ### `replyWrite` -/

@[simp] theorem State.replyWrite_regs (s : State) : s.replyWrite.regs = s.regs := rfl
@[simp] theorem State.replyWrite_busy (s : State) : s.replyWrite.busy = s.busy := rfl
@[simp] theorem State.replyWrite_done (s : State) : s.replyWrite.done = s.done := rfl
@[simp] theorem State.replyWrite_eq (s : State) : s.replyWrite.eq = s.eq := rfl
@[simp] theorem State.replyWrite_z (s : State) : s.replyWrite.z = s.z := rfl
@[simp] theorem State.replyWrite_err (s : State) : s.replyWrite.err = s.err := rfl
@[simp] theorem State.replyWrite_herr (s : State) : s.replyWrite.herr = s.herr := rfl
@[simp] theorem State.replyWrite_cmd (s : State) : s.replyWrite.cmd = s.cmd := rfl
@[simp] theorem State.replyWrite_errInfo (s : State) : s.replyWrite.errInfo = s.errInfo := rfl
@[simp] theorem State.replyWrite_sigLen (s : State) : s.replyWrite.sigLen = s.sigLen := rfl
@[simp] theorem State.replyWrite_sigBuf (s : State) : s.replyWrite.sigBuf = s.sigBuf := rfl
@[simp] theorem State.replyWrite_engine (s : State) : s.replyWrite.engine = s.engine := rfl
@[simp] theorem State.replyWrite_port (s : State) : s.replyWrite.port = s.port := rfl
@[simp] theorem State.replyWrite_requests (s : State) : s.replyWrite.requests = s.requests := rfl
@[simp] theorem State.replyWrite_busyReads (s : State) : s.replyWrite.busyReads = s.busyReads := rfl
@[simp] theorem State.replyWrite_inputs (s : State) : s.replyWrite.inputs = s.inputs := rfl
@[simp] theorem State.replyWrite_reply (s : State) : s.replyWrite.reply = some .writeOk := rfl

/-! ### `popInput` -/

@[simp] theorem State.popInput_regs (s : State) : s.popInput.regs = s.regs := rfl
@[simp] theorem State.popInput_busy (s : State) : s.popInput.busy = s.busy := rfl
@[simp] theorem State.popInput_done (s : State) : s.popInput.done = s.done := rfl
@[simp] theorem State.popInput_eq (s : State) : s.popInput.eq = s.eq := rfl
@[simp] theorem State.popInput_z (s : State) : s.popInput.z = s.z := rfl
@[simp] theorem State.popInput_err (s : State) : s.popInput.err = s.err := rfl
@[simp] theorem State.popInput_herr (s : State) : s.popInput.herr = s.herr := rfl
@[simp] theorem State.popInput_cmd (s : State) : s.popInput.cmd = s.cmd := rfl
@[simp] theorem State.popInput_errInfo (s : State) : s.popInput.errInfo = s.errInfo := rfl
@[simp] theorem State.popInput_sigLen (s : State) : s.popInput.sigLen = s.sigLen := rfl
@[simp] theorem State.popInput_sigBuf (s : State) : s.popInput.sigBuf = s.sigBuf := rfl
@[simp] theorem State.popInput_engine (s : State) : s.popInput.engine = s.engine := rfl
@[simp] theorem State.popInput_port (s : State) : s.popInput.port = s.port := rfl
@[simp] theorem State.popInput_requests (s : State) : s.popInput.requests = s.requests := rfl
@[simp] theorem State.popInput_busyReads (s : State) : s.popInput.busyReads = s.busyReads := rfl
@[simp] theorem State.popInput_inputs (s : State) : s.popInput.inputs = s.inputs.tail := rfl
@[simp] theorem State.popInput_reply (s : State) : s.popInput.reply = s.reply := rfl

/-! ### The accessors -/

@[simp] theorem State.drawBusyRead_fst (s : State) : s.drawBusyRead.1 = Config.busyRead s.busyReads := rfl

theorem State.reg_eq (s : State) (i : RegNo) : s.reg i = getReg s.regs i := rfl

@[simp] theorem State.operands_idle {s : State} (h : s.engine = .idle) : s.operands = s.capture := by
  simp [State.operands, h]

@[simp] theorem State.operands_running {s : State} {w : Word} {ins : Inputs} {d : Nat}
    (h : s.engine = .running w ins d) : s.operands = ins := by
  simp [State.operands, h]

@[simp] theorem State.commandWord_idle {s : State} (h : s.engine = .idle) : s.commandWord = s.cmd := by
  simp [State.commandWord, h]

@[simp] theorem State.commandWord_running {s : State} {w : Word} {ins : Inputs} {d : Nat}
    (h : s.engine = .running w ins d) : s.commandWord = w := by
  simp [State.commandWord, h]

theorem State.operands_launch (s : State) (w : Word) : (s.launch w).operands = s.capture := rfl

theorem State.commandWord_launch (s : State) (w : Word) : (s.launch w).commandWord = w := rfl

theorem State.operands_popInput (s : State) : s.popInput.operands = s.operands := rfl

theorem State.takeAnswer_of_ne {s : State} {n : Nat} (a : Answer) (h : s.port.req ≠ some n) :
    s.takeAnswer n a = s := by
  simp [State.takeAnswer, h]

theorem State.takeAnswer_of_eq {s : State} {n : Nat} (a : Answer) (h : s.port.req = some n) :
    s.takeAnswer n a = { s with port := ⟨none, some a⟩ } := by
  simp [State.takeAnswer, h]

/-! ### The register file -/

@[simp] theorem getReg_setReg_self (rs : Vector FReg 16) (i : RegNo) (r : FReg) : getReg (setReg rs i r) i = r := by
  simp [getReg, setReg]

theorem getReg_setReg_of_ne (rs : Vector FReg 16) {i j : RegNo} (r : FReg) (h : i ≠ j) :
    getReg (setReg rs i r) j = getReg rs j := by
  have h' : i.val ≠ j.val := fun e => h (Fin.ext e)
  simp [getReg, setReg, Vector.getElem_set_ne _ _ h']

/-- A read after a write: the value written there, the old one elsewhere. -/
theorem getReg_setReg (rs : Vector FReg 16) (i j : RegNo) (r : FReg) :
    getReg (setReg rs i r) j = if i = j then r else getReg rs j := by
  by_cases h : i = j
  · subst h
    simp
  · simp [h, getReg_setReg_of_ne rs r h]

@[simp] theorem writeRegs_nil (rs : Vector FReg 16) : writeRegs rs [] = rs := rfl

@[simp] theorem writeRegs_cons (rs : Vector FReg 16) (w : RegNo × FReg) (l : List (RegNo × FReg)) :
    writeRegs rs (w :: l) = writeRegs (setReg rs w.1 w.2) l := rfl

/-- A register that is in no entry of the list keeps its contents. -/
theorem getReg_writeRegs_of_not_mem {l : List (RegNo × FReg)} {i : RegNo} (h : ∀ r, (i, r) ∉ l)
    (rs : Vector FReg 16) : getReg (writeRegs rs l) i = getReg rs i := by
  induction l generalizing rs with
  | nil => rfl
  | cons w l ih =>
    have hw : w.1 ≠ i := fun e => h w.2 (by simp [← e])
    rw [writeRegs_cons, ih (fun r hr => h r (List.mem_cons_of_mem _ hr)), getReg_setReg_of_ne _ _ hw]

/-- The y register of an even pair is not its x register (R23). -/
theorem pairY_ne (q : RegNo) : pairY q ≠ q := by
  revert q
  decide

theorem pairY_val {q : RegNo} (h : evenPair q = true) : (pairY q).val = q.val + 1 := by
  revert q
  decide

@[simp] theorem getReg_reset (i : RegNo) : getReg State.reset.regs i = ⟨0, .none⟩ := by
  simp [getReg, State.reset]

end Sys2Proof.Machine
end

