-- ==== Sys2Proof/Laws/Memory.lean ====
section
/-! SUPPORT. The laws of memory: every operation keeps the canonical form, a read after a write, and equal reads make
equal memories. -/

namespace Sys2Proof.Machine

/-- Every cell of a memory lies above `a`. -/
def Memory.above (m : Memory) (a : Nat) : Prop := ∀ c ∈ m, a < c.1

theorem Memory.wf_nil : Memory.wf [] = true := rfl

/-- A canonical memory is a nonzero cell in front of a canonical memory that lies above it. -/
theorem Memory.wf_cons {a : Nat} {b : Byte} {t : Memory} :
    Memory.wf ((a, b) :: t) = true ↔ b ≠ Memory.unlisted ∧ Memory.above t a ∧ Memory.wf t = true := by
  induction t generalizing a b with
  | nil => simp [Memory.wf, Memory.above]
  | cons c t ih =>
    obtain ⟨c, d⟩ := c
    constructor
    · intro h
      simp only [Memory.wf, Bool.and_eq_true, bne_iff_ne, decide_eq_true_eq] at h
      obtain ⟨⟨hb, hac⟩, ht⟩ := h
      refine ⟨hb, ?_, ht⟩
      intro x hx
      rcases List.mem_cons.1 hx with rfl | hx
      · exact hac
      · exact lt_trans hac ((ih.1 ht).2.1 x hx)
    · rintro ⟨hb, hab, ht⟩
      simp only [Memory.wf, Bool.and_eq_true, bne_iff_ne, decide_eq_true_eq]
      exact ⟨⟨hb, hab (c, d) (by simp)⟩, ht⟩

theorem Memory.read_above {m : Memory} {a x : Nat} (h : Memory.above m a) (hx : x ≤ a) :
    Memory.read m x = Memory.unlisted := by
  induction m with
  | nil => rfl
  | cons c t ih =>
    obtain ⟨c, d⟩ := c
    have hc : a < c := h (c, d) (by simp)
    have : c ≠ x := by omega
    simp only [Memory.read, this, if_false]
    exact ih fun y hy => h y (List.mem_cons_of_mem _ hy)

theorem Memory.consCell_wf {a : Nat} {b : Byte} {t : Memory} (ha : Memory.above t a) (ht : t.wf = true) :
    (Memory.consCell a b t).wf = true := by
  unfold Memory.consCell
  split
  · exact ht
  · next hb => exact Memory.wf_cons.2 ⟨hb, ha, ht⟩

theorem Memory.consCell_above {a x : Nat} {b : Byte} {t : Memory} (ha : Memory.above t x) (hx : x < a) :
    Memory.above (Memory.consCell a b t) x := by
  unfold Memory.consCell
  split
  · exact ha
  · intro c hc
    rcases List.mem_cons.1 hc with rfl | hc
    · exact hx
    · exact ha c hc

/-- A read of a cell put in front of a memory above it. -/
theorem Memory.read_consCell {a x : Nat} {b : Byte} {t : Memory} (ha : Memory.above t a) :
    Memory.read (Memory.consCell a b t) x = if x = a then b else Memory.read t x := by
  unfold Memory.consCell
  by_cases hb : b = Memory.unlisted
  · rw [if_pos hb]
    by_cases hx : x = a
    · rw [if_pos hx, hb, hx, Memory.read_above ha le_rfl]
    · rw [if_neg hx]
  · rw [if_neg hb]
    by_cases hx : x = a
    · simp [Memory.read, hx]
    · rw [if_neg hx, Memory.read, if_neg (fun e => hx e.symm)]

theorem Memory.write_above {m : Memory} {x a : Nat} {b : Byte} (hm : Memory.above m x) (hx : x < a) :
    Memory.above (Memory.write m a b) x := by
  induction m with
  | nil => exact Memory.consCell_above (by simp [Memory.above]) hx
  | cons c t ih =>
    obtain ⟨c, d⟩ := c
    have ht : Memory.above t x := fun y hy => hm y (List.mem_cons_of_mem _ hy)
    simp only [Memory.write]
    split
    · exact Memory.consCell_above hm hx
    · split
      · exact Memory.consCell_above ht hx
      · intro y hy
        rcases List.mem_cons.1 hy with rfl | hy
        · exact hm (c, d) (by simp)
        · exact ih ht y hy

/-- A write keeps the canonical form. -/
theorem Memory.write_wf {m : Memory} (hm : m.wf = true) (a : Nat) (b : Byte) : (Memory.write m a b).wf = true := by
  induction m with
  | nil => exact Memory.consCell_wf (by simp [Memory.above]) rfl
  | cons c t ih =>
    obtain ⟨c, d⟩ := c
    obtain ⟨hd, hc, ht⟩ := Memory.wf_cons.1 hm
    simp only [Memory.write]
    split
    · next hlt =>
      refine Memory.consCell_wf ?_ hm
      intro y hy
      rcases List.mem_cons.1 hy with rfl | hy
      · exact hlt
      · exact lt_trans hlt (hc y hy)
    · split
      · next _ heq => subst heq; exact Memory.consCell_wf hc ht
      · exact Memory.wf_cons.2 ⟨hd, Memory.write_above hc (by omega), ih ht⟩

/-- A read after a write: the byte written at that address, the old byte at every other. -/
theorem Memory.read_write {m : Memory} (hm : m.wf = true) (a x : Nat) (b : Byte) :
    Memory.read (Memory.write m a b) x = if x = a then b else Memory.read m x := by
  induction m with
  | nil => exact Memory.read_consCell (by simp [Memory.above])
  | cons c t ih =>
    obtain ⟨c, d⟩ := c
    obtain ⟨hd, hc, ht⟩ := Memory.wf_cons.1 hm
    simp only [Memory.write]
    split
    · next hlt =>
      refine Memory.read_consCell ?_
      intro y hy
      rcases List.mem_cons.1 hy with rfl | hy
      · exact hlt
      · exact lt_trans hlt (hc y hy)
    · split
      · next _ heq =>
        subst heq
        rw [Memory.read_consCell hc]
        by_cases hx : x = a
        · simp [hx]
        · simp [hx, Memory.read, Ne.symm hx]
      · next _ hne =>
        by_cases hx : c = x
        · have : x ≠ a := fun e => hne (e.symm.trans hx.symm)
          simp [Memory.read, hx, this]
        · simp [Memory.read, hx, ih ht]

/-- Writing a byte string keeps the canonical form. -/
theorem Memory.writeBytes_wf {m : Memory} (hm : m.wf = true) (a : Nat) (bs : List Byte) :
    (Memory.writeBytes m a bs).wf = true := by
  induction bs generalizing m a with
  | nil => exact hm
  | cons b t ih => exact ih (Memory.write_wf hm a b) (a + 1)

/-- A read after writing a byte string: its byte inside it, the old byte outside. -/
theorem Memory.read_writeBytes {m : Memory} (hm : m.wf = true) (a : Nat) (bs : List Byte) (x : Nat) :
    Memory.read (Memory.writeBytes m a bs) x =
      if a ≤ x ∧ x < a + bs.length then bs.getD (x - a) 0 else Memory.read m x := by
  induction bs generalizing m a with
  | nil =>
    have : ¬(a ≤ x ∧ x < a + ([] : List Byte).length) := by simp
    rw [if_neg this]
    rfl
  | cons b t ih =>
    simp only [Memory.writeBytes]
    rw [ih (Memory.write_wf hm a b), Memory.read_write hm]
    simp only [List.length_cons]
    by_cases hx : x = a
    · subst hx
      rw [if_neg (by omega), if_pos rfl, if_pos (by omega)]
      simp
    · by_cases hin : a + 1 ≤ x ∧ x < a + 1 + t.length
      · rw [if_pos hin, if_pos (by omega)]
        obtain ⟨k, rfl⟩ : ∃ k, x = a + 1 + k := ⟨x - (a + 1), by omega⟩
        have h1 : a + 1 + k - (a + 1) = k := by omega
        have h2 : a + 1 + k - a = k + 1 := by omega
        rw [h1, h2, List.getD_cons_succ]
      · rw [if_neg hin, if_neg hx, if_neg (by omega)]

theorem Memory.readBytes_eq (m : Memory) (a n : Nat) :
    Memory.readBytes m a n = (List.range n).map fun i => Memory.read m (a + i) := by
  induction n generalizing a with
  | zero => rfl
  | succ n ih =>
    rw [Memory.readBytes, ih, List.range_succ_eq_map]
    simp only [List.map_cons, List.map_map, Nat.add_zero]
    congr 1
    apply List.map_congr_left
    intro i _
    simp only [Function.comp_apply, Nat.succ_eq_add_one]
    congr 1
    omega

theorem Memory.length_readBytes (m : Memory) (a n : Nat) : (Memory.readBytes m a n).length = n := by
  simp [Memory.readBytes_eq]

/-- The cells of a memory after a write lie where the old ones lay or at the address written. -/
theorem Memory.mem_write {m : Memory} {a : Nat} {b : Byte} {c : Host.Cell} (h : c ∈ Memory.write m a b) :
    c ∈ m ∨ c.1 = a := by
  have key : ∀ t : Memory, c ∈ Memory.consCell a b t → c ∈ t ∨ c.1 = a := by
    intro t ht
    unfold Memory.consCell at ht
    split at ht
    · exact .inl ht
    · rcases List.mem_cons.1 ht with rfl | ht
      · exact .inr rfl
      · exact .inl ht
  induction m with
  | nil => exact key [] h
  | cons d t ih =>
    obtain ⟨d, e⟩ := d
    simp only [Memory.write] at h
    split at h
    · exact key _ h
    · split at h
      · rcases key t h with h | h
        · exact .inl (List.mem_cons_of_mem _ h)
        · exact .inr h
      · rcases List.mem_cons.1 h with rfl | h
        · exact .inl (by simp)
        · rcases ih h with h | h
          · exact .inl (List.mem_cons_of_mem _ h)
          · exact .inr h

/-- The cells of a memory after writing a byte string lie where the old ones lay or inside the string. -/
theorem Memory.mem_writeBytes {m : Memory} {a : Nat} {bs : List Byte} {c : Host.Cell}
    (h : c ∈ Memory.writeBytes m a bs) : c ∈ m ∨ (a ≤ c.1 ∧ c.1 < a + bs.length) := by
  induction bs generalizing m a with
  | nil => exact .inl h
  | cons b t ih =>
    rcases ih h with h | h
    · rcases Memory.mem_write h with h | h
      · exact .inl h
      · exact .inr (by simp only [List.length_cons]; omega)
    · exact .inr (by simp only [List.length_cons]; omega)

/-- Canonical memories that read the same at every address are equal. -/
theorem Memory.ext_of_wf {m n : Memory} (hm : m.wf = true) (hn : n.wf = true)
    (h : ∀ a, Memory.read m a = Memory.read n a) : m = n := by
  induction m generalizing n with
  | nil =>
    cases n with
    | nil => rfl
    | cons c t =>
      obtain ⟨c, d⟩ := c
      have := h c
      simp only [Memory.read, if_true] at this
      exact absurd this.symm (Memory.wf_cons.1 hn).1
  | cons c t ih =>
    obtain ⟨c, d⟩ := c
    obtain ⟨hd, hc, ht⟩ := Memory.wf_cons.1 hm
    cases n with
    | nil =>
      have := h c
      simp only [Memory.read, if_true] at this
      exact absurd this hd
    | cons e u =>
      obtain ⟨e, f⟩ := e
      obtain ⟨hf, he, hu⟩ := Memory.wf_cons.1 hn
      have hce : c = e := by
        rcases lt_trichotomy c e with hlt | heq | hgt
        · have h1 := h c
          rw [Memory.read, if_pos rfl, Memory.read, if_neg (by omega), Memory.read_above he (by omega)] at h1
          exact absurd h1 hd
        · exact heq
        · have h1 := h e
          rw [Memory.read, if_neg (by omega), Memory.read_above hc (by omega), Memory.read, if_pos rfl] at h1
          exact absurd h1.symm hf
      subst hce
      have hdf : d = f := by simpa [Memory.read] using h c
      subst hdf
      congr 1
      refine ih ht hu fun a => ?_
      by_cases ha : c = a
      · subst ha
        rw [Memory.read_above hc le_rfl, Memory.read_above he le_rfl]
      · simpa [Memory.read, ha] using h a

end Sys2Proof.Machine
end

