-- ==== Sys2Proof/Laws/Operands.lean ====
section
/-! SUPPORT. One law per shared operation of the operand forms (R10, R11, R76) and of the effects: when it answers, and
with what; when it fails, and with which code. -/

namespace Sys2Proof.Machine

/-! ### Sequencing -/

@[simp] theorem except_ok_bind {ε α β : Type} (a : α) (f : α → Except ε β) : (Except.ok a >>= f) = f a := rfl

@[simp] theorem except_error_bind {ε α β : Type} (c : ε) (f : α → Except ε β) :
    ((Except.error c : Except ε α) >>= f) = .error c := rfl

/-- A sequence that answers: its first part answers, and the rest answers on that. -/
theorem except_bind_ok {ε α β : Type} {x : Except ε α} {f : α → Except ε β} {b : β} :
    (x >>= f) = .ok b ↔ ∃ a, x = .ok a ∧ f a = .ok b := by
  cases x with
  | ok a => simp
  | error c => simp

/-- A sequence that fails: its first part fails, or the rest fails on what it answered. -/
theorem except_bind_error {ε α β : Type} {x : Except ε α} {f : α → Except ε β} {c : ε} :
    (x >>= f) = .error c ↔ x = .error c ∨ ∃ a, x = .ok a ∧ f a = .error c := by
  cases x with
  | ok a => simp
  | error c => simp

/-! ### Reading operands -/

theorem readOp_error {o : Inputs} {i : RegNo} (h : (getReg o.regs i).tag = .none) : readOp o i = .error .uninit := by
  simp [readOp, h]

theorem readOp_ok {o : Inputs} {i : RegNo} (h : (getReg o.regs i).tag ≠ .none) : readOp o i = .ok (getReg o.regs i) := by
  simp [readOp, h]

theorem readOp_eq_ok {o : Inputs} {i : RegNo} {x : FReg} :
    readOp o i = .ok x ↔ (getReg o.regs i).tag ≠ .none ∧ x = getReg o.regs i := by
  by_cases h : (getReg o.regs i).tag = .none
  · simp [readOp, h]
  · simp [readOp, h, eq_comm (a := x)]

theorem readOp_eq_error {o : Inputs} {i : RegNo} {c : ErrCode} :
    readOp o i = .error c ↔ (getReg o.regs i).tag = .none ∧ c = .uninit := by
  by_cases h : (getReg o.regs i).tag = .none
  · simp [readOp, h, eq_comm (a := c)]
  · simp [readOp, h]

theorem modulus_eq_some {t : Tag} {m : Nat} :
    t.modulus = some m ↔ (t = .p ∧ m = Config.P) ∨ (t = .n ∧ m = Config.N) := by
  cases t <;> simp [Tag.modulus, eq_comm]

theorem modulus_eq_none {t : Tag} : t.modulus = none ↔ t = .raw ∨ t = .none := by
  cases t <;> simp [Tag.modulus]

theorem modulus_pos {t : Tag} {m : Nat} (h : t.modulus = some m) : 0 < m := by
  rcases modulus_eq_some.1 h with ⟨-, rfl⟩ | ⟨-, rfl⟩
  · exact P_pos
  · exact N_pos

theorem modulus_lt {t : Tag} {m : Nat} (h : t.modulus = some m) : m < 2 ^ 256 := by
  rcases modulus_eq_some.1 h with ⟨-, rfl⟩ | ⟨-, rfl⟩
  · exact P_lt
  · exact N_lt

theorem tag_ne_none_of_modulus {t : Tag} {m : Nat} (h : t.modulus = some m) : t ≠ .none := by
  rintro rfl
  simp [Tag.modulus] at h

theorem tag_ne_raw_of_modulus {t : Tag} {m : Nat} (h : t.modulus = some m) : t ≠ .raw := by
  rintro rfl
  simp [Tag.modulus] at h

theorem asField_ok {x : FReg} {m : Nat} (h : x.tag.modulus = some m) : asField x = .ok ⟨x.val.toNat, m, x.tag⟩ := by
  simp [asField, h]

theorem asField_raw {x : FReg} (h : x.tag = .raw) : asField x = .error .fieldMismatch := by
  simp [asField, h, Tag.modulus]

theorem asField_eq_ok {x : FReg} {f : Field1} :
    asField x = .ok f ↔ x.tag.modulus = some f.m ∧ f.a = x.val.toNat ∧ f.tag = x.tag := by
  obtain ⟨a, m, t⟩ := f
  cases h : x.tag.modulus with
  | none => simp [asField, h]
  | some k =>
    simp only [asField, h, Except.ok.injEq, Field1.mk.injEq, Option.some.injEq]
    constructor
    · rintro ⟨rfl, rfl, rfl⟩
      exact ⟨rfl, rfl, rfl⟩
    · rintro ⟨rfl, rfl, rfl⟩
      exact ⟨rfl, rfl, rfl⟩

theorem asField_eq_error {x : FReg} {c : ErrCode} :
    asField x = .error c ↔ x.tag.modulus = none ∧ c = .fieldMismatch := by
  cases h : x.tag.modulus with
  | none => simp [asField, h, eq_comm (a := c)]
  | some k => simp [asField, h]

/-- `FieldOp2` on two operands of one modulus (R11). -/
theorem fieldOp2_ok {o : Inputs} {i j : RegNo} {m : Nat} (h : (getReg o.regs i).tag.modulus = some m)
    (hj : (getReg o.regs j).tag = (getReg o.regs i).tag) :
    fieldOp2 o i j =
      .ok ⟨(getReg o.regs i).val.toNat, (getReg o.regs j).val.toNat, m, (getReg o.regs i).tag⟩ := by
  have hi := tag_ne_none_of_modulus h
  simp [fieldOp2, readOp_ok hi, readOp_ok (hj ▸ hi), asField_ok h, hj]

theorem fieldOp2_uninit {o : Inputs} {i j : RegNo}
    (h : (getReg o.regs i).tag = .none ∨ (getReg o.regs j).tag = .none) : fieldOp2 o i j = .error .uninit := by
  by_cases hi : (getReg o.regs i).tag = .none
  · simp [fieldOp2, readOp_error hi]
  · have hj := h.resolve_left hi
    simp [fieldOp2, readOp_ok hi, readOp_error hj]

theorem fieldOp2_mismatch {o : Inputs} {i j : RegNo} (hi : (getReg o.regs i).tag ≠ .none)
    (hj : (getReg o.regs j).tag ≠ .none)
    (h : (getReg o.regs i).tag ≠ (getReg o.regs j).tag ∨ (getReg o.regs i).tag = .raw) :
    fieldOp2 o i j = .error .fieldMismatch := by
  simp only [fieldOp2, readOp_ok hi, readOp_ok hj, except_ok_bind]
  cases hm : (getReg o.regs i).tag.modulus with
  | none => simp [asField, hm]
  | some m =>
    have hne := h.resolve_right (tag_ne_raw_of_modulus hm)
    simp [asField_ok hm, hne]

theorem fieldOp2_eq_ok {o : Inputs} {i j : RegNo} {f : Field2} :
    fieldOp2 o i j = .ok f → f.tag.modulus = some f.m := by
  intro h
  simp only [fieldOp2, except_bind_ok] at h
  obtain ⟨x, -, y, -, g, hg, h⟩ := h
  split at h
  · obtain rfl := (Except.ok.inj h)
    obtain ⟨h1, -, h3⟩ := asField_eq_ok.1 hg
    simpa [h3] using h1
  · cases h

theorem fieldOp2_eq_error {o : Inputs} {i j : RegNo} {c : ErrCode} (h : fieldOp2 o i j = .error c) :
    c = .uninit ∨ c = .fieldMismatch := by
  simp only [fieldOp2, except_bind_error] at h
  rcases h with h | ⟨x, -, h | ⟨y, -, h | ⟨g, -, h⟩⟩⟩
  · exact .inl (readOp_eq_error.1 h).2
  · exact .inl (readOp_eq_error.1 h).2
  · exact .inr (asField_eq_error.1 h).2
  · split at h
    · cases h
    · exact .inr (Except.error.inj h).symm

/-- `FieldOp1` on a field element (R11). -/
theorem fieldOp1_ok {o : Inputs} {i : RegNo} {m : Nat} (h : (getReg o.regs i).tag.modulus = some m) :
    fieldOp1 o i = .ok ⟨(getReg o.regs i).val.toNat, m, (getReg o.regs i).tag⟩ := by
  simp [fieldOp1, readOp_ok (tag_ne_none_of_modulus h), asField_ok h]

theorem fieldOp1_uninit {o : Inputs} {i : RegNo} (h : (getReg o.regs i).tag = .none) :
    fieldOp1 o i = .error .uninit := by
  simp [fieldOp1, readOp_error h]

theorem fieldOp1_mismatch {o : Inputs} {i : RegNo} (h : (getReg o.regs i).tag = .raw) :
    fieldOp1 o i = .error .fieldMismatch := by
  have : (getReg o.regs i).tag ≠ .none := by simp [h]
  simp [fieldOp1, readOp_ok this, asField_raw h]

theorem fieldOp1_eq_ok {o : Inputs} {i : RegNo} {f : Field1} (h : fieldOp1 o i = .ok f) :
    f.tag.modulus = some f.m := by
  simp only [fieldOp1, except_bind_ok] at h
  obtain ⟨x, -, hg⟩ := h
  obtain ⟨h1, -, h3⟩ := asField_eq_ok.1 hg
  simpa [h3] using h1

theorem fieldOp1_eq_error {o : Inputs} {i : RegNo} {c : ErrCode} (h : fieldOp1 o i = .error c) :
    c = .uninit ∨ c = .fieldMismatch := by
  simp only [fieldOp1, except_bind_error] at h
  rcases h with h | ⟨x, -, h⟩
  · exact .inl (readOp_eq_error.1 h).2
  · exact .inr (asField_eq_error.1 h).2

theorem requireEven_ok {qs : List RegNo} (h : qs.all evenPair = true) : requireEven qs = .ok () := by
  simp [requireEven, h]

theorem requireEven_error {qs : List RegNo} (h : qs.all evenPair = false) : requireEven qs = .error .illegal := by
  simp [requireEven, h]

theorem requireEven_eq_error {qs : List RegNo} {c : ErrCode} (h : requireEven qs = .error c) : c = .illegal := by
  unfold requireEven at h
  split at h
  · cases h
  · exact (Except.error.inj h).symm

theorem readPair_ok {o : Inputs} {q : RegNo} (hx : (getReg o.regs q).tag ≠ .none)
    (hy : (getReg o.regs (pairY q)).tag ≠ .none) :
    readPair o q = .ok (getReg o.regs q, getReg o.regs (pairY q)) := by
  simp [readPair, readOp_ok hx, readOp_ok hy]

theorem readPair_uninit {o : Inputs} {q : RegNo}
    (h : (getReg o.regs q).tag = .none ∨ (getReg o.regs (pairY q)).tag = .none) :
    readPair o q = .error .uninit := by
  by_cases hx : (getReg o.regs q).tag = .none
  · simp [readPair, readOp_error hx]
  · simp [readPair, readOp_ok hx, readOp_error (h.resolve_left hx)]

theorem readPair_eq_error {o : Inputs} {q : RegNo} {c : ErrCode} (h : readPair o q = .error c) : c = .uninit := by
  simp only [readPair, except_bind_error] at h
  rcases h with h | ⟨x, -, h | ⟨y, -, h⟩⟩
  · exact (readOp_eq_error.1 h).2
  · exact (readOp_eq_error.1 h).2
  · cases h

theorem requireTagP_ok {rs : List FReg} (h : ∀ r ∈ rs, r.tag = .p) : requireTagP rs = .ok () := by
  have : rs.all (fun r => r.tag == .p) = true := by simpa using h
  simp [requireTagP, this]

theorem requireTagP_error {rs : List FReg} (h : ∃ r ∈ rs, r.tag ≠ .p) : requireTagP rs = .error .fieldMismatch := by
  have : rs.all (fun r => r.tag == .p) = false := by simpa using h
  simp [requireTagP, this]

theorem requireTagP_eq_error {rs : List FReg} {c : ErrCode} (h : requireTagP rs = .error c) : c = .fieldMismatch := by
  unfold requireTagP at h
  split at h
  · cases h
  · exact (Except.error.inj h).symm

theorem toNat_valOf {n : Nat} (h : n < 2 ^ 256) : (valOf n).toNat = n := by
  rw [valOf, BitVec.toNat_ofNat, Nat.mod_eq_of_lt h]

/-! ### What a command can end in -/

theorem complete_eq (s : State) (r : Except ErrCode Effect) : complete s r = .next (s.finish r) := rfl

@[simp] theorem finish_ok (s : State) (e : Effect) : s.finish (.ok e) = s.commit e := rfl

@[simp] theorem finish_error (s : State) (c : ErrCode) : s.finish (.error c) = s.abort c := rfl

end Sys2Proof.Machine
end

