-- ==== Sys2Proof/Laws/Exec.lean ====
section
/-! SUPPORT. What a command can do, said once: every command but NONCE ends in the commit or the abort of its result, and
what that result may hold. -/

namespace Sys2Proof.Machine

open Sys2Proof.Safety

/-- The result of a command other than NONCE, as a function of its captured inputs (R13). -/
def resultOf (i : Instr) (o : Inputs) : Except ErrCode Effect :=
  match i with
  | .nop => .ok {}
  | .fredRaw rd rs1 => fredResult .raw rd rs1 o
  | .fredP rd rs1 => fredResult .p rd rs1 o
  | .fredN rd rs1 => fredResult .n rd rs1 o
  | .fldi rd imm => .ok (writeField rd (imm.setWidth 256) .raw)
  | .ldc rd cid => .ok (writeField rd (valOf (constOf cid)) .raw)
  | .fadd rd rs1 rs2 => field2Result addMod rd rs1 rs2 o
  | .fsub rd rs1 rs2 => field2Result subMod rd rs1 rs2 o
  | .fmul rd rs1 rs2 => field2Result mulMod rd rs1 rs2 o
  | .fdiv rd rs1 rs2 => field2Result divMod rd rs1 rs2 o
  | .finv rd rs1 => field1Result invMod rd rs1 o
  | .fpow rd rs1 rs2 neg => fpowResult rd rs1 rs2 neg o
  | .fneg rd rs1 => field1Result negMod rd rs1 o
  | .fmod rd rs1 rs2 => fmodResult rd rs1 rs2 o
  | .feq rs1 rs2 => feqResult rs1 rs2 o
  | .ldg qd => ldgResult qd
  | .padd qd qa qb => paddResult qd qa qb o
  | .pmul qd rk qb => pmulResult qd rk qb o
  | .derenc rs1 rs2 => derencResult rs1 rs2 o
  | .derdec qd => derdecResult qd o
  | .nonce _ => .ok {}

/-- Every command but NONCE commits or aborts with its result (R13, R203). -/
theorem exec_eq {i : Instr} (h : ∀ rd, i ≠ .nonce rd) (s : State) :
    exec i s = .next (s.finish (resultOf i s.operands)) := by
  cases i with
  | nonce rd => exact absurd rfl (h rd)
  | _ => rfl

/-- What a command's effect may hold: registers among its destinations (R24), with reduced values when the P-tagged inputs
are reduced (R21), 72 bytes of SIGBUF and a legal SIGLEN from DERENC only (R160), EQ from FEQ only (R27), Z from the commands of R28 only. -/
structure EffectLegal (i : Instr) (o : Inputs) (e : Effect) : Prop where
  dests : ∀ p ∈ e.regs, p.1 ∈ destinations i
  reduced : (∀ r : RegNo, (getReg o.regs r).tag = .p → (getReg o.regs r).val.toNat < Config.P) →
    ∀ p ∈ e.regs, ∀ m, p.2.tag.modulus = some m → p.2.val.toNat < m
  sig : ∀ bs l, e.sig = some (bs, l) → bs.length = sigSize ∧ l.toNat ≤ sigSize ∧ ∃ rs1 rs2, i = .derenc rs1 rs2
  eq : e.eq ≠ none → ∃ rs1 rs2, i = .feq rs1 rs2
  z : e.z ≠ none → writesZ i = true

/-- A value put in a register with a field tag is below the modulus when the number it comes from is. -/
theorem toNat_valOf_lt {n m : Nat} (h : n < m) : (valOf n).toNat < m := by
  rw [valOf, BitVec.toNat_ofNat]
  exact lt_of_le_of_lt (Nat.mod_le _ _) h

theorem effectLegal_writeField {i : Instr} {o : Inputs} {rd : RegNo} {v : Val} {t : Tag} (hd : rd ∈ destinations i)
    (hz : writesZ i = true) (hv : ∀ m, t.modulus = some m → v.toNat < m) : EffectLegal i o (writeField rd v t) where
  dests := by simpa [writeField] using hd
  reduced := fun _ => by simpa [writeField] using hv
  sig := by simp [writeField]
  eq := by simp [writeField]
  z := fun _ => hz

theorem effectLegal_writePoint {i : Instr} {o : Inputs} {qd : RegNo} {p : Nat × Nat}
    (hd : destinations i = [qd, pairY qd]) (hz : writesZ i = true)
    (hp : (∀ r : RegNo, (getReg o.regs r).tag = .p → (getReg o.regs r).val.toNat < Config.P) →
      p.1 < Config.P ∧ p.2 < Config.P) :
    EffectLegal i o (writePoint qd (valOf p.1) (valOf p.2)) where
  dests := by simp [writePoint, hd]
  reduced := by
    intro ho q hq m hm
    simp only [writePoint, List.mem_cons, List.not_mem_nil, or_false] at hq
    rcases hq with rfl | rfl
    · simp only [Tag.modulus, Option.some.injEq] at hm
      exact hm ▸ toNat_valOf_lt (hp ho).1
    · simp only [Tag.modulus, Option.some.injEq] at hm
      exact hm ▸ toNat_valOf_lt (hp ho).2
  sig := by simp [writePoint]
  eq := by simp [writePoint]
  z := fun _ => hz

theorem effectLegal_fred {i : Instr} {t : Tag} {rd rs1 : RegNo} {o : Inputs} {e : Effect} (hd : rd ∈ destinations i)
    (hz : writesZ i = true) (h : fredResult t rd rs1 o = .ok e) : EffectLegal i o e := by
  simp only [fredResult, except_bind_ok] at h
  obtain ⟨x, -, h⟩ := h
  split at h
  · next m hm =>
    obtain rfl := Except.ok.inj h
    refine effectLegal_writeField hd hz fun k hk => ?_
    obtain rfl : m = k := by simpa [hm] using hk
    exact toNat_valOf_lt (Nat.mod_lt _ (modulus_pos hm))
  · next hm =>
    obtain rfl := Except.ok.inj h
    exact effectLegal_writeField hd hz fun k hk => by simp [hm] at hk

theorem effectLegal_field2 {i : Instr} {f : Nat → Nat → Nat → Nat} {rd rs1 rs2 : RegNo} {o : Inputs} {e : Effect}
    (hf : ∀ a b {m}, 0 < m → f a b m < m) (hd : rd ∈ destinations i) (hz : writesZ i = true)
    (h : field2Result f rd rs1 rs2 o = .ok e) : EffectLegal i o e := by
  simp only [field2Result, except_bind_ok] at h
  obtain ⟨x, hx, h⟩ := h
  obtain rfl := Except.ok.inj h
  have hm := fieldOp2_eq_ok hx
  refine effectLegal_writeField hd hz fun k hk => ?_
  obtain rfl : x.m = k := by simpa [hm] using hk
  exact toNat_valOf_lt (hf _ _ (modulus_pos hm))

theorem effectLegal_field1 {i : Instr} {f : Nat → Nat → Nat} {rd rs1 : RegNo} {o : Inputs} {e : Effect}
    (hf : ∀ a {m}, 0 < m → f a m < m) (hd : rd ∈ destinations i) (hz : writesZ i = true)
    (h : field1Result f rd rs1 o = .ok e) : EffectLegal i o e := by
  simp only [field1Result, except_bind_ok] at h
  obtain ⟨x, hx, h⟩ := h
  obtain rfl := Except.ok.inj h
  have hm := fieldOp1_eq_ok hx
  refine effectLegal_writeField hd hz fun k hk => ?_
  obtain rfl : x.m = k := by simpa [hm] using hk
  exact toNat_valOf_lt (hf _ (modulus_pos hm))

theorem effectLegal_fpow {rd rs1 rs2 : RegNo} {neg : Bool} {o : Inputs} {e : Effect}
    (h : fpowResult rd rs1 rs2 neg o = .ok e) : EffectLegal (.fpow rd rs1 rs2 neg) o e := by
  simp only [fpowResult, except_bind_ok] at h
  obtain ⟨b, -, x, -, f, hf, h⟩ := h
  split at h
  · cases h
  · obtain rfl := Except.ok.inj h
    obtain ⟨h1, -, h3⟩ := asField_eq_ok.1 hf
    refine effectLegal_writeField (by simp [destinations]) rfl fun k hk => ?_
    obtain rfl : f.m = k := by simpa [h3, h1] using hk
    exact toNat_valOf_lt (powMod_lt _ _ (modulus_pos h1))

theorem effectLegal_fmod {rd rs1 rs2 : RegNo} {o : Inputs} {e : Effect} (h : fmodResult rd rs1 rs2 o = .ok e) :
    EffectLegal (.fmod rd rs1 rs2) o e := by
  simp only [fmodResult, except_bind_ok] at h
  obtain ⟨a, -, d, -, h⟩ := h
  split at h
  · cases h
  · obtain rfl := Except.ok.inj h
    exact effectLegal_writeField (by simp [destinations]) rfl fun k hk => by simp [Tag.modulus] at hk

theorem effectLegal_feq {rs1 rs2 : RegNo} {o : Inputs} {e : Effect} (h : feqResult rs1 rs2 o = .ok e) :
    EffectLegal (.feq rs1 rs2) o e := by
  simp only [feqResult, except_bind_ok] at h
  obtain ⟨a, -, b, -, h⟩ := h
  obtain rfl := Except.ok.inj h
  exact ⟨by simp, by simp, by simp, fun _ => ⟨_, _, rfl⟩, by simp⟩

theorem effectLegal_ldg {qd : RegNo} {o : Inputs} {e : Effect} (h : ldgResult qd = .ok e) : EffectLegal (.ldg qd) o e := by
  simp only [ldgResult, except_bind_ok] at h
  obtain ⟨-, -, h⟩ := h
  obtain rfl := Except.ok.inj h
  exact effectLegal_writePoint (p := (Config.Gx, Config.Gy)) rfl rfl (fun _ => by decide)

theorem effectLegal_padd {qd qa qb : RegNo} {o : Inputs} {e : Effect} (h : paddResult qd qa qb o = .ok e) :
    EffectLegal (.padd qd qa qb) o e := by
  simp only [paddResult, except_bind_ok] at h
  obtain ⟨-, -, p, -, q, -, -, -, h⟩ := h
  obtain rfl := Except.ok.inj h
  exact effectLegal_writePoint rfl rfl (fun _ => padd_lt _ _)

/-- `scalarmul` gives the sentinel, the base or a sum; with a base below `P` its result is below `P`. -/
theorem scalarmul_lt {k : Nat} {b : Nat × Nat} (hb : b.1 < Config.P ∧ b.2 < Config.P) :
    (scalarmul k b).1 < Config.P ∧ (scalarmul k b).2 < Config.P :=
  scalarmul_induction (C := fun p => p.1 < Config.P ∧ p.2 < Config.P) padd_lt ⟨P_pos, P_pos⟩ k hb

theorem effectLegal_pmul {qd rk qb : RegNo} {o : Inputs} {e : Effect} (h : pmulResult qd rk qb o = .ok e) : EffectLegal (.pmul qd rk qb) o e := by
  simp only [pmulResult, except_bind_ok] at h
  obtain ⟨-, -, k, -, p, hp, ⟨⟩, ht, h⟩ := h
  simp only [readPair, except_bind_ok] at hp
  obtain ⟨x, hx, y, hy, hp⟩ := hp
  obtain rfl := Except.ok.inj hp
  obtain ⟨-, rfl⟩ := readOp_eq_ok.1 hx
  obtain ⟨-, rfl⟩ := readOp_eq_ok.1 hy
  have htag : ∀ r ∈ [getReg o.regs qb, getReg o.regs (pairY qb)], r.tag = .p := by
    by_contra hc
    push Not at hc
    rw [requireTagP_error hc] at ht
    cases ht
  split at h
  · obtain rfl := Except.ok.inj h
    exact effectLegal_writePoint rfl rfl
      (fun ho => scalarmul_lt ⟨ho _ (htag _ (by simp)), ho _ (htag _ (by simp))⟩)
  · cases h

theorem effectLegal_derdec {qd : RegNo} {o : Inputs} {e : Effect} (h : derdecResult qd o = .ok e) :
    EffectLegal (.derdec qd) o e := by
  simp only [derdecResult, except_bind_ok] at h
  obtain ⟨-, -, p, -, h⟩ := h
  obtain rfl := Except.ok.inj h
  refine ⟨by simp [writeSignature, destinations], ?_, by simp [writeSignature], by simp [writeSignature], fun _ => rfl⟩
  intro _ q hq m hm
  simp only [writeSignature, List.mem_cons, List.not_mem_nil, or_false] at hq
  rcases hq with rfl | rfl <;> simp [Tag.modulus] at hm

/-- The length of a DER INTEGER: 34 or 35 bytes (R161). -/
theorem length_beBytes (n v : Nat) : (beBytes n v).length = n := by
  induction n with
  | zero => rfl
  | succ n ih => simp [beBytes, ih]

theorem length_derInt (v : Nat) : (derInt v).length = 34 ∨ (derInt v).length = 35 := by
  simp only [derInt]
  split <;> simp [length_beBytes]

theorem length_derSeq (r s : Nat) : 70 ≤ (derSeq r s).length ∧ (derSeq r s).length ≤ 72 := by
  have hr := length_derInt r
  have hs := length_derInt s
  simp only [derSeq, List.length_cons, List.length_append]
  omega

theorem effectLegal_derenc {rs1 rs2 : RegNo} {o : Inputs} {e : Effect} (h : derencResult rs1 rs2 o = .ok e) :
    EffectLegal (.derenc rs1 rs2) o e := by
  simp only [derencResult, except_bind_ok] at h
  obtain ⟨r, -, v, -, h⟩ := h
  obtain rfl := Except.ok.inj h
  have hl := length_derSeq r.val.toNat v.val.toNat
  refine ⟨by simp [writeDer], by simp [writeDer], ?_, by simp [writeDer], by simp [writeDer]⟩
  intro bs l hbs
  simp only [writeDer, Option.some.injEq, Prod.mk.injEq] at hbs
  obtain ⟨rfl, rfl⟩ := hbs
  refine ⟨?_, ?_, _, _, rfl⟩
  · simp only [List.length_append, List.length_replicate, sigSize]
    omega
  · rw [BitVec.toNat_ofNat, Nat.mod_eq_of_lt (by omega)]
    exact hl.2

/-- The result of every command is legal. -/
theorem effectLegal_of_ok {i : Instr} {o : Inputs} {e : Effect} (h : resultOf i o = .ok e) : EffectLegal i o e := by
  have empty : ∀ j : Instr, EffectLegal j o {} := fun j => ⟨by simp, by simp, by simp, by simp, by simp⟩
  cases i with
  | nop => exact (Except.ok.inj h) ▸ empty _
  | fredRaw rd rs1 =>
    exact effectLegal_fred (t := .raw) (rd := rd) (rs1 := rs1) (by simp [destinations]) rfl h
  | fredP rd rs1 =>
    exact effectLegal_fred (t := .p) (rd := rd) (rs1 := rs1) (by simp [destinations]) rfl h
  | fredN rd rs1 =>
    exact effectLegal_fred (t := .n) (rd := rd) (rs1 := rs1) (by simp [destinations]) rfl h
  | fldi rd imm =>
    exact (Except.ok.inj h) ▸ effectLegal_writeField (by simp [destinations]) rfl (by simp [Tag.modulus])
  | ldc rd cid =>
    exact (Except.ok.inj h) ▸ effectLegal_writeField (by simp [destinations]) rfl (by simp [Tag.modulus])
  | fadd rd rs1 rs2 => exact effectLegal_field2 addMod_lt (by simp [destinations]) rfl h
  | fsub rd rs1 rs2 => exact effectLegal_field2 subMod_lt (by simp [destinations]) rfl h
  | fmul rd rs1 rs2 => exact effectLegal_field2 mulMod_lt (by simp [destinations]) rfl h
  | fdiv rd rs1 rs2 => exact effectLegal_field2 divMod_lt (by simp [destinations]) rfl h
  | finv rd rs1 => exact effectLegal_field1 invMod_lt (by simp [destinations]) rfl h
  | fpow rd rs1 rs2 neg => exact effectLegal_fpow h
  | fneg rd rs1 => exact effectLegal_field1 negMod_lt (by simp [destinations]) rfl h
  | fmod rd rs1 rs2 => exact effectLegal_fmod h
  | feq rs1 rs2 => exact effectLegal_feq h
  | ldg qd => exact effectLegal_ldg h
  | padd qd qa qb => exact effectLegal_padd h
  | pmul qd rk qb => exact effectLegal_pmul h
  | derenc rs1 rs2 => exact effectLegal_derenc h
  | derdec qd => exact effectLegal_derdec h
  | nonce rd => exact (Except.ok.inj h) ▸ empty _

end Sys2Proof.Machine
end

