-- ==== Sys2Proof/Laws/Claims.lean ====
section
/-! SUPPORT. From the machine's operations to the words the claims are stated in: what a commit and an abort leave, and
when a command commits or aborts. -/

namespace Sys2Proof.Machine

open Sys2Proof.Safety

theorem sigSame_refl (s : State) : SigSame s s := ⟨rfl, fun _ => rfl⟩

theorem onlyRegs_refl (s : State) (ds : List RegNo) : OnlyRegs s s ds := fun _ _ => rfl

/-- An abort is the abort of the claims, on every state (R203). -/
theorem aborted_abort (s : State) (c : ErrCode) : Aborted s (s.abort c) c :=
  ⟨rfl, rfl, rfl, rfl, rfl, rfl, fun _ _ => rfl, ⟨rfl, fun _ => rfl⟩, rfl, rfl, rfl, rfl, rfl, rfl, rfl, rfl⟩

/-- What every commit leaves (R203). -/
theorem completed_commit (s : State) (e : Effect) : Completed s (s.commit e) :=
  ⟨rfl, rfl, rfl, rfl, rfl, rfl, rfl, rfl, rfl, rfl, rfl, rfl⟩

theorem sigSame_commit {s : State} {e : Effect} (h : e.sig = none) : SigSame s (s.commit e) := by
  constructor
  · simp [Effect.sigLen, h]
  · simp [Effect.sigBuf, h]

theorem onlyRegs_commit {s : State} {e : Effect} {ds : List RegNo} (h : ∀ p ∈ e.regs, p.1 ∈ ds) :
    OnlyRegs s (s.commit e) ds := by
  intro i hi
  exact getReg_writeRegs_of_not_mem (fun r hr => hi (h _ hr)) s.regs

/-- A register value is 0 exactly when its number is. -/
theorem val_eq_zero {v : Val} : v = 0#256 ↔ v.toNat = 0 := by
  rw [← BitVec.toNat_inj]
  rfl

/-- A command whose result is an error aborts with it. -/
theorem abortsWith_of {i : Instr} {s : State} {c : ErrCode} (h : exec i s = .next (s.abort c)) : AbortsWith i s c :=
  ⟨_, h, aborted_abort s c⟩

/-- A command whose result writes one register commits that register (R24, R28). -/
theorem commitsReg_of {i : Instr} {s : State} {rd : RegNo} {v : Val} {n : Nat} {t : Tag}
    (h : exec i s = .next (s.commit (writeField rd v t))) (hv : v.toNat = n) : CommitsReg i s rd n t := by
  refine ⟨_, h, ?_, ?_, ?_, rfl, onlyRegs_commit (by simp [writeField]), sigSame_commit rfl, completed_commit _ _⟩
  · simp [State.reg, writeField, hv]
  · simp [State.reg, writeField]
  · simp only [State.commit_z, writeField, Option.getD_some, zOfValue]
    subst hv
    rw [Bool.eq_iff_iff]
    simp [val_eq_zero]

/-- A command whose result writes a pair commits that pair. -/
theorem commitsPair_of {i : Instr} {s : State} {qd : RegNo} {x y : Val} {m n : Nat} {t : Tag} {z : Bool} {e : Effect}
    (h : exec i s = .next (s.commit e)) (hr : e.regs = [(qd, ⟨x, t⟩), (pairY qd, ⟨y, t⟩)]) (hs : e.sig = none)
    (he : e.eq = none) (hz : e.z = some z) (hx : x.toNat = m) (hy : y.toNat = n) : CommitsPair i s qd m n t z := by
  have hne := pairY_ne qd
  refine ⟨_, h, ?_, ?_, ?_, ?_, ?_, ?_, onlyRegs_commit (by simp [hr]), sigSame_commit hs, completed_commit _ _⟩
  · simp [State.reg, hr, getReg_setReg, hne, hx]
  · simp [State.reg, hr, getReg_setReg, hne]
  · simp [State.reg, hr, hy]
  · simp [State.reg, hr]
  · simp [hz]
  · simp [he]

/-- Z of a point is the test on its numbers (R28). -/
theorem zOfPoint_valOf {p : Nat × Nat} (h1 : p.1 < 2 ^ 256) (h2 : p.2 < 2 ^ 256) :
    zOfPoint (valOf p.1) (valOf p.2) = decide (p = (0, 0)) := by
  rw [Bool.eq_iff_iff]
  simp [zOfPoint, val_eq_zero, toNat_valOf h1, toNat_valOf h2, Prod.ext_iff]

/-- A command whose result writes a point commits that point (R23, R28). -/
theorem commitsPair_point {i : Instr} {s : State} {qd : RegNo} {p : Nat × Nat}
    (h : exec i s = .next (s.commit (writePoint qd (valOf p.1) (valOf p.2)))) (h1 : p.1 < 2 ^ 256)
    (h2 : p.2 < 2 ^ 256) : CommitsPair i s qd p.1 p.2 .p (decide (p = (0, 0))) :=
  commitsPair_of h rfl rfl rfl (by rw [← zOfPoint_valOf h1 h2]; rfl) (toNat_valOf h1) (toNat_valOf h2)

/-! ### Codes -/

theorem derCheck_eq_ok {b : Bool} {u : Unit} : derCheck b = .ok u ↔ b = true := by
  cases b <;> simp [derCheck]

theorem derCheck_eq_error {b : Bool} {c : ErrCode} (h : derCheck b = .error c) : c = .derFormat := by
  cases b
  · exact (Except.error.inj h).symm
  · cases h

/-- Every failure of DERDEC's checks has the code `E_DER_FORMAT` (R164). -/
theorem derParse_error {m : Memory} {L : Nat} {c : ErrCode} (h : derParse m L = .error c) : c = .derFormat := by
  simp only [derParse, except_bind_error] at h
  repeat
    rcases h with h | ⟨-, -, h⟩
    · exact derCheck_eq_error h
  cases h

/-- The bytes of a number in SIGBUF, read one by one or as a string. -/
theorem sigNumber_eq (m : Memory) (j n : Nat) : sigNumber m j n = beNat (m.readBytes (sigBase + j) n) := by
  rw [sigNumber, Memory.readBytes_eq]
  congr 1
  apply List.map_congr_left
  intro i _
  rw [Memory.sig, Nat.add_assoc]

/-- DERDEC's checks admit exactly the strings of R164, with the pair they hold. -/
theorem derParse_ok {m : Memory} {L r s : Nat} : derParse m L = .ok (r, s) ↔ DerAccepts m L r s := by
  simp only [derParse, DerAccepts, sigNumber_eq, except_bind_ok, derCheck_eq_ok, exists_const, decide_eq_true_eq,
    beq_iff_eq, Except.ok.injEq, Prod.mk.injEq]
  constructor
  · rintro ⟨h1, h2, h3, h4, h5, ⟨h6, h7⟩, h8, h9, ⟨h10, h11⟩, h12, ⟨h13, h14⟩, rfl, rfl⟩
    exact ⟨_, _, h1, h2, h3, h4, h5, rfl, h6, h7, h8, h9, rfl, h10, h11, h12, rfl, rfl, h13, h14⟩
  · rintro ⟨lr, ls, h1, h2, h3, h4, h5, rfl, h7, h8, h9, h10, rfl, h12, h13, h14, rfl, rfl, h17, h18⟩
    exact ⟨h1, h2, h3, h4, h5, ⟨h7, h8⟩, h9, h10, ⟨h12, h13⟩, h14, ⟨h17, h18⟩, rfl, rfl⟩

/-- The error of every command is one that R201 lists for it. -/
theorem mem_mayRaise_of_error {i : Instr} {o : Inputs} {c : ErrCode} (h : resultOf i o = .error c) :
    c ∈ mayRaise i := by
  have h2 : ∀ {f rd rs1 rs2}, field2Result f rd rs1 rs2 o = .error c → c = .uninit ∨ c = .fieldMismatch := by
    intro f rd rs1 rs2 h
    simp only [field2Result, except_bind_error] at h
    rcases h with h | ⟨x, -, h⟩
    · exact fieldOp2_eq_error h
    · cases h
  have h1 : ∀ {f rd rs1}, field1Result f rd rs1 o = .error c → c = .uninit ∨ c = .fieldMismatch := by
    intro f rd rs1 h
    simp only [field1Result, except_bind_error] at h
    rcases h with h | ⟨x, -, h⟩
    · exact fieldOp1_eq_error h
    · cases h
  have hf : ∀ {t rd rs1}, fredResult t rd rs1 o = .error c → c = .uninit := by
    intro t rd rs1 h
    simp only [fredResult, except_bind_error] at h
    rcases h with h | ⟨x, -, h⟩
    · exact (readOp_eq_error.1 h).2
    · split at h <;> cases h
  cases i with
  | nop => cases h
  | fredRaw rd rs1 => simpa [mayRaise] using hf (t := .raw) (rd := rd) (rs1 := rs1) h
  | fredP rd rs1 => simpa [mayRaise] using hf (t := .p) (rd := rd) (rs1 := rs1) h
  | fredN rd rs1 => simpa [mayRaise] using hf (t := .n) (rd := rd) (rs1 := rs1) h
  | fldi rd imm => cases h
  | ldc rd cid => cases h
  | fadd rd rs1 rs2 => simpa [mayRaise] using h2 h
  | fsub rd rs1 rs2 => simpa [mayRaise] using h2 h
  | fmul rd rs1 rs2 => simpa [mayRaise] using h2 h
  | fdiv rd rs1 rs2 => simpa [mayRaise] using h2 h
  | finv rd rs1 => simpa [mayRaise] using h1 h
  | fneg rd rs1 => simpa [mayRaise] using h1 h
  | fpow rd rs1 rs2 neg =>
    simp only [resultOf, fpowResult, except_bind_error] at h
    rcases h with h | ⟨x, -, h | ⟨y, -, h | ⟨g, -, h⟩⟩⟩
    · simp [mayRaise, (readOp_eq_error.1 h).2]
    · simp [mayRaise, (readOp_eq_error.1 h).2]
    · simp [mayRaise, (asField_eq_error.1 h).2]
    · split at h
      · simp [mayRaise, ← Except.error.inj h]
      · cases h
  | fmod rd rs1 rs2 =>
    simp only [resultOf, fmodResult, except_bind_error] at h
    rcases h with h | ⟨x, -, h | ⟨y, -, h⟩⟩
    · simp [mayRaise, (readOp_eq_error.1 h).2]
    · simp [mayRaise, (readOp_eq_error.1 h).2]
    · split at h
      · simp [mayRaise, ← Except.error.inj h]
      · cases h
  | feq rs1 rs2 =>
    simp only [resultOf, feqResult, except_bind_error] at h
    rcases h with h | ⟨x, -, h | ⟨y, -, h⟩⟩
    · simp [mayRaise, (readOp_eq_error.1 h).2]
    · simp [mayRaise, (readOp_eq_error.1 h).2]
    · cases h
  | ldg qd =>
    simp only [resultOf, ldgResult, except_bind_error] at h
    rcases h with h | ⟨x, -, h⟩
    · simp [mayRaise, requireEven_eq_error h]
    · cases h
  | padd qd qa qb =>
    simp only [resultOf, paddResult, except_bind_error] at h
    rcases h with h | ⟨-, -, h | ⟨p, -, h | ⟨q, -, h | ⟨-, -, h⟩⟩⟩⟩
    · simp [mayRaise, requireEven_eq_error h]
    · simp [mayRaise, readPair_eq_error h]
    · simp [mayRaise, readPair_eq_error h]
    · simp [mayRaise, requireTagP_eq_error h]
    · cases h
  | pmul qd rk qb =>
    simp only [resultOf, pmulResult, except_bind_error] at h
    rcases h with h | ⟨-, -, h | ⟨k, -, h | ⟨p, -, h | ⟨-, -, h⟩⟩⟩⟩
    · simp [mayRaise, requireEven_eq_error h]
    · simp [mayRaise, (readOp_eq_error.1 h).2]
    · simp [mayRaise, readPair_eq_error h]
    · simp [mayRaise, requireTagP_eq_error h]
    · split at h
      · cases h
      · simp [mayRaise, ← Except.error.inj h]
  | derenc rs1 rs2 =>
    simp only [resultOf, derencResult, except_bind_error] at h
    rcases h with h | ⟨x, -, h | ⟨y, -, h⟩⟩
    · simp [mayRaise, (readOp_eq_error.1 h).2]
    · simp [mayRaise, (readOp_eq_error.1 h).2]
    · cases h
  | derdec qd =>
    simp only [resultOf, derdecResult, except_bind_error] at h
    rcases h with h | ⟨-, -, h | ⟨p, -, h⟩⟩
    · simp [mayRaise, requireEven_eq_error h]
    · simp [mayRaise, derParse_error h]
    · cases h
  | nonce rd => cases h

/-! ### NONCE -/

/-- A NONCE turn commits an accepted answer, asks for an answer, or waits (R180). -/
theorem execNonce_cases (rd : RegNo) (s : State) :
    (∃ a k, s.port.ack = some a ∧ acceptedNonce a = some k ∧ exec (.nonce rd) s = .next (s.commit (writeField rd k .n))) ∨
      exec (.nonce rd) s = .next s.requestEntropy ∨ exec (.nonce rd) s = .next s := by
  simp only [exec, execNonce]
  split
  · next a ha =>
    split
    · next k hk => exact .inl ⟨a, k, ha, hk, rfl⟩
    · exact .inr (.inl rfl)
  · split
    · exact .inr (.inr rfl)
    · exact .inr (.inl rfl)

/-- An accepted nonce lies strictly between 0 and N (R180). -/
theorem acceptedNonce_range {a : Answer} {k : Val} (h : acceptedNonce a = some k) :
    a = .bytes k ∧ 0 < k.toNat ∧ k.toNat < Config.N := by
  cases a with
  | insufficient => cases h
  | bytes b =>
    simp only [acceptedNonce] at h
    split at h
    · next hb =>
      obtain rfl := Option.some.inj h
      exact ⟨rfl, hb⟩
    · cases h

/-- What a turn with a command can do, whatever the command: commit a legal effect, abort with a listed code, ask for
entropy, or (NONCE waiting) nothing. -/
theorem exec_cases (i : Instr) (s : State) :
    (∃ e, EffectLegal i s.operands e ∧ exec i s = .next (s.commit e)) ∨
      (∃ c ∈ mayRaise i, exec i s = .next (s.abort c)) ∨
      ∃ rd, i = .nonce rd ∧ (exec i s = .next s.requestEntropy ∨ exec i s = .next s) := by
  by_cases hn : ∃ rd, i = .nonce rd
  · obtain ⟨rd, rfl⟩ := hn
    rcases execNonce_cases rd s with ⟨a, k, -, hk, h⟩ | h
    · refine .inl ⟨_, effectLegal_writeField (by simp [destinations]) rfl ?_, h⟩
      intro m hm
      obtain rfl : Config.N = m := by simpa [Tag.modulus] using hm
      exact (acceptedNonce_range hk).2.2
    · exact .inr (.inr ⟨rd, rfl, h⟩)
  · have hne : ∀ rd, i ≠ .nonce rd := fun rd h => hn ⟨rd, h⟩
    rw [exec_eq hne]
    cases hr : resultOf i s.operands with
    | ok e => exact .inl ⟨e, effectLegal_of_ok hr, rfl⟩
    | error c => exact .inr (.inl ⟨c, mem_mayRaise_of_error hr, rfl⟩)

end Sys2Proof.Machine
end

