-- ==== Sys2Proof/Laws/Bus.lean ====
section
/-! SUPPORT. The address map at the addresses of each window, the two bus operations at a located address, and what a
transaction that ends with OK can do to the state, said once. -/

namespace Sys2Proof.Machine

open Sys2Proof.Safety

/-! ### The address map (R51) -/

theorem locate_valueAddr (i : RegNo) (w : Fin 8) : locate (valueAddr i w) = .ok (.value i w) := by
  revert i w
  decide +kernel

theorem locate_tagAddr (i : RegNo) : locate (tagAddr i) = .ok (.tag i) := by
  revert i
  decide +kernel

theorem locate_sigAddr (w : Fin 18) : locate (sigAddr w) = .ok (.sigWord w) := by
  revert w
  decide +kernel

/-- The addresses that name something are the ones R51 lists. -/
theorem listed_iff (a : Addr) : Listed a ↔ ∃ l, locate a = .ok l := by
  simp only [Listed, locate]
  constructor
  · rintro ⟨h1, h2⟩
    repeat'
      split
    all_goals first | exact ⟨_, rfl⟩ | (exfalso; omega)
  · rintro ⟨l, h⟩
    repeat'
      split at h
    all_goals first | cases h; done | (clear h; omega)

/-- The locations whose writes end with `BUS_ERROR` whatever the data are ID, STATUS, ERRINFO and the tags (R58). -/
def Loc.readOnly : Loc → Bool
  | .id => true
  | .status => true
  | .cmd => false
  | .ctrl => false
  | .errInfo => true
  | .sigLen => false
  | .value _ _ => false
  | .tag _ => true
  | .sigWord _ => false

theorem readOnly_iff {a : Addr} {l : Loc} (h : locate a = .ok l) :
    l.readOnly = true ↔ a ∈ [0x000, 0x004, 0x010] ∨ (0x300 ≤ a.toNat ∧ a.toNat < 0x340) := by
  simp only [locate] at h
  simp only [List.mem_cons, List.not_mem_nil, or_false, ← BitVec.toNat_inj]
  repeat'
    split at h
  all_goals first | cases h; done | (obtain rfl := Except.ok.inj h; simp [Loc.readOnly]; omega)

theorem locate_eq_ctrl {a : Addr} : locate a = .ok .ctrl ↔ a = 0x00C := by
  constructor
  · intro h
    simp only [locate] at h
    rw [← BitVec.toNat_inj]
    repeat'
      split at h
    all_goals first | cases h; done | (clear h; simpa using ‹_›)
  · rintro rfl
    decide

/-- An address that names a word of a value window is the address of that word (R51). -/
theorem locate_eq_value {a : Addr} {i : RegNo} {w : Fin 8} (h : locate a = .ok (.value i w)) : a = valueAddr i w := by
  simp only [locate] at h
  repeat'
    split at h
  all_goals first | cases h; done | skip
  next h4 _ _ _ _ _ _ hr =>
    obtain ⟨rfl, rfl⟩ := Loc.value.inj (Except.ok.inj h)
    have ha := a.isLt
    rw [← BitVec.toNat_inj, valueAddr, BitVec.toNat_ofNat, Fin.val_ofNat, Fin.val_ofNat]
    omega

/-! ### Transactions at a located address -/

theorem busRead_free {a : Addr} {l : Loc} {s : State} (h : locate a = .ok l) (hb : s.busy = true)
    (hg : l.busyGuarded = true) : busRead a s = .next (s.drawBusyRead.2.replyRead s.drawBusyRead.1) := by
  simp [busRead, h, hb, hg]

theorem busRead_idle {a : Addr} {l : Loc} {s : State} (h : locate a = .ok l)
    (hb : s.busy = false ∨ l.busyGuarded = false) : busRead a s = .next (s.replyRead (readLoc s l)) := by
  rcases hb with hb | hb <;> simp [busRead, h, hb]

theorem busWrite_ok {a : Addr} {v : Word} {l : Loc} {s t : State} (h : locate a = .ok l)
    (hw : writeLoc s a v l = .ok t) : busWrite a v s = .next t.replyWrite := by
  simp [busWrite, h, hw]

theorem busWrite_fault {a : Addr} {v : Word} {l : Loc} {s : State} {f : Fault} (h : locate a = .ok l)
    (hw : writeLoc s a v l = .error f) : busWrite a v s = .fault f := by
  simp [busWrite, h, hw]

theorem extract_ctrl_eq_zero (v : Word) : v.extractLsb' 1 31 = 0 ↔ v.toNat < 2 := by
  have := v.isLt
  rw [← BitVec.toNat_inj, BitVec.extractLsb'_toNat, Nat.shiftRight_eq_div_pow]
  change _ = 0 ↔ _
  omega

theorem writeCtrl_error {s : State} {v : Word} (h : 2 ≤ v.toNat) : s.writeCtrl v = .error (.busCtrlReserved v) := by
  have : v.extractLsb' 1 31 ≠ 0 := fun e => by
    have := (extract_ctrl_eq_zero v).1 e
    omega
  rw [State.writeCtrl, if_pos this]

theorem writeCtrl_ok {s : State} {v : Word} (h : v.toNat < 2) :
    s.writeCtrl v = .ok (if v = 1 then s.clearErrors else s) := by
  have := (extract_ctrl_eq_zero v).2 h
  simp only [State.writeCtrl, this, ne_eq, not_true, if_false]
  split <;> rfl

theorem State.writeValueWord_idle {s : State} (h : s.busy = false) (i : RegNo) (w : Fin 8) (v : Word) :
    s.writeValueWord i w v = { s with regs := setReg s.regs i ⟨replaceWord (s.reg i).val w v, .raw⟩ } := by
  simp [State.writeValueWord, h]

theorem State.writeValueWord_busy {s : State} (h : s.busy = true) (i : RegNo) (w : Fin 8) (v : Word) :
    s.writeValueWord i w v = s.protocolError := by
  simp [State.writeValueWord, h]

theorem State.writeSigWord_idle {s : State} (h : s.busy = false) (w : Fin 18) (v : Word) :
    s.writeSigWord w v = { s with sigBuf := Memory.writeBytes s.sigBuf (sigWordAddr w) (bytesOfWord v) } := by
  simp [State.writeSigWord, h]

theorem State.writeSigWord_busy {s : State} (h : s.busy = true) (w : Fin 18) (v : Word) :
    s.writeSigWord w v = s.protocolError := by
  simp [State.writeSigWord, h]

theorem State.writeSigLen_idle {s : State} {v : Word} (h : s.busy = false) (hv : v.toNat ≤ 72) :
    s.writeSigLen v = { s with sigLen := v.setWidth 7 } := by
  have : ¬(s.busy || decide (72 < v.toNat)) = true := by simp [h, hv]
  rw [State.writeSigLen, if_neg this]

theorem State.writeSigLen_error {s : State} {v : Word} (h : 72 < v.toNat ∨ s.busy = true) :
    s.writeSigLen v = s.protocolError := by
  rw [State.writeSigLen, if_pos]
  rcases h with h | h <;> simp [h]

theorem State.offer_idle {s : State} (hb : s.busy = false) (he : s.err = none) (hh : s.herr = false) (w : Word) :
    s.offer w = s.launch w := by
  simp [State.offer, hb, he, hh]

theorem State.offer_error {s : State} (h : s.busy = true ∨ s.err ≠ none ∨ s.herr = true) (w : Word) :
    s.offer w = s.protocolError := by
  rw [State.offer, if_pos]
  rcases h with h | h | h
  · simp [h]
  · simp [Option.isSome_iff_ne_none, h]
  · simp [h]

/-- A write fails exactly at a read-only location and for a reserved bit of CTRL (R58). -/
theorem writeLoc_error_iff {s : State} {a : Addr} {v : Word} {l : Loc} :
    (∃ f, writeLoc s a v l = .error f) ↔ l.readOnly = true ∨ (l = .ctrl ∧ 2 ≤ v.toNat) := by
  cases l <;> simp [writeLoc, Loc.readOnly]
  by_cases h : 2 ≤ v.toNat
  · simp [writeCtrl_error h, h]
  · simp [writeCtrl_ok (Nat.lt_of_not_le h), h]

/-! ### What a transaction that ends with OK can do -/

/-- A read changes nothing but the reply, and in the free case the counter of free values. -/
theorem busRead_cases {a : Addr} {s t : State} (h : busRead a s = .next t) :
    ∃ l, locate a = .ok l ∧
      ((s.busy = true ∧ l.busyGuarded = true ∧ t = s.drawBusyRead.2.replyRead s.drawBusyRead.1) ∨
        ((s.busy = false ∨ l.busyGuarded = false) ∧ t = s.replyRead (readLoc s l))) := by
  cases hl : locate a with
  | error f => simp [busRead, hl] at h
  | ok l =>
    refine ⟨l, rfl, ?_⟩
    by_cases hb : s.busy = true ∧ l.busyGuarded = true
    · rw [busRead_free hl hb.1 hb.2] at h
      exact .inl ⟨hb.1, hb.2, (Host.Outcome.next.inj h).symm⟩
    · have hb' : s.busy = false ∨ l.busyGuarded = false := by
        simpa [imp_iff_not_or] using hb
      rw [busRead_idle hl hb'] at h
      exact .inr ⟨hb', (Host.Outcome.next.inj h).symm⟩

/-- A write that ends with OK: a command is launched, a protocol error is recorded, errors are cleared, nothing happens,
or the value word the address names, SIGBUF or SIGLEN is written while the engine is not busy. -/
theorem busWrite_cases {a : Addr} {v : Word} {s t : State} (h : busWrite a v s = .next t) :
    ∃ u, t = State.replyWrite u ∧
      ((a = 0x008 ∧ s.busy = false ∧ s.err = none ∧ s.herr = false ∧ u = s.launch v) ∨ u = s.protocolError ∨
        (a = 0x00C ∧ v = 1 ∧ u = s.clearErrors) ∨ u = s ∨
        (∃ i w, a = valueAddr i w ∧ s.busy = false ∧
          u = { s with regs := setReg s.regs i ⟨replaceWord (s.reg i).val w v, .raw⟩ }) ∨
        (∃ w, s.busy = false ∧ u = { s with sigBuf := Memory.writeBytes s.sigBuf (sigWordAddr w) (bytesOfWord v) }) ∨
        (s.busy = false ∧ v.toNat ≤ 72 ∧ u = { s with sigLen := v.setWidth 7 })) := by
  cases hl : locate a with
  | error f => simp [busWrite, hl] at h
  | ok l =>
    cases hw : writeLoc s a v l with
    | error f => simp [busWrite, hl, hw] at h
    | ok u =>
      rw [busWrite_ok hl hw] at h
      refine ⟨u, (Host.Outcome.next.inj h).symm, ?_⟩
      cases l with
      | id => cases hw
      | status => cases hw
      | errInfo => cases hw
      | tag i => cases hw
      | cmd =>
        obtain rfl := Except.ok.inj hw
        have ha : a = 0x008 := by
          clear hw h
          simp only [locate] at hl
          rw [← BitVec.toNat_inj]
          repeat'
            split at hl
          all_goals first | cases hl; done | (clear hl; simpa using ‹_›)
        by_cases hc : s.busy = true ∨ s.err ≠ none ∨ s.herr = true
        · exact .inr (.inl (State.offer_error hc v))
        · simp only [not_or, Bool.not_eq_true, ne_eq, not_not] at hc
          exact .inl ⟨ha, hc.1, hc.2.1, hc.2.2, State.offer_idle hc.1 hc.2.1 hc.2.2 v⟩
      | ctrl =>
        simp only [writeLoc] at hw
        by_cases hv : 2 ≤ v.toNat
        · rw [writeCtrl_error hv] at hw
          cases hw
        · rw [writeCtrl_ok (Nat.lt_of_not_le hv)] at hw
          obtain rfl := Except.ok.inj hw
          split
          · next h1 => exact .inr (.inr (.inl ⟨locate_eq_ctrl.1 hl, h1, rfl⟩))
          · exact .inr (.inr (.inr (.inl rfl)))
      | sigLen =>
        obtain rfl := Except.ok.inj hw
        by_cases hc : 72 < v.toNat ∨ s.busy = true
        · exact .inr (.inl (State.writeSigLen_error hc))
        · simp only [not_or, Nat.not_lt, Bool.not_eq_true] at hc
          exact .inr (.inr (.inr (.inr (.inr (.inr ⟨hc.2, hc.1, State.writeSigLen_idle hc.2 hc.1⟩)))))
      | value i w =>
        obtain rfl := Except.ok.inj hw
        cases hc : s.busy with
        | true => exact .inr (.inl (State.writeValueWord_busy hc i w v))
        | false => exact .inr (.inr (.inr (.inr (.inl ⟨i, w, locate_eq_value hl, rfl, hc ▸ State.writeValueWord_idle hc i w v⟩))))
      | sigWord w =>
        obtain rfl := Except.ok.inj hw
        cases hc : s.busy with
        | true => exact .inr (.inl (State.writeSigWord_busy hc w v))
        | false => exact .inr (.inr (.inr (.inr (.inr (.inl ⟨w, rfl, hc ▸ State.writeSigWord_idle hc w v⟩)))))

/-! ### One word of a value -/

/-- The bits of the mask of one word. -/
theorem getLsbD_wordMask (i : Nat) : (0xFFFFFFFF : Val).getLsbD i = decide (i < 32) := by
  have e : (0xFFFFFFFF : Val) = (BitVec.allOnes 32).setWidth 256 := by decide
  rw [e, BitVec.getLsbD_setWidth, BitVec.getLsbD_allOnes]
  by_cases h : i < 32
  · simp [h, show i < 256 by omega]
  · simp [h]

/-- Replacing a word of a value: that word is the new one and the others are kept (R55). -/
theorem extract_replaceWord (v : Val) (w u : Fin 8) (x : Word) :
    (replaceWord v w x).extractLsb' (224 - 32 * u.val) 32 =
      if u = w then x else v.extractLsb' (224 - 32 * u.val) 32 := by
  have h := getLsbD_wordMask
  unfold replaceWord
  generalize (0xFFFFFFFF : Val) = mask at h ⊢
  apply BitVec.eq_of_getLsbD_eq
  intro i hi
  have hu := u.isLt
  have hw := w.isLt
  have hlt : 224 - 32 * u.val + i < 256 := by omega
  simp only [BitVec.getLsbD_extractLsb', BitVec.getLsbD_or, BitVec.getLsbD_and, BitVec.getLsbD_not,
    BitVec.getLsbD_shiftLeft, BitVec.getLsbD_setWidth, h, hi, hlt, decide_true, Bool.true_and]
  by_cases huw : u = w
  · subst huw
    have e : 224 - 32 * u.val + i - (224 - 32 * u.val) = i := by omega
    simp [e, hi, show i < 256 by omega]
  · have hne : u.val ≠ w.val := fun e => huw (Fin.ext e)
    rw [if_neg huw, BitVec.getLsbD_extractLsb']
    rcases Nat.lt_or_gt_of_ne hne with hlt | hlt
    · have e : 32 ≤ 224 - 32 * u.val + i - (224 - 32 * w.val) := by omega
      simp [hi, BitVec.getLsbD_of_ge x _ e, Nat.not_lt.2 e]
    · simp [hi, show 224 - 32 * u.val + i < 224 - 32 * w.val by omega]

end Sys2Proof.Machine
end

