-- ==== Sys2Proof/Laws/Codec.lean ====
section
/-! SUPPORT. The fields of a command word: taking a word apart and putting it together are inverse to each other. -/

namespace Sys2Proof

@[simp] theorem regOfBits_bitsOfReg (r : RegNo) : regOfBits (bitsOfReg r) = r := by
  revert r
  decide

@[simp] theorem bitsOfReg_regOfBits (b : BitVec 4) : bitsOfReg (regOfBits b) = b := by
  simp [bitsOfReg, regOfBits]

/-- The bits of a concatenation, taken out of its low part. -/
theorem extractLsb'_append_low {a b : Nat} (x : BitVec a) (y : BitVec b) {lo n : Nat} (h : lo + n ≤ b) :
    (x ++ y).extractLsb' lo n = y.extractLsb' lo n := by
  ext i hi
  simp only [BitVec.getElem_extractLsb', BitVec.getLsbD_append]
  rw [if_pos (by omega)]

/-- The bits of a concatenation, taken out of its high part. -/
theorem extractLsb'_append_high {a b : Nat} (x : BitVec a) (y : BitVec b) {lo n : Nat} (h : b ≤ lo) :
    (x ++ y).extractLsb' lo n = x.extractLsb' (lo - b) n := by
  ext i hi
  simp only [BitVec.getElem_extractLsb', BitVec.getLsbD_append]
  rw [if_neg (by omega)]
  congr 1
  omega

theorem extractLsb'_self {n : Nat} (x : BitVec n) : x.extractLsb' 0 n = x := by
  ext i hi
  simp

/-- The fields of a packed word are the fields it was packed from (R70). -/
@[simp] theorem fieldsOf_packFields (f : Fields) : fieldsOf (packFields f) = f := by
  obtain ⟨opc, rd, rs1, rs2, msel, imm⟩ := f
  simp only [fieldsOf, packFields, Fields.mk.injEq]
  refine ⟨?_, ?_, ?_, ?_, ?_, ?_⟩
  · repeat rw [extractLsb'_append_high _ _ (by decide)]
    exact extractLsb'_self opc
  · repeat rw [extractLsb'_append_high _ _ (by decide)]
    rw [extractLsb'_append_low _ _ (by decide), extractLsb'_self, regOfBits_bitsOfReg]
  · repeat rw [extractLsb'_append_high _ _ (by decide)]
    rw [extractLsb'_append_low _ _ (by decide), extractLsb'_self, regOfBits_bitsOfReg]
  · repeat rw [extractLsb'_append_high _ _ (by decide)]
    rw [extractLsb'_append_low _ _ (by decide), extractLsb'_self, regOfBits_bitsOfReg]
  · rw [extractLsb'_append_high _ _ (by decide), extractLsb'_append_low _ _ (by decide), extractLsb'_self]
  · rw [extractLsb'_append_low _ _ (by decide), extractLsb'_self]

/-- A word is packed from its fields (R70: the fields cover all 32 bits). -/
@[simp] theorem packFields_fieldsOf (w : Word) : packFields (fieldsOf w) = w := by
  simp only [fieldsOf, packFields, bitsOfReg_regOfBits]
  apply BitVec.eq_of_getLsbD_eq
  intro i hi
  simp only [BitVec.getLsbD_append, BitVec.getLsbD_extractLsb']
  repeat' split
  all_goals
    rw [decide_eq_true (by omega), Bool.true_and]
    congr 1
    omega

theorem packFields_injective {f g : Fields} (h : packFields f = packFields g) : f = g := by
  rw [← fieldsOf_packFields f, h, fieldsOf_packFields]

theorem decode_packFields (f : Fields) : decode (packFields f) = decodeFields f := by
  rw [decode, fieldsOf_packFields]

theorem encode_eq (i : Instr) : encode i = packFields (fieldsOfInstr i) := rfl

/-- No two rows of the match and mask table overlap: they differ in a bit that both look at. -/
theorem opcodeRows_disjoint :
    opcodeRows.Pairwise fun a b => a.1 &&& (a.2 &&& b.2) ≠ b.1 &&& (a.2 &&& b.2) := by
  simp only [opcodeRows]
  decide

end Sys2Proof
end

