-- ==== Sys2Proof/Laws/Der.lean ====
section
/-! SUPPORT. Byte strings and the DER string: `beBytes` and `beNat` are inverse (R8), the machine's string is the one of
the claims, its parts lie where R164 looks for them, and how SIGBUF reads after DERENC (R160, R162). -/

namespace Sys2Proof.Machine

open Sys2Proof.Safety

/-! ### Big-endian strings -/

theorem beBytes_eq (n v : Nat) :
    beBytes n v = (List.range n).map fun i => BitVec.ofNat 8 (v / 256 ^ (n - 1 - i)) := by
  induction n with
  | zero => rfl
  | succ n ih =>
    rw [beBytes, ih, List.range_succ_eq_map, List.map_cons, List.map_map]
    congr 1
    apply List.map_congr_left
    intro i hi
    simp only [Function.comp]
    congr 3
    omega

theorem beBytes_32 (v : Nat) : beBytes 32 v = be32Spec v := by
  rw [beBytes_eq, be32Spec]
  apply List.map_congr_left
  intro i hi
  rw [List.mem_range] at hi
  rw [show 256 = 2 ^ 8 from rfl, ← pow_mul]
  congr 3
  omega

theorem length_be32Spec (v : Nat) : (be32Spec v).length = 32 := by simp [be32Spec]

theorem foldl_bytes (l : List Byte) (x : Nat) :
    l.foldl (fun acc b => acc * 256 + b.toNat) x = x * 256 ^ l.length + beNat l := by
  induction l generalizing x with
  | nil => simp [beNat]
  | cons c l ih =>
    have h0 : beNat (c :: l) = (0 * 256 + c.toNat) * 256 ^ l.length + beNat l := ih _
    rw [List.foldl_cons, ih, h0, List.length_cons]
    ring

theorem beNat_cons (b : Byte) (l : List Byte) : beNat (b :: l) = b.toNat * 256 ^ l.length + beNat l := by
  rw [beNat, List.foldl_cons, foldl_bytes]
  simp

/-- Reading back what `be_n` wrote (R8). -/
theorem beNat_beBytes (n v : Nat) : beNat (beBytes n v) = v % 256 ^ n := by
  induction n with
  | zero => simp [beBytes, beNat, Nat.mod_one]
  | succ n ih =>
    rw [beBytes, beNat_cons, ih, length_beBytes, BitVec.toNat_ofNat, show 2 ^ 8 = 256 from rfl,
      pow_succ, Nat.mod_mul, Nat.mul_comm, Nat.add_comm]

theorem beNat_be32Spec {v : Nat} (h : v < 2 ^ 256) : beNat (be32Spec v) = v := by
  rw [← beBytes_32, beNat_beBytes, show 256 ^ 32 = 2 ^ 256 from rfl, Nat.mod_eq_of_lt h]

/-! ### The DER string -/

/-- The body of a DER INTEGER (R160): the magnitude, with the pad byte when its high bit is set. -/
def derBody (v : Nat) : List Byte := if 2 ^ 255 ≤ v then 0x00 :: be32Spec v else be32Spec v

theorem length_derBody (v : Nat) : (derBody v).length = 32 + if 2 ^ 255 ≤ v then 1 else 0 := by
  simp only [derBody]
  split <;> simp [length_be32Spec]

theorem beNat_derBody {v : Nat} (h : v < 2 ^ 256) : beNat (derBody v) = v := by
  simp only [derBody]
  split
  · rw [beNat_cons, beNat_be32Spec h]
    simp
  · exact beNat_be32Spec h

/-- The high bit of the first byte is the high bit of the value. -/
theorem pad_iff {v : Nat} (h : v < 2 ^ 256) : 0x80 ≤ ((beBytes 32 v).headD 0).toNat ↔ 2 ^ 255 ≤ v := by
  change 128 ≤ (BitVec.ofNat 8 (v / 256 ^ 31)).toNat ↔ _
  rw [BitVec.toNat_ofNat]
  norm_num at *
  omega

theorem derInt_eq {v : Nat} (h : v < 2 ^ 256) :
    derInt v = 0x02 :: BitVec.ofNat 8 (derBody v).length :: derBody v := by
  by_cases hp : 2 ^ 255 ≤ v
  · rw [derInt, if_pos ((pad_iff h).2 hp), derBody, if_pos hp, beBytes_32]
  · rw [derInt, if_neg (mt (pad_iff h).1 hp), derBody, if_neg hp, beBytes_32]

theorem derInt_eq_spec {v : Nat} (h : v < 2 ^ 256) : derInt v = derIntSpec v := by
  rw [derInt_eq h, length_derBody]
  by_cases hp : 2 ^ 255 ≤ v
  · rw [derIntSpec, derBody, if_pos hp, if_pos hp, if_pos hp]
    rfl
  · rw [derIntSpec, derBody, if_neg hp, if_neg hp, if_neg hp]
    rfl

/-- The string the machine writes is the string of R160. -/
theorem derSeq_eq_spec {r s : Nat} (hr : r < 2 ^ 256) (hs : s < 2 ^ 256) : derSeq r s = derSeqSpec r s := by
  have hl : (derIntSpec r ++ derIntSpec s).length = derLenSpec r s - 2 := by
    rw [List.length_append, ← derInt_eq_spec hr, ← derInt_eq_spec hs, derInt_eq hr, derInt_eq hs]
    simp only [List.length_cons, length_derBody, derLenSpec]
    omega
  rw [derSeq, derSeqSpec, derInt_eq_spec hr, derInt_eq_spec hs, hl]
  rfl

/-- The parts of the string: header and first INTEGER, then the second INTEGER. -/
theorem derSeq_parts {r s : Nat} (hr : r < 2 ^ 256) (hs : s < 2 ^ 256) :
    derSeq r s =
      [0x30, BitVec.ofNat 8 ((derSeq r s).length - 2), 0x02, BitVec.ofNat 8 (derBody r).length] ++ derBody r ++
        ([0x02, BitVec.ofNat 8 (derBody s).length] ++ derBody s) := by
  have hl : (derSeq r s).length - 2 = (derInt r ++ derInt s).length := by simp [derSeq]
  rw [hl]
  conv_lhs => rw [derSeq]
  rw [derInt_eq hr, derInt_eq hs]
  simp

/-- A middle part of a string, read by position. -/
theorem map_getD_middle (pre b post : List Byte) :
    ((List.range b.length).map fun i => (pre ++ b ++ post).getD (pre.length + i) 0) = b := by
  apply List.ext_getElem
  · simp
  · intro i h1 h2
    simp [List.getD_eq_getElem?_getD, List.getElem?_append, h2]

/-! ### SIGBUF after DERENC -/

/-- SIGBUF after DERENC: the string, then zeros; every other address as before (R160, R162). -/
theorem read_writeDer {m : Memory} (hm : m.wf = true) {d : List Byte} (hd : d.length ≤ 72) (a : Nat) :
    ((writeDer d).sigBuf m).read a =
      if sigBase ≤ a ∧ a < sigBase + 72 then d.getD (a - sigBase) 0 else m.read a := by
  have hl : (d ++ List.replicate (sigSize - d.length) (0 : Byte)).length = 72 := by
    simp only [List.length_append, List.length_replicate, sigSize]
    omega
  simp only [writeDer, Effect.sigBuf]
  rw [Memory.read_writeBytes hm, hl]
  split
  · simp only [List.getD_eq_getElem?_getD, List.getElem?_append, List.getElem?_replicate]
    by_cases h : a - sigBase < d.length
    · rw [if_pos h]
    · rw [if_neg h, List.getElem?_eq_none (by omega)]
      split <;> rfl
  · rfl

theorem sig_writeDer {m : Memory} (hm : m.wf = true) {d : List Byte} (hd : d.length ≤ 72) {j : Nat} (hj : j < 72) :
    ((writeDer d).sigBuf m).sig j = d.getD j 0 := by
  rw [Memory.sig, read_writeDer hm hd, if_pos (by omega), Nat.add_sub_cancel_left]

theorem sigLen_writeDer {d : List Byte} (hd : d.length ≤ 72) (n : BitVec 7) :
    ((writeDer d).sigLen n).toNat = d.length := by
  simp only [Effect.sigLen, writeDer, BitVec.toNat_ofNat]
  omega

end Sys2Proof.Machine
end

