-- ==== Sys2Proof/Laws/PerInstr.lean ====
section
/-! SUPPORT. The per-instruction family EncodedRow: the word of a command meets the match and mask of its row
(30_encoding.md R78). -/

namespace Sys2Proof.Laws.EncodedRow

/-- The word of a well-formed command meets its row of R78. -/
def Statement (i : Instr) : Prop := i.WellFormed = true → encode i &&& i.maskWord = i.matchWord

/-- Masking a packed word masks each of its fields (R70). -/
theorem packFields_and (f : Fields) {o : BitVec 8} {a b c m : BitVec 4} {k : Byte} {mask : Word}
    (h : mask = o ++ a ++ b ++ c ++ m ++ k) :
    packFields f &&& mask =
      (f.opc &&& o) ++ (bitsOfReg f.rd &&& a) ++ (bitsOfReg f.rs1 &&& b) ++ (bitsOfReg f.rs2 &&& c) ++ (f.msel &&& m)
        ++ (f.imm &&& k) := by
  subst h
  simp only [packFields]
  apply BitVec.eq_of_getLsbD_eq
  intro i hi
  simp only [BitVec.getLsbD_and, BitVec.getLsbD_append]
  repeat' split
  all_goals rfl

/-- The low bit of an even register number is 0. -/
theorem bitsOfReg_and_one {q : RegNo} (h : evenPair q = true) : bitsOfReg q &&& 1 = 0 := by
  revert q
  decide

theorem nop : Statement (.nop) := by
  intro _
  decide

theorem fredRaw (rd : RegNo) (rs1 : RegNo) : Statement (.fredRaw rd rs1) := by
  intro _
  refine (packFields_and _ (o := 255) (a := 0) (b := 0) (c := 15) (m := 15) (k := 255) rfl).trans ?_
  simp [fieldsOfInstr, Instr.matchWord, bitsOfReg]

theorem fredP (rd : RegNo) (rs1 : RegNo) : Statement (.fredP rd rs1) := by
  intro _
  refine (packFields_and _ (o := 255) (a := 0) (b := 0) (c := 15) (m := 15) (k := 255) rfl).trans ?_
  simp [fieldsOfInstr, Instr.matchWord, bitsOfReg]

theorem fredN (rd : RegNo) (rs1 : RegNo) : Statement (.fredN rd rs1) := by
  intro _
  refine (packFields_and _ (o := 255) (a := 0) (b := 0) (c := 15) (m := 15) (k := 255) rfl).trans ?_
  simp [fieldsOfInstr, Instr.matchWord, bitsOfReg]

theorem fldi (rd : RegNo) (imm : Byte) : Statement (.fldi rd imm) := by
  intro _
  refine (packFields_and _ (o := 255) (a := 0) (b := 15) (c := 15) (m := 15) (k := 0) rfl).trans ?_
  simp [fieldsOfInstr, Instr.matchWord, bitsOfReg]

theorem ldc (rd : RegNo) (cid : ConstId) : Statement (.ldc rd cid) := by
  intro _
  refine (packFields_and _ (o := 255) (a := 0) (b := 15) (c := 15) (m := 15) (k := 252) rfl).trans ?_
  cases cid <;> simp [fieldsOfInstr, Instr.matchWord, bitsOfReg, ConstId.code]

theorem fadd (rd : RegNo) (rs1 : RegNo) (rs2 : RegNo) : Statement (.fadd rd rs1 rs2) := by
  intro _
  refine (packFields_and _ (o := 255) (a := 0) (b := 0) (c := 0) (m := 15) (k := 255) rfl).trans ?_
  simp [fieldsOfInstr, Instr.matchWord, bitsOfReg]

theorem fsub (rd : RegNo) (rs1 : RegNo) (rs2 : RegNo) : Statement (.fsub rd rs1 rs2) := by
  intro _
  refine (packFields_and _ (o := 255) (a := 0) (b := 0) (c := 0) (m := 15) (k := 255) rfl).trans ?_
  simp [fieldsOfInstr, Instr.matchWord, bitsOfReg]

theorem fmul (rd : RegNo) (rs1 : RegNo) (rs2 : RegNo) : Statement (.fmul rd rs1 rs2) := by
  intro _
  refine (packFields_and _ (o := 255) (a := 0) (b := 0) (c := 0) (m := 15) (k := 255) rfl).trans ?_
  simp [fieldsOfInstr, Instr.matchWord, bitsOfReg]

theorem fdiv (rd : RegNo) (rs1 : RegNo) (rs2 : RegNo) : Statement (.fdiv rd rs1 rs2) := by
  intro _
  refine (packFields_and _ (o := 255) (a := 0) (b := 0) (c := 0) (m := 15) (k := 255) rfl).trans ?_
  simp [fieldsOfInstr, Instr.matchWord, bitsOfReg]

theorem finv (rd : RegNo) (rs1 : RegNo) : Statement (.finv rd rs1) := by
  intro _
  refine (packFields_and _ (o := 255) (a := 0) (b := 0) (c := 15) (m := 15) (k := 255) rfl).trans ?_
  simp [fieldsOfInstr, Instr.matchWord, bitsOfReg]

theorem fpow (rd : RegNo) (rs1 : RegNo) (rs2 : RegNo) (neg : Bool) : Statement (.fpow rd rs1 rs2 neg) := by
  intro _
  refine (packFields_and _ (o := 255) (a := 0) (b := 0) (c := 0) (m := 15) (k := 254) rfl).trans ?_
  cases neg <;> simp [fieldsOfInstr, Instr.matchWord]

theorem fneg (rd : RegNo) (rs1 : RegNo) : Statement (.fneg rd rs1) := by
  intro _
  refine (packFields_and _ (o := 255) (a := 0) (b := 0) (c := 15) (m := 15) (k := 255) rfl).trans ?_
  simp [fieldsOfInstr, Instr.matchWord, bitsOfReg]

theorem fmod (rd : RegNo) (rs1 : RegNo) (rs2 : RegNo) : Statement (.fmod rd rs1 rs2) := by
  intro _
  refine (packFields_and _ (o := 255) (a := 0) (b := 0) (c := 0) (m := 15) (k := 255) rfl).trans ?_
  simp [fieldsOfInstr, Instr.matchWord, bitsOfReg]

theorem feq (rs1 : RegNo) (rs2 : RegNo) : Statement (.feq rs1 rs2) := by
  intro _
  refine (packFields_and _ (o := 255) (a := 15) (b := 0) (c := 0) (m := 15) (k := 255) rfl).trans ?_
  simp [fieldsOfInstr, Instr.matchWord, bitsOfReg]

theorem ldg (qd : RegNo) : Statement (.ldg qd) := by
  intro h
  simp only [Instr.WellFormed, Instr.pairFields, List.all_cons, List.all_nil, Bool.and_true] at h
  refine (packFields_and _ (o := 255) (a := 1) (b := 15) (c := 15) (m := 15) (k := 255) rfl).trans ?_
  simp only [fieldsOfInstr, Instr.matchWord, bitsOfReg_and_one h]
  decide

theorem padd (qd : RegNo) (qa : RegNo) (qb : RegNo) : Statement (.padd qd qa qb) := by
  intro h
  simp only [Instr.WellFormed, Instr.pairFields, List.all_cons, List.all_nil, Bool.and_true, Bool.and_eq_true] at h
  refine (packFields_and _ (o := 255) (a := 1) (b := 1) (c := 1) (m := 15) (k := 255) rfl).trans ?_
  simp only [fieldsOfInstr, Instr.matchWord, bitsOfReg_and_one h.1, bitsOfReg_and_one h.2.1, bitsOfReg_and_one h.2.2]
  decide

theorem pmul (qd : RegNo) (rk : RegNo) (qb : RegNo) : Statement (.pmul qd rk qb) := by
  intro h
  simp only [Instr.WellFormed, Instr.pairFields, List.all_cons, List.all_nil, Bool.and_true, Bool.and_eq_true] at h
  refine (packFields_and _ (o := 255) (a := 1) (b := 0) (c := 1) (m := 15) (k := 255) rfl).trans ?_
  simp only [fieldsOfInstr, Instr.matchWord, bitsOfReg_and_one h.1, bitsOfReg_and_one h.2]
  revert rk
  decide

theorem derenc (rs1 : RegNo) (rs2 : RegNo) : Statement (.derenc rs1 rs2) := by
  intro _
  refine (packFields_and _ (o := 255) (a := 15) (b := 0) (c := 0) (m := 15) (k := 255) rfl).trans ?_
  simp [fieldsOfInstr, Instr.matchWord, bitsOfReg]

theorem derdec (qd : RegNo) : Statement (.derdec qd) := by
  intro h
  simp only [Instr.WellFormed, Instr.pairFields, List.all_cons, List.all_nil, Bool.and_true] at h
  refine (packFields_and _ (o := 255) (a := 1) (b := 15) (c := 15) (m := 15) (k := 255) rfl).trans ?_
  simp only [fieldsOfInstr, Instr.matchWord, bitsOfReg_and_one h]
  decide

theorem nonce (rd : RegNo) : Statement (.nonce rd) := by
  intro _
  refine (packFields_and _ (o := 255) (a := 0) (b := 15) (c := 15) (m := 15) (k := 255) rfl).trans ?_
  simp [fieldsOfInstr, Instr.matchWord, bitsOfReg]

end Sys2Proof.Laws.EncodedRow
end

