-- ==== Sys2Proof/Laws/Points.lean ====
section
/-! SUPPORT. The point arithmetic of the machine is the point arithmetic of the claims (R141, R143). -/

namespace Sys2Proof.Machine

open Sys2Proof.Safety

/-- `padd` is the formula of R141 written with plain powers. -/
theorem padd_eq_spec (p q : Nat × Nat) : padd p q = paddSpec p q := by
  unfold padd paddSpec chordPoint Machine.slope residue divSpec invSpec subMod
  simp only [divMod_eq, Prod.ext_iff]

/-- The bit loop is the fold over its bit numbers (R143). -/
theorem scalarLoop_eq (k : Nat) :
    ∀ left i acc b, scalarLoop k left i acc b = ((List.range' i left).foldl (scalarBit k) (acc, b)).1 := by
  intro left
  induction left with
  | zero => intros; rfl
  | succ n ih =>
    intro i acc b
    rw [List.range'_succ, List.foldl_cons, scalarLoop, ih]
    congr 2
    simp only [scalarBit, padd_eq_spec, Prod.ext_iff]

/-- `scalarmul` is the algorithm of R143 written as a fold. -/
theorem scalarmul_eq_spec (k : Nat) (b : Nat × Nat) : scalarmul k b = scalarmulSpec k b := by
  rw [scalarmul, scalarLoop_eq, scalarmulSpec, List.range_eq_range']

/-- The coordinates of a product fit a register when those of the base do. -/
theorem scalarmul_lt_word {k : Nat} {b : Nat × Nat} (h1 : b.1 < 2 ^ 256) (h2 : b.2 < 2 ^ 256) :
    (scalarmul k b).1 < 2 ^ 256 ∧ (scalarmul k b).2 < 2 ^ 256 :=
  scalarmul_induction (C := fun p => p.1 < 2 ^ 256 ∧ p.2 < 2 ^ 256)
    (fun p q => ⟨(padd_lt p q).1.trans P_lt, (padd_lt p q).2.trans P_lt⟩) (by decide) k ⟨h1, h2⟩

/-- Bits of the scalar that are 0 leave the accumulator. -/
theorem foldl_scalarBit_of_zero {k : Nat} {l : List Nat} (h : ∀ i ∈ l, k.testBit i = false)
    (st : (Nat × Nat) × (Nat × Nat)) : (l.foldl (scalarBit k) st).1 = st.1 := by
  induction l generalizing st with
  | nil => rfl
  | cons a l ih =>
    rw [List.foldl_cons, ih (fun i hi => h i (List.mem_cons_of_mem _ hi))]
    simp [scalarBit, h a]

/-- The doubling formula takes the sentinel to itself (R141). -/
theorem paddSpec_zero : paddSpec (0, 0) (0, 0) = (0, 0) := by
  rw [← padd_eq_spec]
  decide +kernel

end Sys2Proof.Machine
end

