-- ==== Sys2Proof/Laws/Primality.lean ====
section
/-! SUPPORT. P and N are prime (10_state.md R33 calls P the field prime, and N is the order of the group), by the test
of Lucas with the factors of each predecessor. -/

namespace Sys2Proof.Machine

-- One theorem after the other: many evaluations at once take a thread each.
set_option Elab.async false

/-- Lucas' test over `powMod`: a number with a primitive root is prime. -/
theorem prime_of_root {p : Nat} (a : Nat) (qs : List Nat) (hp : 1 < p) (hq : ∀ q ∈ qs, q.Prime)
    (hprod : qs.prod = p - 1) (h1 : powMod a (p - 1) p = 1) (h2 : ∀ q ∈ qs, powMod a ((p - 1) / q) p ≠ 1) :
    p.Prime := by
  have key : ∀ e, ((a : ZMod p) ^ e = 1 ↔ powMod a e p = 1) := by
    intro e
    rw [powMod_eq, ← Nat.cast_one, ← Nat.cast_pow, ZMod.natCast_eq_natCast_iff, Nat.ModEq, Nat.mod_eq_of_lt hp]
  refine lucas_primality p (a : ZMod p) ((key _).2 h1) fun q hqp hqd h => ?_
  obtain ⟨r, hr, hqr⟩ := (hqp.prime.dvd_prod_iff).1 (hprod ▸ hqd)
  obtain rfl := (Nat.prime_dvd_prime_iff_eq hqp (hq r hr)).1 hqr
  exact h2 q hr ((key _).1 h)

theorem prime_1206781 : Nat.Prime 1206781 :=
  prime_of_root 10 [2, 2, 3, 5, 20113] (by decide +kernel)
    (by simp only [List.forall_mem_cons, List.not_mem_nil, false_implies, implies_true, and_true]
        exact ⟨(by norm_num), (by norm_num), (by norm_num), (by norm_num), (by norm_num)⟩)
    (by decide +kernel) (by decide +kernel) (by decide +kernel)

theorem prime_7240687 : Nat.Prime 7240687 :=
  prime_of_root 3 [2, 3, 1206781] (by decide +kernel)
    (by simp only [List.forall_mem_cons, List.not_mem_nil, false_implies, implies_true, and_true]
        exact ⟨(by norm_num), (by norm_num), prime_1206781⟩)
    (by decide +kernel) (by decide +kernel) (by decide +kernel)

theorem prime_107590001 : Nat.Prime 107590001 :=
  prime_of_root 3 [2, 2, 2, 2, 5, 5, 5, 5, 7, 29, 53] (by decide +kernel)
    (by simp only [List.forall_mem_cons, List.not_mem_nil, false_implies, implies_true, and_true]
        exact ⟨(by norm_num), (by norm_num), (by norm_num), (by norm_num), (by norm_num), (by norm_num), (by
          norm_num), (by norm_num), (by norm_num), (by norm_num), (by norm_num)⟩)
    (by decide +kernel) (by decide +kernel) (by decide +kernel)

theorem prime_255515944373312847190720520512484175977 : Nat.Prime 255515944373312847190720520512484175977 :=
  prime_of_root 3 [2, 2, 2, 7, 7, 11, 1627, 2657, 4423, 41201, 96557, 7240687, 107590001] (by decide +kernel)
    (by simp only [List.forall_mem_cons, List.not_mem_nil, false_implies, implies_true, and_true]
        exact ⟨(by norm_num), (by norm_num), (by norm_num), (by norm_num), (by norm_num), (by norm_num), (by
          norm_num), (by norm_num), (by norm_num), (by norm_num), (by norm_num), prime_7240687, prime_107590001⟩)
    (by decide +kernel) (by decide +kernel) (by decide +kernel)

theorem prime_13331831 : Nat.Prime 13331831 :=
  prime_of_root 13 [2, 5, 971, 1373] (by decide +kernel)
    (by simp only [List.forall_mem_cons, List.not_mem_nil, false_implies, implies_true, and_true]
        exact ⟨(by norm_num), (by norm_num), (by norm_num), (by norm_num)⟩)
    (by decide +kernel) (by decide +kernel) (by decide +kernel)

theorem prime_173378833005251801 : Nat.Prime 173378833005251801 :=
  prime_of_root 6 [2, 2, 2, 5, 5, 2621, 24809, 13331831] (by decide +kernel)
    (by simp only [List.forall_mem_cons, List.not_mem_nil, false_implies, implies_true, and_true]
        exact ⟨(by norm_num), (by norm_num), (by norm_num), (by norm_num), (by norm_num), (by norm_num), (by
          norm_num), prime_13331831⟩)
    (by decide +kernel) (by decide +kernel) (by decide +kernel)

theorem prime_22149492674086928081353 : Nat.Prime 22149492674086928081353 :=
  prime_of_root 5 [2, 2, 2, 3, 5323, 173378833005251801] (by decide +kernel)
    (by simp only [List.forall_mem_cons, List.not_mem_nil, false_implies, implies_true, and_true]
        exact ⟨(by norm_num), (by norm_num), (by norm_num), (by norm_num), (by norm_num), prime_173378833005251801⟩)
    (by decide +kernel) (by decide +kernel) (by decide +kernel)

theorem prime_132896956044521568488119 : Nat.Prime 132896956044521568488119 :=
  prime_of_root 6 [2, 3, 22149492674086928081353] (by decide +kernel)
    (by simp only [List.forall_mem_cons, List.not_mem_nil, false_implies, implies_true, and_true]
        exact ⟨(by norm_num), (by norm_num), prime_22149492674086928081353⟩)
    (by decide +kernel) (by decide +kernel) (by decide +kernel)

theorem prime_205115282021455665897114700593932402728804164701536103180137503955397371 : Nat.Prime
  205115282021455665897114700593932402728804164701536103180137503955397371 :=
  prime_of_root 10 [2, 3, 5, 29, 29, 31, 7723, 132896956044521568488119, 255515944373312847190720520512484175977]
    (by decide +kernel)
    (by simp only [List.forall_mem_cons, List.not_mem_nil, false_implies, implies_true, and_true]
        exact ⟨(by norm_num), (by norm_num), (by norm_num), (by norm_num), (by norm_num), (by norm_num), (by
          norm_num), prime_132896956044521568488119, prime_255515944373312847190720520512484175977⟩)
    (by decide +kernel) (by decide +kernel) (by decide +kernel)

theorem prime_P : Nat.Prime Config.P :=
  prime_of_root 3 [2, 3, 7, 13441, 205115282021455665897114700593932402728804164701536103180137503955397371] (by
    decide +kernel)
    (by simp only [List.forall_mem_cons, List.not_mem_nil, false_implies, implies_true, and_true]
        exact ⟨(by norm_num), (by norm_num), (by norm_num), (by norm_num),
          prime_205115282021455665897114700593932402728804164701536103180137503955397371⟩)
    (by decide +kernel) (by decide +kernel) (by decide +kernel)

theorem prime_44706919 : Nat.Prime 44706919 :=
  prime_of_root 6 [2, 3, 797, 9349] (by decide +kernel)
    (by simp only [List.forall_mem_cons, List.not_mem_nil, false_implies, implies_true, and_true]
        exact ⟨(by norm_num), (by norm_num), (by norm_num), (by norm_num)⟩)
    (by decide +kernel) (by decide +kernel) (by decide +kernel)

theorem prime_120233 : Nat.Prime 120233 :=
  prime_of_root 3 [2, 2, 2, 7, 19, 113] (by decide +kernel)
    (by simp only [List.forall_mem_cons, List.not_mem_nil, false_implies, implies_true, and_true]
        exact ⟨(by norm_num), (by norm_num), (by norm_num), (by norm_num), (by norm_num), (by norm_num)⟩)
    (by decide +kernel) (by decide +kernel) (by decide +kernel)

theorem prime_174723607534414371449 : Nat.Prime 174723607534414371449 :=
  prime_of_root 3 [2, 2, 2, 17, 59, 4051, 120233, 44706919] (by decide +kernel)
    (by simp only [List.forall_mem_cons, List.not_mem_nil, false_implies, implies_true, and_true]
        exact ⟨(by norm_num), (by norm_num), (by norm_num), (by norm_num), (by norm_num), (by norm_num),
          prime_120233, prime_44706919⟩)
    (by decide +kernel) (by decide +kernel) (by decide +kernel)

theorem prime_4681609 : Nat.Prime 4681609 :=
  prime_of_root 23 [2, 2, 2, 3, 97, 2011] (by decide +kernel)
    (by simp only [List.forall_mem_cons, List.not_mem_nil, false_implies, implies_true, and_true]
        exact ⟨(by norm_num), (by norm_num), (by norm_num), (by norm_num), (by norm_num), (by norm_num)⟩)
    (by decide +kernel) (by decide +kernel) (by decide +kernel)

theorem prime_107361793816595537 : Nat.Prime 107361793816595537 :=
  prime_of_root 3 [2, 2, 2, 2, 16699, 85831, 4681609] (by decide +kernel)
    (by simp only [List.forall_mem_cons, List.not_mem_nil, false_implies, implies_true, and_true]
        exact ⟨(by norm_num), (by norm_num), (by norm_num), (by norm_num), (by norm_num), (by norm_num),
          prime_4681609⟩)
    (by decide +kernel) (by decide +kernel) (by decide +kernel)

theorem prime_305873 : Nat.Prime 305873 :=
  prime_of_root 3 [2, 2, 2, 2, 7, 2731] (by decide +kernel)
    (by simp only [List.forall_mem_cons, List.not_mem_nil, false_implies, implies_true, and_true]
        exact ⟨(by norm_num), (by norm_num), (by norm_num), (by norm_num), (by norm_num), (by norm_num)⟩)
    (by decide +kernel) (by decide +kernel) (by decide +kernel)

theorem prime_1627771 : Nat.Prime 1627771 :=
  prime_of_root 3 [2, 3, 5, 29, 1871] (by decide +kernel)
    (by simp only [List.forall_mem_cons, List.not_mem_nil, false_implies, implies_true, and_true]
        exact ⟨(by norm_num), (by norm_num), (by norm_num), (by norm_num), (by norm_num)⟩)
    (by decide +kernel) (by decide +kernel) (by decide +kernel)

theorem prime_297159362677 : Nat.Prime 297159362677 :=
  prime_of_root 2 [2, 2, 3, 3, 11, 461, 1627771] (by decide +kernel)
    (by simp only [List.forall_mem_cons, List.not_mem_nil, false_implies, implies_true, and_true]
        exact ⟨(by norm_num), (by norm_num), (by norm_num), (by norm_num), (by norm_num), (by norm_num),
          prime_1627771⟩)
    (by decide +kernel) (by decide +kernel) (by decide +kernel)

theorem prime_545358713 : Nat.Prime 545358713 :=
  prime_of_root 5 [2, 2, 2, 41, 59, 28181] (by decide +kernel)
    (by simp only [List.forall_mem_cons, List.not_mem_nil, false_implies, implies_true, and_true]
        exact ⟨(by norm_num), (by norm_num), (by norm_num), (by norm_num), (by norm_num), (by norm_num)⟩)
    (by decide +kernel) (by decide +kernel) (by decide +kernel)

theorem prime_29047611873442575647497758179 : Nat.Prime 29047611873442575647497758179 :=
  prime_of_root 2 [2, 293, 305873, 545358713, 297159362677] (by decide +kernel)
    (by simp only [List.forall_mem_cons, List.not_mem_nil, false_implies, implies_true, and_true]
        exact ⟨(by norm_num), (by norm_num), prime_305873, prime_545358713, prime_297159362677⟩)
    (by decide +kernel) (by decide +kernel) (by decide +kernel)

theorem prime_341948486974166000522343609283189 : Nat.Prime 341948486974166000522343609283189 :=
  prime_of_root 2 [2, 2, 3, 3, 3, 109, 29047611873442575647497758179] (by decide +kernel)
    (by simp only [List.forall_mem_cons, List.not_mem_nil, false_implies, implies_true, and_true]
        exact ⟨(by norm_num), (by norm_num), (by norm_num), (by norm_num), (by norm_num), (by norm_num),
          prime_29047611873442575647497758179⟩)
    (by decide +kernel) (by decide +kernel) (by decide +kernel)

theorem prime_N : Nat.Prime Config.N :=
  prime_of_root 7 [2, 2, 2, 2, 2, 2, 3, 149, 631, 107361793816595537, 174723607534414371449,
    341948486974166000522343609283189] (by decide +kernel)
    (by simp only [List.forall_mem_cons, List.not_mem_nil, false_implies, implies_true, and_true]
        exact ⟨(by norm_num), (by norm_num), (by norm_num), (by norm_num), (by norm_num), (by norm_num), (by
          norm_num), (by norm_num), (by norm_num), prime_107361793816595537, prime_174723607534414371449,
          prime_341948486974166000522343609283189⟩)
    (by decide +kernel) (by decide +kernel) (by decide +kernel)

end Sys2Proof.Machine
end

