-- ==== Sys2Proof/Laws/Step.lean ====
section
/-! SUPPORT. Everything a step can do, said once. -/

namespace Sys2Proof.Machine

open Sys2Proof.Safety

/-- A turn of the engine (R202, R203): idle it does nothing; an illegal word aborts; a legal one runs. -/
theorem engineTurn_cases {s t : State} (h : engineTurn s = .next t) :
    (s.engine = .idle ∧ t = s) ∨
      ∃ w ins d, s.engine = .running w ins d ∧
        ((∃ r, decode w = .error r ∧ t = s.abort .illegal) ∨ ∃ i, decode w = .ok i ∧ exec i s = .next t) := by
  unfold engineTurn at h
  split at h
  · next he => exact .inl ⟨he, (Host.Outcome.next.inj h).symm⟩
  · next w ins d he =>
    refine .inr ⟨w, ins, d, he, ?_⟩
    split at h
    · next i hi => exact .inr ⟨i, hi, h⟩
    · next r hr => exact .inl ⟨r, hr, (Host.Outcome.next.inj h).symm⟩

/-- Every command ends in a next state. -/
theorem exec_next (i : Instr) (s : State) : ∃ t, exec i s = .next t := by
  rcases exec_cases i s with ⟨e, -, h⟩ | ⟨c, -, h⟩ | ⟨rd, -, h | h⟩ <;> exact ⟨_, h⟩

theorem engineTurn_next (s : State) : ∃ t, engineTurn s = .next t := by
  unfold engineTurn
  split
  · exact ⟨_, rfl⟩
  · split
    · exact exec_next _ _
    · exact ⟨_, rfl⟩

/-- What a turn of the engine does, in the end: nothing while idle, or while a NONCE waits; a commit of a legal effect; an
abort; a request for entropy. -/
theorem engineTurn_effect {s t : State} (h : engineTurn s = .next t) :
    (s.engine = .idle ∧ t = s) ∨
      ∃ w ins d, s.engine = .running w ins d ∧
        ((∃ c, t = s.abort c) ∨
          (∃ i e, decode w = .ok i ∧ EffectLegal i ins e ∧ t = s.commit e) ∨
          ∃ rd, decode w = .ok (.nonce rd) ∧ (t = s.requestEntropy ∨ t = s)) := by
  rcases engineTurn_cases h with h | ⟨w, ins, d, he, h⟩
  · exact .inl h
  · refine .inr ⟨w, ins, d, he, ?_⟩
    have ho : s.operands = ins := by simp [State.operands, he]
    rcases h with ⟨r, -, rfl⟩ | ⟨i, hi, h⟩
    · exact .inl ⟨_, rfl⟩
    · rcases exec_cases i s with ⟨e, hl, h'⟩ | ⟨c, -, h'⟩ | ⟨rd, rfl, h' | h'⟩
      · exact .inr (.inl ⟨i, e, hi, ho ▸ hl, Host.Outcome.next.inj (h.symm.trans h')⟩)
      · exact .inl ⟨c, Host.Outcome.next.inj (h.symm.trans h')⟩
      · exact .inr (.inr ⟨rd, hi, .inl (Host.Outcome.next.inj (h.symm.trans h'))⟩)
      · exact .inr (.inr ⟨rd, hi, .inr (Host.Outcome.next.inj (h.symm.trans h'))⟩)

/-- A step is its next event. -/
theorem step_cases {s t : State} (h : step s = .next t) :
    (∃ a, s.nextEvent = .read a ∧ busRead a s.popInput = .next t) ∨
      (∃ a v, s.nextEvent = .write a v ∧ busWrite a v s.popInput = .next t) ∨
      (s.nextEvent = .engine ∧ engineTurn s.popInput = .next t) ∨
      (∃ n a, s.nextEvent = .answer n a ∧ t = s.popInput.takeAnswer n a) ∨
      (s.nextEvent = .reset ∧ t = s.popInput.resetAll) := by
  unfold step handle at h
  split at h
  · next a he => exact .inl ⟨a, he, h⟩
  · next a v he => exact .inr (.inl ⟨a, v, he, h⟩)
  · next he => exact .inr (.inr (.inl ⟨he, h⟩))
  · next n a he => exact .inr (.inr (.inr (.inl ⟨n, a, he, (Host.Outcome.next.inj h).symm⟩)))
  · next he => exact .inr (.inr (.inr (.inr ⟨he, (Host.Outcome.next.inj h).symm⟩)))

/-- A request for entropy counts one more draw of the running command (R182). -/
theorem State.requestEntropy_engine_running {s : State} {w : Word} {ins : Inputs} {d : Nat}
    (h : s.engine = .running w ins d) : s.requestEntropy.engine = .running w ins (d + 1) := by
  rw [State.requestEntropy_engine, h]
  rfl

/-- A run takes its first step, and goes on from there. -/
theorem core_run_succ (k : Nat) {s t : State} (h : step s = .next t) : core.run (k + 1) s = core.run k t := by
  have h' : core.step s = .next t := h
  simp only [Host.Core.run, h']

/-- An answer is taken by the request it belongs to, and is ignored otherwise (R181, R185). -/
theorem takeAnswer_cases (s : State) (n : Nat) (a : Answer) :
    (s.port.req = some n ∧ s.takeAnswer n a = { s with port := ⟨none, some a⟩ }) ∨
      (s.port.req ≠ some n ∧ s.takeAnswer n a = s) := by
  by_cases h : s.port.req = some n
  · exact .inl ⟨h, State.takeAnswer_of_eq a h⟩
  · exact .inr ⟨h, State.takeAnswer_of_ne a h⟩

end Sys2Proof.Machine
end

