-- ==== Sys2Proof/Tests/Slice0.lean ====
section
/-! SUPPORT. Tests and witnesses. Expected values come from spec/95_test_vectors.md and from the examples inside the
rules; command words are written out field by field from 30_encoding.md R70 and R77. -/

namespace Sys2Proof.Tests

open Sys2Proof.Machine Sys2Proof.Safety

-- One theorem after the other: many evaluations at once take a thread each.
set_option Elab.async false

/-! ### Well-formedness: an ill-formed term for each check -/

theorem test_ldg_odd_pair_is_ill_formed : (Instr.ldg 1).WellFormed = false := by decide

theorem test_padd_odd_destination_is_ill_formed : (Instr.padd 3 0 2).WellFormed = false := by decide

theorem test_padd_odd_first_operand_is_ill_formed : (Instr.padd 2 1 2).WellFormed = false := by decide

theorem test_padd_odd_second_operand_is_ill_formed : (Instr.padd 2 0 15).WellFormed = false := by decide

theorem test_pmul_odd_destination_is_ill_formed : (Instr.pmul 3 1 0).WellFormed = false := by decide

theorem test_pmul_odd_base_is_ill_formed : (Instr.pmul 2 1 1).WellFormed = false := by decide

theorem test_pmul_odd_scalar_is_well_formed : (Instr.pmul 14 15 0).WellFormed = true := by decide

theorem test_derdec_odd_pair_is_ill_formed : (Instr.derdec 15).WellFormed = false := by decide

/-! ### Decoding: one word of every constructor, OPC RD RS1 RS2 MSEL IMM8 from bit 31 down (R70) -/

theorem test_decode_nop : decode 0b00000000_0000_0000_0000_0000_00000000 = .ok .nop := by decide

theorem test_decode_fredRaw : decode 0b00000001_1111_0001_0000_0000_00000000 = .ok (.fredRaw 15 1) := by decide

theorem test_decode_fredP : decode 0b00000001_0001_0000_0000_0001_00000000 = .ok (.fredP 1 0) := by decide

theorem test_decode_fredN : decode 0b00000001_0010_1000_0000_0010_00000000 = .ok (.fredN 2 8) := by decide

theorem test_decode_fldi : decode 0b00000010_0100_0000_0000_0000_10000001 = .ok (.fldi 4 0x81) := by decide

theorem test_decode_ldc : decode 0b00000011_0010_0000_0000_0000_00000010 = .ok (.ldc 2 .gx) := by decide

theorem test_decode_fadd : decode 0b00001000_0011_0001_0010_0000_00000000 = .ok (.fadd 3 1 2) := by decide

theorem test_decode_fsub : decode 0b00001001_0011_0001_0010_0000_00000000 = .ok (.fsub 3 1 2) := by decide

theorem test_decode_fmul : decode 0b00001010_1000_0100_0010_0000_00000000 = .ok (.fmul 8 4 2) := by decide

theorem test_decode_fdiv : decode 0b00001011_0011_0001_0010_0000_00000000 = .ok (.fdiv 3 1 2) := by decide

theorem test_decode_finv : decode 0b00001100_0010_0001_0000_0000_00000000 = .ok (.finv 2 1) := by decide

theorem test_decode_fpow : decode 0b00001101_0010_0000_0001_0000_00000001 = .ok (.fpow 2 0 1 true) := by decide

theorem test_decode_fneg : decode 0b00001110_0010_0001_0000_0000_00000000 = .ok (.fneg 2 1) := by decide

theorem test_decode_fmod : decode 0b00001111_0010_0000_0001_0000_00000000 = .ok (.fmod 2 0 1) := by decide

theorem test_decode_feq : decode 0b00010000_0000_0100_0101_0000_00000000 = .ok (.feq 4 5) := by decide

theorem test_decode_ldg : decode 0b00100000_1110_0000_0000_0000_00000000 = .ok (.ldg 14) := by decide

theorem test_decode_padd : decode 0b00100001_0010_0100_1000_0000_00000000 = .ok (.padd 2 4 8) := by decide

theorem test_decode_pmul : decode 0b00100010_0100_0111_0010_0000_00000000 = .ok (.pmul 4 7 2) := by decide

theorem test_decode_derenc : decode 0b00110000_0000_1000_1001_0000_00000000 = .ok (.derenc 8 9) := by decide

theorem test_decode_derdec : decode 0b00110001_1010_0000_0000_0000_00000000 = .ok (.derdec 10) := by decide

theorem test_decode_nonce : decode 0b01000000_0111_0000_0000_0000_00000000 = .ok (.nonce 7) := by decide

theorem test_decode_table_word : decodeTableWord 32 0x0D201001 = some (.fpow 2 0 1 true) := by decide

/-! ### Illegal words (95_test_vectors.md 3.1), each rejected by name -/

theorem test_illegal_unassigned :
    decode 0x04000000 = .error .unassignedOpcode ∧ decode 0xFF000000 = .error .unassignedOpcode ∧
      decode 0x11000000 = .error .unassignedOpcode ∧ decode 0x41000000 = .error .unassignedOpcode := by decide

theorem test_illegal_reserved_fields :
    decode 0x00000001 = .error .reservedField ∧ decode 0x01001000 = .error .reservedField ∧
      decode 0x02010001 = .error .reservedField ∧ decode 0x08000100 = .error .reservedField ∧
      decode 0x08000001 = .error .reservedField ∧ decode 0x0C001000 = .error .reservedField ∧
      decode 0x10100000 = .error .reservedField ∧ decode 0x20010000 = .error .reservedField ∧
      decode 0x30100000 = .error .reservedField ∧ decode 0x40010000 = .error .reservedField := by decide

theorem test_illegal_operand_codes :
    decode 0x01000300 = .error .modulusSelector ∧ decode 0x01000F00 = .error .modulusSelector ∧
      decode 0x03000004 = .error .constantId ∧ decode 0x0D000002 = .error .powImmediate ∧
      decode 0x0D000080 = .error .powImmediate := by decide

theorem test_illegal_odd_pairs :
    decode 0x20100000 = .error .oddPair ∧ decode 0x21210000 = .error .oddPair ∧ decode 0x21201000 = .error .oddPair ∧
      decode 0x22011000 = .error .oddPair ∧ decode 0x22300000 = .error .oddPair ∧
      decode 0x31100000 = .error .oddPair := by decide

/-! ### Helpers -/

/-- The state after reset with the listed registers changed. -/
def ready (l : List (RegNo × FReg)) : State := { State.reset with regs := writeRegs State.reset.regs l }

/-- What a question asks of the next state, if there is one. -/
def ask {α : Type} (f : State → α) : Host.Outcome State Fault Refusal → Option α
  | .next t => some (f t)
  | .fault _ => none
  | .refused _ => none

/-- The register `r` and the STATUS word of the next state. -/
def regAndStatus (r : RegNo) (o : Host.Outcome State Fault Refusal) : Option (FReg × Word) :=
  ask (fun t => (t.reg r, t.status)) o

/-- The fault of an outcome. -/
def faultOf : Host.Outcome State Fault Refusal → Option Fault
  | .next _ => none
  | .fault f => some f
  | .refused _ => none

/-- SIGBUF holding a byte string, and its length in SIGLEN. -/
def withDer (bs : List Byte) : State :=
  { State.reset with sigBuf := Memory.writeBytes [] sigBase bs, sigLen := BitVec.ofNat 7 bs.length }

/-! ### One step per instruction (95_test_vectors.md 3.2 to 3.5) -/

/-- R195: after reset, the word 0 leaves STATUS 0x00000002. -/
theorem test_nop_status : ask State.status (step (State.reset.withFetchWord 32 0x00000000)) = some 0x00000002 := by
  decide

theorem test_fredRaw_moves :
    regAndStatus 1 (exec (.fredRaw 1 0) (ready [(0, ⟨5, .p⟩)])) = some (⟨5, .raw⟩, 0x00000002) := by decide +kernel

theorem test_fredP_of_P_is_zero :
    regAndStatus 1 (exec (.fredP 1 0) (ready [(0, ⟨valOf Config.P, .raw⟩)])) = some (⟨0, .p⟩, 0x0000000A) := by
  decide +kernel

theorem test_fredP_uninit :
    regAndStatus 1 (exec (.fredP 1 0) State.reset) = some (⟨0, .none⟩, 0x00000022) := by decide +kernel

theorem test_fredN_of_P_minus_one :
    regAndStatus 1 (exec (.fredN 1 0) (ready [(0, ⟨valOf (Config.P - 1), .p⟩)])) =
      some (⟨0x000000000000000000000000000000014551231950B75FC4402DA1722FC9BAED, .n⟩, 0x00000002) := by decide +kernel

theorem test_fldi_255 :
    regAndStatus 0 (step (State.reset.withFetchWord 32 0x020000FF)) = some (⟨255, .raw⟩, 0x00000002) := by
  decide +kernel

theorem test_fldi_zero_sets_z : regAndStatus 0 (exec (.fldi 0 0) State.reset) = some (⟨0, .raw⟩, 0x0000000A) := by
  decide +kernel

theorem test_ldc_gy :
    regAndStatus 2 (exec (.ldc 2 .gy) State.reset) =
      some (⟨0x483ADA7726A3C4655DA4FBFC0E1108A8FD17B448A68554199C47D08FFB10D4B8, .raw⟩, 0x00000002) := by decide +kernel

theorem test_fadd_wraps :
    regAndStatus 3 (exec (.fadd 3 1 2) (ready [(1, ⟨valOf (Config.P - 1), .p⟩), (2, ⟨1, .p⟩)])) =
      some (⟨0, .p⟩, 0x0000000A) := by decide +kernel

theorem test_fadd_mismatch :
    regAndStatus 3 (exec (.fadd 3 1 2) (ready [(1, ⟨1, .p⟩), (2, ⟨1, .n⟩)])) = some (⟨0, .none⟩, 0x00000032) := by
  decide +kernel

theorem test_fsub_borrows :
    regAndStatus 3 (exec (.fsub 3 1 2) (ready [(1, ⟨0, .n⟩), (2, ⟨1, .n⟩)])) =
      some (⟨valOf (Config.N - 1), .n⟩, 0x00000002) := by decide +kernel

theorem test_fmul_of_coordinates :
    regAndStatus 3 (exec (.fmul 3 1 2) (ready [(1, ⟨valOf Config.Gx, .p⟩), (2, ⟨valOf Config.Gy, .p⟩)])) =
      some (⟨0xFD3DC529C6EB60FB9D166034CF3C1A5A72324AA9DFD3428A56D7E1CE0179FD9B, .p⟩, 0x00000002) := by decide +kernel

theorem test_fdiv_one_half :
    regAndStatus 3 (exec (.fdiv 3 1 2) (ready [(1, ⟨1, .p⟩), (2, ⟨2, .p⟩)])) =
      some (⟨valOf ((Config.P + 1) / 2), .p⟩, 0x00000002) := by decide +kernel

theorem test_fdiv_by_zero :
    regAndStatus 3 (exec (.fdiv 3 1 2) (ready [(1, ⟨valOf Config.Gx, .p⟩), (2, ⟨0, .p⟩)])) =
      some (⟨0, .p⟩, 0x0000000A) := by decide +kernel

theorem test_finv_of_Gx :
    regAndStatus 2 (exec (.finv 2 1) (ready [(1, ⟨valOf Config.Gx, .p⟩)])) =
      some (⟨0x237AFDF1D2938D86870AAEB8AD77626A67B8E794ABFB076BE61D003687CA9EF6, .p⟩, 0x00000002) := by decide +kernel

theorem test_finv_raw :
    regAndStatus 2 (exec (.finv 2 1) (ready [(1, ⟨7, .raw⟩)])) = some (⟨0, .none⟩, 0x00000032) := by decide +kernel

theorem test_fpow_full_exponent :
    regAndStatus 2 (exec (.fpow 2 0 1 false) (ready [(0, ⟨3, .p⟩), (1, ⟨BitVec.allOnes 256, .raw⟩)])) =
      some (⟨0xDB22CBAA65CEA5E7962E9FE404FE04EC5ECC9201FA60BEE06878F739B11F4CF9, .p⟩, 0x00000002) := by decide +kernel

theorem test_fpow_zero_base_negative :
    regAndStatus 2 (exec (.fpow 2 0 1 true) (ready [(0, ⟨0, .p⟩), (1, ⟨1, .raw⟩)])) =
      some (⟨0, .none⟩, 0x00000042) := by decide +kernel

theorem test_fneg_one :
    regAndStatus 2 (exec (.fneg 2 1) (ready [(1, ⟨1, .p⟩)])) = some (⟨valOf (Config.P - 1), .p⟩, 0x00000002) := by
  decide +kernel

theorem test_fneg_zero :
    regAndStatus 2 (exec (.fneg 2 1) (ready [(1, ⟨0, .n⟩)])) = some (⟨0, .n⟩, 0x0000000A) := by decide +kernel

theorem test_fmod_seven_two :
    regAndStatus 2 (exec (.fmod 2 0 1) (ready [(0, ⟨7, .p⟩), (1, ⟨2, .raw⟩)])) = some (⟨1, .raw⟩, 0x00000002) := by
  decide +kernel

theorem test_fmod_by_zero :
    regAndStatus 2 (exec (.fmod 2 0 1) (ready [(0, ⟨5, .p⟩), (1, ⟨0, .n⟩)])) = some (⟨0, .none⟩, 0x00000052) := by
  decide +kernel

theorem test_feq_equal :
    ask State.status (exec (.feq 4 5) (ready [(4, ⟨9, .p⟩), (5, ⟨9, .p⟩)])) = some 0x00000006 := by decide +kernel

theorem test_feq_tags_differ :
    ask State.status (exec (.feq 4 5) (ready [(4, ⟨5, .p⟩), (5, ⟨5, .n⟩)])) = some 0x00000002 := by decide +kernel

theorem test_ldg_y :
    regAndStatus 1 (exec (.ldg 0) State.reset) = some (⟨valOf Config.Gy, .p⟩, 0x00000002) := by decide +kernel

/-- The generator in Q0. -/
def withG : State := ready [(0, ⟨valOf Config.Gx, .p⟩), (1, ⟨valOf Config.Gy, .p⟩)]

theorem test_padd_doubles_in_place :
    ask (fun t => (t.reg 0, t.reg 1)) (exec (.padd 0 0 0) withG) =
      some (⟨0xC6047F9441ED7D6D3045406E95C07CD85C778E4B8CEF3CA7ABAC09B95C709EE5, .p⟩,
        ⟨0x1AE168FEA63DC339A3C58419466CEAEEF7F632653266D0E1236431A950CFE52A, .p⟩) := by decide +kernel

/-- Sentinel + G is not G: PADD has no special case for the sentinel (R141). -/
theorem test_padd_sentinel_plus_G :
    regAndStatus 4 (exec (.padd 4 0 2)
        (ready [(0, ⟨0, .p⟩), (1, ⟨0, .p⟩), (2, ⟨valOf Config.Gx, .p⟩), (3, ⟨valOf Config.Gy, .p⟩)])) =
      some (⟨0xCF88213F5E0B5B2D6951FC69E31965E1E29EFFACC9730E9F41367D7E109476B6, .p⟩, 0x00000002) := by decide +kernel

/-- The first two bits of R143's loop, on `k = 3`: the accumulator is 3G. -/
theorem test_scalarmul_three :
    scalarLoop 3 2 0 (0, 0) (Config.Gx, Config.Gy) =
      (0xF9308A019258C31049344F85F89D5229B531C845836F99B08601F113BCE036F9,
        0x388F7B0F632DE8140FE337E62A37F3566500A99934C2231B6CB9FD7584B8E672) := by decide +kernel

theorem test_pmul_scalar_N :
    regAndStatus 4 (exec (.pmul 4 6 0)
        (ready [(0, ⟨valOf Config.Gx, .p⟩), (1, ⟨valOf Config.Gy, .p⟩), (6, ⟨valOf Config.N, .raw⟩)])) =
      some (⟨0, .none⟩, 0x00000062) := by decide +kernel

/-- `r = 2^255, s = 1`: 71 bytes, the pad byte before r only. -/
theorem test_derenc_pads_r :
    ask (fun t => (t.sigLen, t.sigBuf.readBytes sigBase 7, t.sigBuf.readBytes (sigBase + 37) 3, t.sigBuf.sig 70))
        (exec (.derenc 8 9) (ready [(8, ⟨valOf (2 ^ 255), .n⟩), (9, ⟨1, .n⟩)])) =
      some (71, [0x30, 0x45, 0x02, 0x21, 0x00, 0x80, 0x00], [0x02, 0x20, 0x00], 0x01) := by decide +kernel

/-- The zero fill of R162: a byte after the string that was not 0 is 0 after DERENC. -/
theorem test_derenc_zero_fills :
    ask (fun t => (t.sigLen, t.sigBuf.sig 70, t.sigBuf.sig 71))
        (exec (.derenc 8 9)
          { ready [(8, ⟨1, .n⟩), (9, ⟨1, .n⟩)] with sigBuf := Memory.writeBytes [] (sigBase + 70) [0xAA, 0xBB] }) =
      some (70, 0x00, 0x00) := by decide +kernel

/-- The example of R164. -/
theorem test_derdec_shortest :
    ask (fun t => (t.reg 0, t.reg 1, t.status))
        (exec (.derdec 0) (withDer [0x30, 0x06, 0x02, 0x01, 0x01, 0x02, 0x01, 0x01])) =
      some (⟨1, .raw⟩, ⟨1, .raw⟩, 0x00000002) := by decide +kernel

theorem test_derdec_too_short :
    regAndStatus 0 (exec (.derdec 0) (withDer [0x30, 0x05, 0x02, 0x01, 0x01, 0x02, 0x01])) =
      some (⟨0, .none⟩, 0x00000072) := by decide +kernel

/-- A running NONCE with the given port. -/
def drawing (port : EntropyPort) : State := { State.reset.launch 0x40700000 with port := port }

/-- The last answer of R180's example commits `(1, N)`. -/
theorem test_nonce_accepts_one :
    regAndStatus 7 (exec (.nonce 7) (drawing ⟨none, some (.bytes 1)⟩)) = some (⟨1, .n⟩, 0x00000002) := by
  decide +kernel

/-- The answer `be_32(N)` is drawn again: BUSY stays 1 and a new request is out. -/
theorem test_nonce_rejects_N :
    ask (fun t => (t.busy, t.port.req, t.reg 7)) (exec (.nonce 7) (drawing ⟨none, some (.bytes (valOf Config.N))⟩)) =
      some (true, some 0, ⟨0, .none⟩) := by decide +kernel

/-! ### The host bus -/

/-- An illegal word is accepted, then aborts: STATUS 0x00000012 and ERRINFO the word (95_test_vectors.md 3.1). -/
theorem test_illegal_word_aborts :
    ask (fun t => (t.status, t.errInfo)) (step (State.reset.withFetchWord 32 0x20100000)) =
      some (0x00000012, 0x20100000) := by decide +kernel

/-- After reset, FADD with operands nobody wrote: STATUS 0x00000022 and ERRINFO the word. -/
theorem test_fadd_after_reset :
    ask (fun t => (t.status, t.errInfo)) (step (State.reset.withFetchWord 32 0x08312000)) =
      some (0x00000022, 0x08312000) := by decide +kernel

/-- R54: word 0 of the value window of F15 is its most significant word. -/
theorem test_read_value_word :
    ask State.reply (busRead 0x2E0 (ready [(15, ⟨valOf Config.Gx, .raw⟩)])) = some (some (.readOk 0x79BE667E)) := by
  decide +kernel

/-- R55: the least significant word is word 7; the tag becomes RAW. -/
theorem test_write_value_word :
    ask (fun t => t.reg 0) (busWrite 0x11C 0x00000005 (ready [(0, ⟨valOf (2 ^ 32), .p⟩)])) =
      some ⟨valOf (2 ^ 32 + 5), .raw⟩ := by decide +kernel

/-- 90_conflicts.md C17: after DERENC of `r = s = 1` the last word of SIGBUF reads 0x00010000. -/
theorem test_read_last_sig_word :
    ask State.reply (busRead 0x444 { State.reset with sigBuf := [(0x445, 0x01)] }) =
      some (some (.readOk 0x00010000)) := by decide +kernel

theorem test_bus_errors :
    faultOf (busRead 0x001 State.reset) = some (.busMisaligned 0x001) ∧
      faultOf (busRead 0x018 State.reset) = some (.busReserved 0x018) ∧
      faultOf (busRead 0x0FC State.reset) = some (.busReserved 0x0FC) ∧
      faultOf (busWrite 0x33C 0 State.reset) = some (.busReadOnly 0x33C) ∧
      faultOf (busRead 0x340 State.reset) = some (.busReserved 0x340) ∧
      faultOf (busRead 0x448 State.reset) = some (.busReserved 0x448) ∧
      faultOf (busWrite 0x000 0 State.reset) = some (.busReadOnly 0x000) ∧
      faultOf (busWrite 0x00C 2 State.reset) = some (.busCtrlReserved 2) := by decide +kernel

theorem test_sigLen_73_sets_herr :
    ask (fun t => (t.sigLen, t.herr)) (busWrite 0x014 73 State.reset) = some (0, true) := by decide +kernel

/-! ### Witnesses: states and operands that meet the hypotheses of the obligations, clause by clause -/

/-- Registers of every tag, with values at the edges of their ranges. F15 is NONE. -/
def sample : State :=
  ready [(0, ⟨valOf Config.Gx, .p⟩), (1, ⟨valOf Config.Gy, .p⟩),
    (2, ⟨0xC6047F9441ED7D6D3045406E95C07CD85C778E4B8CEF3CA7ABAC09B95C709EE5, .p⟩),
    (3, ⟨0x1AE168FEA63DC339A3C58419466CEAEEF7F632653266D0E1236431A950CFE52A, .p⟩),
    (4, ⟨0, .p⟩), (5, ⟨0, .p⟩), (6, ⟨1, .n⟩), (7, ⟨valOf (Config.N - 1), .n⟩), (8, ⟨valOf Config.N, .raw⟩),
    (9, ⟨2, .raw⟩), (10, ⟨valOf (Config.P - 1), .p⟩), (11, ⟨1, .p⟩), (12, ⟨0, .raw⟩), (13, ⟨0, .n⟩),
    (14, ⟨BitVec.allOnes 256, .raw⟩)]

/-- A state in which the engine runs `w`, accepted on the registers of `sample`. -/
def running (w : Word) : State := sample.launch w

/-- The next event of `s` is `e`. -/
def facing (e : Event) (s : State) : State := { s with inputs := [e] }

/-- DecodeOfEncodeIsIdentity: well-formed commands exist, with pair fields and without. -/
theorem witness_decode_of_encode : (Instr.padd 14 0 2).WellFormed = true ∧ (Instr.fpow 15 0 15 true).WellFormed = true := by
  decide

/-- DecodedWordIsTheEncoding, DecodableWordsAreTheTableRows: a word that decodes, and one that meets no row. -/
theorem witness_decoded_word :
    decode 0x22FE0000 = .error .oddPair ∧ decode 0x22EF0000 = .ok (.pmul 14 15 0) ∧
      (opcodeRows.all fun row => !meetsRow 0x22FE0000 row) = true ∧
      (opcodeRows.any fun row => meetsRow 0x22EF0000 row) = true := by decide

/-- IllegalWordsAreAcceptedThenAbort: one word for each way of being illegal, at the edge of each range. -/
theorem witness_illegal_fields :
    ∀ w ∈ [(0x04000000 : Word), 0x00100000, 0x02010000, 0x01001000, 0x08000100, 0x08000001, 0x01000300, 0x03000004,
        0x0D000002, 0x20100000, 0x21010000, 0x22001000], IllegalFields (fieldsOf w) := by
  simp only [List.forall_mem_cons, List.not_mem_nil, false_implies, implies_true, and_true]
  and_intros <;> (simp only [IllegalFields]; decide)

theorem witness_idle_accepting : sample.busy = false ∧ sample.err = none ∧ sample.herr = false := by decide

/-- `IllegalFormsAbort`, for every opcode that has an illegal word: a running engine with such a word. -/
theorem witness_illegal_forms :
    ∀ w ∈ [(0x00000001 : Word), 0x01000F00, 0x02001000, 0x030000FF, 0x08000100, 0x09000100, 0x0A000001, 0x0B000001,
        0x0C001000, 0x0D000080, 0x0E001000, 0x0F000001, 0x10F00000, 0x20F00000, 0x21F00000, 0x22F00000, 0x30100000,
        0x31F00000, 0x40010000],
      (running w).engine = .running w sample.capture 0 ∧ IllegalFields (fieldsOf w) := by
  simp only [List.forall_mem_cons, List.not_mem_nil, false_implies, implies_true, and_true]
  and_intros <;> first | rfl | (simp only [IllegalFields]; decide)

/-- StepRunsTheDecodedCommand: a running command, a word placed, a running illegal word, an idle engine at its turn, an
empty list of events, and a read, a write, an answer and a reset event. -/
theorem witness_step_runs :
    (running 0x0830B000).nextEvent = .engine ∧ (running 0x0830B000).engine = .running 0x0830B000 sample.capture 0 ∧
      decode 0x0830B000 = .ok (.fadd 3 0 11) ∧ decode (BitVec.ofNat 32 (0x31A00000 % 2 ^ 32)) = .ok (.derdec 10) ∧
      (running 0x00000001).nextEvent = .engine ∧ (running 0x00000001).engine = .running 0x00000001 sample.capture 0 ∧
      (facing .engine sample).nextEvent = .engine ∧ (facing .engine sample).engine = .idle ∧ sample.inputs = [] ∧
      (facing (.read 0x104) sample).nextEvent = .read 0x104 ∧
      (facing (.write 0x104 7) sample).nextEvent = .write 0x104 7 ∧
      (facing (.answer 0 .insufficient) sample).nextEvent = .answer 0 .insufficient ∧
      (facing .reset sample).nextEvent = .reset ∧ (facing .reset sample).inputs = .reset :: [] := by
  decide +kernel

/-- StepRunsTheDecodedCommand: the illegal word of the witness decodes to no command. -/
theorem witness_step_illegal : ∀ i, decode 0x00000001 ≠ .ok i := by
  intro i h
  cases h

/-- OnlyBusErrorsStopTheMachine: a step that ends in a fault, by a read and by a write. -/
theorem witness_bus_error :
    faultOf (step (facing (.read 0xFFE) sample)) = some (.busMisaligned 0xFFE) ∧
      faultOf (step (facing (.write 0x300 0) sample)) = some (.busReadOnly 0x300) := by decide +kernel

/-- ResetPutsEveryValue: a reset in the middle of a command. -/
theorem witness_reset_event : (facing .reset (running 0x40700000)).inputs = .reset :: [] := rfl

/-- FADD, FSUB, FMUL, FDIV: an operand with tag NONE, in either place. -/
theorem witness_two_fields_uninit : SomeUninit sample [15, 0] ∧ SomeUninit sample [0, 15] := by
  simp only [SomeUninit]
  decide +kernel

/-- FADD, FSUB, FMUL, FDIV: tags that differ, RAW in either place, RAW in both. -/
theorem witness_two_fields_mismatch :
    (¬SomeUninit sample [0, 6] ∧ (arg sample 0).tag ≠ (arg sample 6).tag) ∧
      (¬SomeUninit sample [8, 0] ∧ (arg sample 8).tag = .raw) ∧
      (¬SomeUninit sample [0, 8] ∧ (arg sample 8).tag = .raw) ∧ ¬SomeUninit sample [8, 9] := by
  simp only [SomeUninit]
  decide +kernel

/-- FADD, FSUB, FMUL, FDIV: two elements modulo P, two modulo N; FDIV by zero. -/
theorem witness_two_fields :
    ((arg sample 10).tag.modulus = some Config.P ∧ (arg sample 11).tag = (arg sample 10).tag) ∧
      ((arg sample 7).tag.modulus = some Config.N ∧ (arg sample 6).tag = (arg sample 7).tag) ∧
      ((arg sample 6).tag.modulus.isSome = true ∧ (arg sample 13).tag = (arg sample 6).tag ∧
        (arg sample 13).val = 0) := by decide +kernel

/-- FINV, FNEG and FRED: an operand with tag NONE, one RAW, one modulo P, one modulo N, the zero of FINV, and an operand
below its modulus. -/
theorem witness_one_field :
    SomeUninit sample [15] ∧ (arg sample 14).tag = .raw ∧ ¬SomeUninit sample [14] ∧
      (arg sample 10).tag.modulus = some Config.P ∧ (arg sample 10).val.toNat < Config.P ∧
      (arg sample 7).tag.modulus = some Config.N ∧ (arg sample 7).val.toNat < Config.N ∧
      ((arg sample 4).tag.modulus.isSome = true ∧ (arg sample 4).val = 0) := by
  simp only [SomeUninit]
  decide +kernel

/-- FPOW: a RAW base; the zero base with a negative exponent; a base that is not zero with one; exponent 0 with NEG; and
NEG = 0. -/
theorem witness_fpow :
    (¬SomeUninit sample [9, 14] ∧ (arg sample 9).tag = .raw) ∧
      ((arg sample 4).tag.modulus = some Config.P ∧ (arg sample 9).tag ≠ .none ∧ (arg sample 9).val ≠ 0 ∧
        (arg sample 4).val = 0) ∧
      ((arg sample 7).tag.modulus = some Config.N ∧ (arg sample 14).tag ≠ .none ∧ (arg sample 14).val ≠ 0 ∧
        (arg sample 7).val ≠ 0) ∧
      ((arg sample 4).tag.modulus = some Config.P ∧ (arg sample 12).tag ≠ .none ∧ (arg sample 12).val = 0) := by
  simp only [SomeUninit]
  decide +kernel

/-- FMOD: readable operands with divisor 0, and with a divisor that is not 0. -/
theorem witness_fmod :
    (¬SomeUninit sample [0, 12] ∧ (arg sample 12).val = 0) ∧
      (¬SomeUninit sample [14, 11] ∧ (arg sample 11).val ≠ 0) := by
  simp only [SomeUninit]
  decide +kernel

/-- FEQ and DERENC: readable operands of any tags. -/
theorem witness_readable : ¬SomeUninit sample [13, 12] ∧ ¬SomeUninit sample [14, 14] ∧ sample.sigBuf.wf = true := by
  simp only [SomeUninit]
  decide +kernel

/-- FdivOfEqualOperandsIsOne: the smallest and the largest nonzero element. -/
theorem witness_fdiv_equal :
    ((arg sample 6).tag.modulus = some Config.N ∧ arg sample 6 = arg sample 6 ∧ 0 < (arg sample 6).val.toNat ∧
        (arg sample 6).val.toNat < Config.N) ∧
      ((arg sample 10).tag.modulus = some Config.P ∧ 0 < (arg sample 10).val.toNat ∧
        (arg sample 10).val.toNat < Config.P) := by decide +kernel

/-- FpowNegativeIsTheInverse: a nonzero base with exponent 0 and with the largest one. -/
theorem witness_fpow_negative :
    (arg sample 10).tag.modulus = some Config.P ∧ (arg sample 12).tag ≠ .none ∧ (arg sample 14).tag ≠ .none ∧
      0 < (arg sample 10).val.toNat ∧ (arg sample 10).val.toNat < Config.P := by decide +kernel

/-- LDG and DERDEC: an even and an odd pair field. -/
theorem witness_pair_field : evenPair 14 = true ∧ evenPair 15 = false := by decide

/-- PADD: ill-formed and well-formed fields; each operand with tag NONE; a coordinate that is not P-tagged; P-tagged ones. -/
theorem witness_padd :
    (Instr.padd 2 0 15).WellFormed = false ∧ (Instr.padd 14 0 2).WellFormed = true ∧
      SomeUninit sample [14, pairY 14, 0, pairY 0] ∧ SomeUninit sample [0, pairY 0, 14, pairY 14] ∧
      (¬SomeUninit sample [0, pairY 0, 12, pairY 12] ∧
        ∃ i ∈ [0, pairY 0, 12, pairY 12], (arg sample i).tag ≠ .p) ∧
      ∀ i ∈ [0, pairY 0, 2, pairY 2], (arg sample i).tag = .p := by
  simp only [SomeUninit]
  decide +kernel

/-- PMUL: ill-formed and well-formed fields; a scalar with tag NONE; a coordinate that is not P-tagged; the scalars 0, N, 1
and N - 1 of several tags with a P-tagged base. -/
theorem witness_pmul :
    (Instr.pmul 2 6 1).WellFormed = false ∧ (Instr.pmul 14 6 0).WellFormed = true ∧
      SomeUninit sample [15, 0, pairY 0] ∧
      (¬SomeUninit sample [6, 12, pairY 12] ∧ (arg sample 12).tag ≠ .p) ∧
      ((arg sample 0).tag = .p ∧ (arg sample (pairY 0)).tag = .p) ∧
      ((arg sample 13).tag ≠ .none ∧ (arg sample 13).val.toNat = 0) ∧
      ((arg sample 8).tag ≠ .none ∧ Config.N ≤ (arg sample 8).val.toNat) ∧
      ((arg sample 11).tag ≠ .none ∧ 0 < (arg sample 11).val.toNat ∧ (arg sample 11).val.toNat < Config.N) ∧
      ((arg sample 7).tag ≠ .none ∧ 0 < (arg sample 7).val.toNat ∧ (arg sample 7).val.toNat < Config.N) := by
  simp only [SomeUninit]
  decide +kernel

/-- PmulCornerCases: the scalars 1 and 2 with the generator, and a legal scalar with the sentinel. -/
theorem witness_pmul_corners :
    (Instr.pmul 2 6 0).WellFormed = true ∧ (arg sample 6).val.toNat = 1 ∧ (arg sample 9).val.toNat = 2 ∧
      (arg sample 9).tag ≠ .none ∧ (arg sample 4).tag = .p ∧ (arg sample (pairY 4)).tag = .p ∧
      ((arg sample 4).val.toNat, (arg sample (pairY 4)).val.toNat) = (0, 0) := by decide +kernel

/-- PaddStaysOnTheCurve: G and 2G, which differ in x, and G twice. -/
theorem witness_on_curve :
    (Instr.padd 4 0 2).WellFormed = true ∧
      (∀ i ∈ [0, pairY 0, 2, pairY 2], (arg sample i).tag = .p ∧ (arg sample i).val.toNat < Config.P) ∧
      OnCurve ((arg sample 0).val.toNat, (arg sample (pairY 0)).val.toNat) ∧
      OnCurve ((arg sample 2).val.toNat, (arg sample (pairY 2)).val.toNat) ∧
      (arg sample 0).val.toNat ≠ (arg sample 2).val.toNat ∧ (arg sample (pairY 0)).val.toNat ≠ 0 := by
  simp only [OnCurve]
  decide +kernel

/-- DERDEC: the shortest string it accepts, of 8 bytes, with r = s = 1. -/
theorem witness_der_accepts :
    DerAccepts (withDer [0x30, 0x06, 0x02, 0x01, 0x01, 0x02, 0x01, 0x01]).operands.sigBuf
      (withDer [0x30, 0x06, 0x02, 0x01, 0x01, 0x02, 0x01, 0x01]).operands.sigLen.toNat 1 1 := by
  refine ⟨1, 1, ?_⟩
  decide +kernel

/-- DERDEC: a length below 8 is accepted for no pair. -/
theorem witness_der_refuses : ∀ r v, ¬DerAccepts State.reset.operands.sigBuf State.reset.operands.sigLen.toNat r v := by
  rintro r v ⟨lr, ls, h, -⟩
  exact absurd h (by decide)

/-- DerRoundTrip: values with a set and with a clear high bit, and a word of DERDEC. -/
theorem witness_der_round_trip :
    ¬SomeUninit sample [14, 6] ∧ sample.sigBuf.wf = true ∧ decode 0x31E00000 = .ok (.derdec 14) ∧
      2 ^ 255 ≤ (arg sample 14).val.toNat ∧ (arg sample 6).val.toNat < 2 ^ 255 := by
  simp only [SomeUninit]
  decide +kernel

/-- NonceTurn: the answers 1 and N - 1 are accepted; 0, N and `Insufficient` are not; a quiet port; a request outstanding. -/
theorem witness_nonce_turn :
    (∀ k ∈ [1, Config.N - 1], (drawing ⟨none, some (.bytes (valOf k))⟩).port.ack = some (.bytes (valOf k)) ∧
        0 < (valOf k).toNat ∧ (valOf k).toNat < Config.N) ∧
      (drawing ⟨none, some .insufficient⟩).port.ack = some .insufficient ∧
      ((drawing ⟨none, some (.bytes 0)⟩).port.ack = some (.bytes 0) ∧ (0 : BitVec 256).toNat = 0) ∧
      ((drawing ⟨none, some (.bytes (valOf Config.N))⟩).port.ack = some (.bytes (valOf Config.N)) ∧
        Config.N ≤ (valOf Config.N).toNat) ∧
      (drawing .quiet).port = .quiet ∧
      ((drawing ⟨some 0, none⟩).port.ack = none ∧ (drawing ⟨some 0, none⟩).port.req ≠ none) := by decide +kernel

/-- NonceDrawsUntilAccepted: the answers of R180's example. -/
theorem witness_nonce_draws :
    decode 0x40700000 = .ok (.nonce 7) ∧
      (∀ a ∈ [Answer.insufficient, .bytes 0, .bytes (valOf Config.N)], acceptedNonce a = none) ∧
      0 < (1 : BitVec 256).toNat ∧ (1 : BitVec 256).toNat < Config.N := by decide +kernel

/-- NonceCommitsInRange: a turn of a running NONCE that ends it. -/
theorem witness_nonce_commits :
    ∃ t, exec (.nonce 7) (drawing ⟨none, some (.bytes 1)⟩) = .next t ∧ t.busy = false ∧
      (drawing ⟨none, some (.bytes 1)⟩).busy = true := ⟨_, rfl, rfl, rfl⟩

/-- UnaskedAnswersAreIgnored: no request, another request, a request that a reset drops, a later state no lower in
its count, and a step. -/
theorem witness_unasked :
    (drawing .quiet).port.req ≠ some 0 ∧ (drawing ⟨some 1, none⟩).port.req ≠ some 0 ∧
      ({ drawing ⟨some 0, none⟩ with requests := 1 } : State).port.req = some 0 ∧
      (1 ≤ ({ drawing ⟨some 0, none⟩ with requests := 1 } : State).resetAll.requests) ∧
      (∃ t, step (facing .reset { drawing ⟨some 0, none⟩ with requests := 1 }) = .next t) ∧
      RequestNumbered { drawing ⟨some 0, none⟩ with requests := 1 } := by
  refine ⟨by decide, by decide, rfl, by decide, ⟨_, rfl⟩, fun n h => ?_⟩
  obtain rfl : 0 = n := Option.some.inj h
  exact Nat.zero_lt_one

/-- CommandAcceptance and ProtocolErrorsSetOnlyHerr: the three refusing conditions, one at a time, and the least length
that is too long. -/
theorem witness_refusing :
    ((running 0).busy = true ∧ (running 0).err = none ∧ (running 0).herr = false) ∧
      (sample.abort .illegal).err ≠ none ∧ (sample.abort .illegal).busy = false ∧
      (sample.protocolError.herr = true ∧ sample.protocolError.busy = false ∧ sample.protocolError.err = none) ∧
      72 < (73 : Word).toNat ∧ (72 : Word).toNat ≤ 72 := by decide +kernel

/-- CtrlClearsErrors: the least and the largest value with a reserved bit. -/
theorem witness_ctrl_reserved : 2 ≤ (2 : Word).toNat ∧ 2 ≤ (0xFFFFFFFF : Word).toNat := by decide

/-- ErrorBitsAreSticky: a write of 0 to CTRL with an error and a protocol error recorded. -/
theorem witness_sticky :
    ∃ t, step (facing (.write 0x00C 0) (sample.abort .modZero).protocolError) = .next t ∧
      (facing (.write 0x00C 0) (sample.abort .modZero).protocolError).nextEvent ≠ .reset ∧
      (facing (.write 0x00C 0) (sample.abort .modZero).protocolError).nextEvent ≠ .write 0x00C 1 ∧
      (sample.abort .modZero).protocolError.herr = true ∧
      EngineConsistent (facing (.write 0x00C 0) (sample.abort .modZero).protocolError) ∧
      (sample.abort .modZero).protocolError.err ≠ none :=
  ⟨_, rfl, by decide, by decide, rfl, rfl, by decide⟩

/-- ErrInfoIsWrittenByAbortsOnly: a step that writes it, by an abort. -/
theorem witness_errInfo :
    ∃ t, step (running 0x08380000) = .next t ∧ (running 0x08380000).nextEvent ≠ .reset ∧ t.errInfo = 0x08380000 :=
  ⟨_, rfl, by decide, by decide +kernel⟩

/-- ValueWindowRead, ValueWindowWrite, TagWindow, SigBufWindow, SigLenRegister: an idle and a busy state. -/
theorem witness_idle_and_busy : sample.busy = false ∧ sample.sigBuf.wf = true ∧ (running 0).busy = true := by decide

/-- BusErrorsExactlyWhereStated: the edges of every listed range, and the addresses next to them. -/
theorem witness_listed :
    (∀ a ∈ [(0x000 : Addr), 0x014, 0x100, 0x2FC, 0x300, 0x33C, 0x400, 0x444], Listed a) ∧
      ∀ a ∈ [(0x001 : Addr), 0x016, 0x018, 0x0FC, 0x340, 0x3FC, 0x448, 0xFFC], ¬Listed a := by
  simp only [List.forall_mem_cons, List.not_mem_nil, false_implies, implies_true, and_true]
  and_intros <;> first | decide | (simp only [Listed]; decide)

/-- ReadsHaveNoSideEffect: a read, and a second one of the same idle address. -/
theorem witness_reads :
    ∃ t u, busRead 0x444 sample = .next t ∧ busRead 0x444 t = .next u ∧ sample.busy = false := ⟨_, _, rfl, rfl, rfl⟩

/-- EqChangesOnlyByFeq: a FEQ that changes EQ, and a reset that does. -/
theorem witness_eq_changes :
    (∃ t, step (running 0x1004D000) = .next t ∧ t.eq ≠ (running 0x1004D000).eq) ∨
      ∃ t, step (running 0x10045000) = .next t ∧ t.eq ≠ (running 0x10045000).eq :=
  .inr ⟨_, rfl, by decide +kernel⟩

theorem witness_eq_reset :
    ∃ t, step (facing .reset { sample with eq := true }) = .next t ∧ t.eq ≠ (facing .reset { sample with eq := true }).eq :=
  ⟨_, rfl, by decide⟩

/-- ZChangesOnlyByItsCommands: FLDI of 0 sets Z, and a reset clears it. -/
theorem witness_z_changes :
    (∃ t, step (running 0x02000000) = .next t ∧ t.z ≠ (running 0x02000000).z) ∧
      ∃ t, step (facing .reset { sample with z := true }) = .next t ∧ t.z ≠ (facing .reset { sample with z := true }).z :=
  ⟨⟨_, rfl, by decide +kernel⟩, ⟨_, rfl, by decide⟩⟩

/-- RegistersChangeOnlyByTheirWriters: F0 changes by a reset, by a host write, by a command; and a command runs. -/
theorem witness_registers_change :
    (∃ t, step (facing .reset sample) = .next t ∧ t.reg 0 ≠ (facing .reset sample).reg 0) ∧
      (∃ t, step (facing (.write 0x100 0) sample) = .next t ∧ t.reg 0 ≠ (facing (.write 0x100 0) sample).reg 0) ∧
      ∃ t, step (running 0x02000005) = .next t ∧ t.reg 0 ≠ (running 0x02000005).reg 0 :=
  ⟨⟨_, rfl, by decide +kernel⟩, ⟨_, rfl, by decide +kernel⟩, ⟨_, rfl, by decide +kernel⟩⟩

/-- BusyOperandsAreFrozen: a host write while a command runs. -/
theorem witness_busy_frozen :
    ∃ t, step (facing (.write 0x100 0) (running 0x40700000)) = .next t ∧
      (facing (.write 0x100 0) (running 0x40700000)).busy = true ∧
      (facing (.write 0x100 0) (running 0x40700000)).nextEvent ≠ .engine ∧
      (facing (.write 0x100 0) (running 0x40700000)).nextEvent ≠ .reset := ⟨_, rfl, rfl, by decide, by decide⟩

/-- The invariants, in a state with a NONCE running and a request outstanding, and a step from it. -/
theorem witness_invariants :
    ∃ s t : State, s.port.req = some 0 ∧ FieldValuesReduced s ∧ SigStoreLegal s ∧ EngineConsistent s ∧
      PortConsistent s ∧ RequestNumbered s ∧ step s = .next t := by
  have tagless : ∀ (i : RegNo) (m : Nat), (getReg State.reset.regs i).tag.modulus ≠ some m := by
    intro i m h
    rw [getReg_reset] at h
    cases h
  refine ⟨{ State.reset.launch 0x40700000 with port := ⟨some 0, none⟩, requests := 1 }, _, rfl, ⟨?_, ?_⟩, ⟨rfl, ?_, ?_⟩,
    ⟨rfl, rfl, rfl, rfl, rfl⟩, ⟨fun _ => ⟨_, _, _, 7, rfl, by decide⟩, .inr rfl⟩, ?_, rfl⟩
  · exact fun i m h => absurd h (tagless i m)
  · intro w ins d h i m hm
    cases h
    exact absurd hm (tagless i m)
  · intro c hc
    cases hc
  · decide
  · intro n h
    obtain rfl : 0 = n := Option.some.inj h
    exact Nat.zero_lt_one

end Sys2Proof.Tests
end

section
/-! PADD of curve points (R19, R33, R141): over the prime field, the machine's slope and chord are the slope and the sum
of Mathlib's affine Weierstrass curves, whose group law keeps the curve. -/

namespace Sys2Proof.Machine

open Sys2Proof.Safety

/-! ### The machine's arithmetic in `ZMod m` -/

theorem cast_toNat_emod (a : Int) {m : Nat} (hm : 0 < m) : ((a % (m : Int)).toNat : ZMod m) = a := by
  have hnn : 0 ≤ a % (m : Int) := Int.emod_nonneg a (by omega)
  rw [← Int.cast_natCast, Int.toNat_of_nonneg hnn, ZMod.intCast_mod]

theorem cast_subMod (a b : Nat) {m : Nat} (hm : 0 < m) : (subMod a b m : ZMod m) = a - b := by
  rw [subMod, cast_toNat_emod _ hm]
  push_cast
  rfl

/-- The power of R12 is the inverse in the field, 0 going to 0. -/
theorem cast_invMod {m : Nat} [Fact m.Prime] (hm : 2 < m) (b : Nat) : (invMod b m : ZMod m) = (b : ZMod m)⁻¹ := by
  rw [invMod_eq, ZMod.natCast_mod, Nat.cast_pow]
  by_cases hb : (b : ZMod m) = 0
  · rw [hb, inv_zero, zero_pow (by omega)]
  · refine eq_inv_of_mul_eq_one_left ?_
    rw [← pow_succ, show m - 2 + 1 = m - 1 by omega, ZMod.pow_card_sub_one_eq_one hb]

theorem cast_divMod {m : Nat} [Fact m.Prime] (hm : 2 < m) (a b : Nat) : (divMod a b m : ZMod m) = a / b := by
  rw [divMod, ZMod.natCast_mod, Nat.cast_mul, cast_invMod hm, div_eq_mul_inv]

/-- Numbers below the modulus are equal when their residue classes are. -/
theorem eq_of_cast_eq {m a b : Nat} (ha : a < m) (hb : b < m) (h : (a : ZMod m) = b) : a = b := by
  rwa [ZMod.natCast_eq_natCast_iff', Nat.mod_eq_of_lt ha, Nat.mod_eq_of_lt hb] at h

theorem two_lt_P : 2 < Config.P := by decide

/-! ### The curve -/

/-- The curve `y^2 = x^3 + 7` over the field of P elements (R19, R33). -/
def curve : WeierstrassCurve.Affine (ZMod Config.P) := ⟨0, 0, 0, 0, 7⟩

@[simp] theorem curve_a₁ : curve.a₁ = 0 := rfl
@[simp] theorem curve_a₂ : curve.a₂ = 0 := rfl
@[simp] theorem curve_a₃ : curve.a₃ = 0 := rfl
@[simp] theorem curve_a₄ : curve.a₄ = 0 := rfl
@[simp] theorem curve_a₆ : curve.a₆ = 7 := rfl

/-- A pair of numbers is on the curve (R19) when its residue classes satisfy the curve's equation. -/
theorem onCurve_iff (p : Nat × Nat) : OnCurve p ↔ curve.Equation (p.1 : ZMod Config.P) p.2 := by
  rw [OnCurve, ← ZMod.natCast_eq_natCast_iff', WeierstrassCurve.Affine.equation_iff]
  simp

/-- The chord construction of R141 is the sum of two affine points along a line of the given slope. -/
theorem cast_chordPoint (lam : Nat) (p q : Nat × Nat) :
    ((chordPoint lam p q).1 : ZMod Config.P) = curve.addX (p.1 : ZMod Config.P) q.1 lam ∧
      ((chordPoint lam p q).2 : ZMod Config.P) = curve.addY (p.1 : ZMod Config.P) q.1 p.2 lam := by
  have hx : ((chordPoint lam p q).1 : ZMod Config.P) = curve.addX (p.1 : ZMod Config.P) q.1 lam := by
    rw [chordPoint, cast_toNat_emod _ P_pos, WeierstrassCurve.Affine.addX]
    push_cast [curve_a₁, curve_a₂]
    ring
  have hy : ((chordPoint lam p q).2 : ZMod Config.P) = lam * (p.1 - (chordPoint lam p q).1) - p.2 := by
    rw [chordPoint, cast_toNat_emod _ P_pos]
    push_cast
    rfl
  refine ⟨hx, ?_⟩
  rw [hy, hx, WeierstrassCurve.Affine.addY, WeierstrassCurve.Affine.negY, WeierstrassCurve.Affine.negAddY, curve_a₁,
    curve_a₃]
  ring

/-- Two points that PADD adds as the group does: different `x`, or one point with `y` not 0. -/
def Addable (p q : Nat × Nat) : Prop := p.1 ≠ q.1 ∨ p = q ∧ p.2 ≠ 0

/-- Reduced points that PADD adds are not opposite in the field. -/
theorem not_opposite_of_addable {p q : Nat × Nat} (hp1 : p.1 < Config.P) (hp2 : p.2 < Config.P) (hq1 : q.1 < Config.P)
    (h : Addable p q) :
    ¬((p.1 : ZMod Config.P) = q.1 ∧ (p.2 : ZMod Config.P) = curve.negY (q.1 : ZMod Config.P) q.2) := by
  rintro ⟨hx, hy⟩
  rcases h with hne | ⟨rfl, hy0⟩
  · exact hne (eq_of_cast_eq hp1 hq1 hx)
  · have hcast : (p.2 : ZMod Config.P) ≠ 0 := fun h0 => hy0 (eq_of_cast_eq hp2 P_pos (by rw [h0, Nat.cast_zero]))
    exact ZMod.ne_neg_self (by decide) hcast (by simpa [WeierstrassCurve.Affine.negY] using hy)

/-- The slope of R141 is the slope of the line through two points that PADD adds. -/
theorem cast_slope [Fact Config.P.Prime] {p q : Nat × Nat} (hp1 : p.1 < Config.P) (hp2 : p.2 < Config.P)
    (hq1 : q.1 < Config.P) (h : Addable p q) :
    (Machine.slope p q : ZMod Config.P) = WeierstrassCurve.Affine.slope curve (p.1 : ZMod Config.P) q.1 p.2 q.2 := by
  have hopp := not_opposite_of_addable hp1 hp2 hq1 h
  rcases h with hne | ⟨rfl, -⟩
  · have hx : (p.1 : ZMod Config.P) ≠ q.1 := fun h => hne (eq_of_cast_eq hp1 hq1 h)
    rw [Machine.slope, if_neg fun h => hne h.1, cast_divMod two_lt_P, cast_subMod _ _ P_pos, cast_subMod _ _ P_pos,
      WeierstrassCurve.Affine.slope_of_X_ne hx, ← neg_sub, ← neg_sub (p.1 : ZMod Config.P), neg_div_neg_eq]
  · rw [Machine.slope, if_pos ⟨rfl, rfl⟩, cast_divMod two_lt_P, ZMod.natCast_mod, ZMod.natCast_mod,
      WeierstrassCurve.Affine.slope_of_Y_ne rfl fun h => hopp ⟨rfl, h⟩, WeierstrassCurve.Affine.negY]
    push_cast [curve_a₁, curve_a₂, curve_a₃, curve_a₄]
    congr 1 <;> ring

/-- `padd` of curve points that it adds as the group does is a curve point. -/
theorem onCurve_padd {p q : Nat × Nat} (hp1 : p.1 < Config.P) (hp2 : p.2 < Config.P) (hq1 : q.1 < Config.P)
    (hp : OnCurve p) (hq : OnCurve q) (h : Addable p q) : OnCurve (padd p q) := by
  have : Fact Config.P.Prime := ⟨prime_P⟩
  obtain ⟨hx, hy⟩ := cast_chordPoint (Machine.slope p q) p q
  rw [onCurve_iff] at hp hq ⊢
  rw [padd, hx, hy, cast_slope hp1 hp2 hq1 h]
  exact WeierstrassCurve.Affine.equation_add hp hq (not_opposite_of_addable hp1 hp2 hq1 h)

/-! ### The command -/

/-- A well-formed PADD of P-tagged coordinates commits `padd` of its two points (R141). -/
theorem padd_commits {s : State} {qd qa qb : RegNo} (hwf : (Instr.padd qd qa qb).WellFormed = true)
    (htag : ∀ i ∈ [qa, pairY qa, qb, pairY qb], (arg s i).tag = .p) {r : Nat × Nat}
    (hr : r = padd ((arg s qa).val.toNat, (arg s (pairY qa)).val.toNat)
      ((arg s qb).val.toNat, (arg s (pairY qb)).val.toNat)) :
    CommitsPair (.padd qd qa qb) s qd r.1 r.2 .p (decide (r = (0, 0))) := by
  simp only [List.forall_mem_cons, List.not_mem_nil, false_implies, implies_true, and_true, arg] at htag
  obtain ⟨hxa, hya, hxb, hyb⟩ := htag
  have hresult : paddResult qd qa qb s.operands = .ok (writePoint qd (valOf r.1) (valOf r.2)) := by
    have hne : ∀ {x : FReg}, x.tag = .p → x.tag ≠ .none := fun h => by simp [h]
    have heven : requireEven [qd, qa, qb] = .ok () := requireEven_ok hwf
    rw [paddResult, heven, readPair_ok (hne hxa) (hne hya), readPair_ok (hne hxb) (hne hyb)]
    simp [requireTagP_ok, hxa, hya, hxb, hyb, hr, arg]
  have hexec : exec (.padd qd qa qb) s = .next (s.commit (writePoint qd (valOf r.1) (valOf r.2))) := by
    rw [exec_eq (i := .padd qd qa qb) nofun, resultOf, hresult, finish_ok]
  obtain ⟨h1, h2⟩ := hr ▸ padd_lt _ _
  exact commitsPair_point hexec (h1.trans P_lt) (h2.trans P_lt)

/-- Settles O29: the machine's sum is the sum of the affine curve over the field of P elements, which stays on it. -/
theorem paddStaysOnTheCurve : Obligations.PaddStaysOnTheCurve := by
  unfold Obligations.PaddStaysOnTheCurve
  intro s qd qa qb hwf hargs p q hp hq hpc hqc hadd
  have hlt : ∀ i ∈ [qa, pairY qa, qb, pairY qb], (arg s i).val.toNat < Config.P := fun i hi => (hargs i hi).2
  obtain ⟨t, hexec, hx, -, hy, -⟩ := padd_commits hwf (fun i hi => (hargs i hi).1) (r := padd p q) (by rw [hp, hq])
  have hcurve : OnCurve (padd p q) :=
    onCurve_padd (by simp [hp, hlt]) (by simp [hp, hlt]) (by simp [hq, hlt]) hpc hqc hadd
  refine ⟨t, hexec, ?_⟩
  rw [hx, hy]
  exact ⟨hcurve, padd_lt p q⟩

end Sys2Proof.Machine
end

section
/-! What an event can do, said once with the exact state it leaves, and from it the state invariants (R21, R26, R34 to
R36, R68) and the writers of each piece of state (R24 to R28, R34). -/

namespace Sys2Proof.Machine

open Sys2Proof.Safety

/-! ### Everything an event can do -/

/-- The states an event can lead to. `silent` stands for reads, answers, writes without effect, turns of an idle engine
and turns of a NONCE that waits: only the entropy port, the counter of busy reads and the reply can differ. -/
inductive EventEffect (s : State) (e : Event) (t : State) : Prop
  | silent (p : EntropyPort) (b : Nat) (r : Option Reply) (ht : t = { s with port := p, busyReads := b, reply := r })
  | launch (w : Word) (he : e = .write 0x008 w) (hbusy : s.busy = false) (herr : s.err = none) (hherr : s.herr = false)
      (ht : t = (s.launch w).replyWrite)
  | protocolError (a : Addr) (v : Word) (he : e = .write a v) (ht : t = s.protocolError.replyWrite)
  | clearErrors (he : e = .write 0x00C 1) (ht : t = s.clearErrors.replyWrite)
  | writeValue (i : RegNo) (w : Fin 8) (v : Word) (he : e = .write (valueAddr i w) v) (hbusy : s.busy = false)
      (ht : t = State.replyWrite { s with regs := setReg s.regs i ⟨replaceWord (s.reg i).val w v, .raw⟩ })
  | writeSigWord (a : Addr) (w : Fin 18) (v : Word) (he : e = .write a v) (hbusy : s.busy = false)
      (ht : t = State.replyWrite { s with sigBuf := Memory.writeBytes s.sigBuf (sigWordAddr w) (bytesOfWord v) })
  | writeSigLen (a : Addr) (v : Word) (he : e = .write a v) (hbusy : s.busy = false) (hv : v.toNat ≤ 72)
      (ht : t = State.replyWrite { s with sigLen := v.setWidth 7 })
  | abort (w : Word) (ins : Inputs) (d : Nat) (c : ErrCode) (he : e = .engine) (hrun : s.engine = .running w ins d)
      (ht : t = s.abort c)
  | commit (w : Word) (ins : Inputs) (d : Nat) (i : Instr) (f : Effect) (he : e = .engine)
      (hrun : s.engine = .running w ins d) (hdec : decode w = .ok i) (hlegal : EffectLegal i ins f)
      (ht : t = s.commit f)
  | draw (w : Word) (ins : Inputs) (d : Nat) (he : e = .engine) (hrun : s.engine = .running w ins d)
      (ht : t = s.requestEntropy)
  | reset (he : e = .reset) (ht : t = s.resetAll)

theorem EventEffect.unchanged (s : State) (e : Event) : EventEffect s e s := .silent s.port s.busyReads s.reply rfl

theorem eventEffect_read {a : Addr} {s t : State} (h : busRead a s = .next t) : EventEffect s (.read a) t := by
  obtain ⟨l, -, ⟨-, -, rfl⟩ | ⟨-, rfl⟩⟩ := busRead_cases h
  · exact .silent _ _ _ rfl
  · exact .silent _ _ _ rfl

theorem eventEffect_write {a : Addr} {v : Word} {s t : State} (h : busWrite a v s = .next t) :
    EventEffect s (.write a v) t := by
  obtain ⟨u, rfl, hu⟩ := busWrite_cases h
  rcases hu with ⟨rfl, hb, he, hh, rfl⟩ | rfl | ⟨rfl, rfl, rfl⟩ | rfl | ⟨i, w, rfl, hb, rfl⟩ | ⟨w, hb, rfl⟩ |
    ⟨hb, hv, rfl⟩
  · exact .launch v rfl hb he hh rfl
  · exact .protocolError a v rfl rfl
  · exact .clearErrors rfl rfl
  · exact .silent _ _ _ rfl
  · exact .writeValue i w v rfl hb rfl
  · exact .writeSigWord a w v rfl hb rfl
  · exact .writeSigLen a v rfl hb hv rfl

theorem eventEffect_engine {s t : State} (h : engineTurn s = .next t) : EventEffect s .engine t := by
  rcases engineTurn_effect h with ⟨-, rfl⟩ | ⟨w, ins, d, hrun, h⟩
  · exact .unchanged t .engine
  · rcases h with ⟨c, rfl⟩ | ⟨i, f, hdec, hlegal, rfl⟩ | ⟨rd, -, rfl | rfl⟩
    · exact .abort w ins d c rfl hrun rfl
    · exact .commit w ins d i f rfl hrun hdec hlegal rfl
    · exact .draw w ins d rfl hrun rfl
    · exact .unchanged t .engine

/-- A step does what its next event can do to the state without that event. -/
theorem step_eventEffect {s t : State} (h : step s = .next t) : EventEffect s.popInput s.nextEvent t := by
  rcases step_cases h with ⟨a, he, h⟩ | ⟨a, v, he, h⟩ | ⟨he, h⟩ | ⟨n, a, he, rfl⟩ | ⟨he, rfl⟩
  · exact he ▸ eventEffect_read h
  · exact he ▸ eventEffect_write h
  · exact he ▸ eventEffect_engine h
  · rcases takeAnswer_cases s.popInput n a with ⟨-, h⟩ | ⟨-, h⟩
    · rw [h]
      exact .silent _ _ _ rfl
    · rw [h]
      exact .unchanged _ _
  · exact .reset he rfl

/-! ### Field values stay below their modulus (R21) -/

theorem regsReduced_setReg {rs : Vector FReg 16} {i : RegNo} {x : FReg} (h : RegsReduced rs)
    (hx : ∀ m, x.tag.modulus = some m → x.val.toNat < m) : RegsReduced (setReg rs i x) := by
  intro j
  rw [getReg_setReg]
  split
  · exact hx
  · exact h j

theorem regsReduced_writeRegs {rs : Vector FReg 16} {l : List (RegNo × FReg)} (h : RegsReduced rs)
    (hl : ∀ p ∈ l, ∀ m, p.2.tag.modulus = some m → p.2.val.toNat < m) : RegsReduced (writeRegs rs l) := by
  induction l generalizing rs with
  | nil => exact h
  | cons p l ih =>
    obtain ⟨hp, hl⟩ := List.forall_mem_cons.1 hl
    exact ih (regsReduced_setReg h hp) hl

/-- No register after reset has a modulus. -/
theorem regsReduced_reset : RegsReduced State.reset.regs := by
  intro i m hm
  rw [getReg_reset] at hm
  cases hm

/-- Captured values with tag P are below P, so that a command reading them commits reduced values. -/
theorem lt_P_of_regsReduced {rs : Vector FReg 16} (h : RegsReduced rs) {r : RegNo} (hr : (getReg rs r).tag = .p) :
    (getReg rs r).val.toNat < Config.P := h r Config.P (by rw [hr]; rfl)

theorem EventEffect.fieldValuesReduced {s t : State} {e : Event} (h : EventEffect s e t) (hs : FieldValuesReduced s) :
    FieldValuesReduced t := by
  obtain ⟨hlive, hcaptured⟩ := hs
  cases h with
  | launch w _ _ _ _ ht =>
    subst ht
    refine ⟨hlive, fun w ins d hrun => ?_⟩
    cases hrun
    exact hlive
  | writeValue i w v _ _ ht => subst ht; exact ⟨regsReduced_setReg hlive nofun, hcaptured⟩
  | abort _ _ _ _ _ _ ht => subst ht; exact ⟨hlive, nofun⟩
  | commit w ins d i f _ hrun _ hlegal ht =>
    subst ht
    have hins := hcaptured w ins d hrun
    exact ⟨regsReduced_writeRegs hlive (hlegal.reduced fun _ => lt_P_of_regsReduced hins), nofun⟩
  | draw w ins d _ hrun ht =>
    subst ht
    refine ⟨hlive, fun w' ins' d' hrun' => ?_⟩
    rw [State.requestEntropy_engine_running hrun] at hrun'
    cases hrun'
    exact hcaptured w ins d hrun
  | reset _ ht => subst ht; exact ⟨regsReduced_reset, nofun⟩
  -- No other event touches a register file, live or captured.
  | _ => subst t; exact ⟨hlive, hcaptured⟩

/-- Settles O55: commands commit reduced values when the captured ones are, and host writes leave RAW. -/
theorem stepKeepsFieldValuesReduced : Obligations.StepKeepsFieldValuesReduced := by
  unfold Obligations.StepKeepsFieldValuesReduced
  exact fun s t hs h => (step_eventEffect h).fieldValuesReduced hs

/-! ### SIGBUF stays in its 72 bytes (R35, R36) -/

/-- Writing bytes inside SIGBUF keeps a legal SIGBUF and SIGLEN legal. -/
theorem sigStoreLegal_writeBytes {s t : State} {a : Nat} {bs : List Byte} (hs : SigStoreLegal s)
    (ha : sigBase ≤ a) (hbs : a + bs.length ≤ sigBase + sigSize) (hbuf : t.sigBuf = Memory.writeBytes s.sigBuf a bs)
    (hlen : t.sigLen.toNat ≤ sigSize) : SigStoreLegal t := by
  obtain ⟨hwf, hrange, -⟩ := hs
  rw [SigStoreLegal, hbuf]
  refine ⟨Memory.writeBytes_wf hwf a bs, fun c hc => ?_, hlen⟩
  rcases Memory.mem_writeBytes hc with hold | hnew
  · exact hrange c hold
  · omega

theorem sigStoreLegal_commit {s : State} {i : Instr} {o : Inputs} {f : Effect} (hs : SigStoreLegal s)
    (hf : EffectLegal i o f) : SigStoreLegal (s.commit f) := by
  cases hsig : f.sig with
  | none =>
    rw [SigStoreLegal, State.commit_sigBuf, State.commit_sigLen, Effect.sigBuf, Effect.sigLen, hsig]
    exact hs
  | some p =>
    obtain ⟨bs, l⟩ := p
    obtain ⟨hbs, hl, -⟩ := hf.sig bs l hsig
    refine sigStoreLegal_writeBytes (bs := bs) hs le_rfl (by rw [hbs]) ?_ ?_
    · rw [State.commit_sigBuf, Effect.sigBuf, hsig]
    · rw [State.commit_sigLen, Effect.sigLen, hsig]
      exact hl

theorem EventEffect.sigStoreLegal {s t : State} {e : Event} (h : EventEffect s e t) (hs : SigStoreLegal s) :
    SigStoreLegal t := by
  cases h with
  | writeSigWord a w v _ _ ht =>
    subst ht
    have hw := w.isLt
    have ⟨_, _, hlen⟩ := hs
    refine sigStoreLegal_writeBytes (a := sigWordAddr w) (bs := bytesOfWord v) hs (Nat.le_add_right _ _) ?_ rfl hlen
    simp only [sigWordAddr, bytesOfWord, List.length_cons, List.length_nil, sigSize]
    omega
  | writeSigLen a v _ _ hv ht =>
    subst ht
    obtain ⟨hwf, hrange, -⟩ := hs
    refine ⟨hwf, hrange, ?_⟩
    simp only [State.replyWrite_sigLen, BitVec.toNat_setWidth]
    exact (Nat.mod_le _ _).trans hv
  | commit _ _ _ _ _ _ _ _ hlegal ht => subst ht; exact sigStoreLegal_commit hs hlegal
  | reset _ ht => subst ht; exact ⟨rfl, nofun, Nat.zero_le _⟩
  -- No other event touches SIGBUF or SIGLEN.
  | _ => subst t; exact hs

/-- Settles O56: only host words and DERENC's 72 bytes are written, all inside SIGBUF. -/
theorem stepKeepsSigStoreLegal : Obligations.StepKeepsSigStoreLegal := by
  unfold Obligations.StepKeepsSigStoreLegal
  exact fun s t hs h => (step_eventEffect h).sigStoreLegal hs

/-! ### The status bits agree with the engine (R26, R68, R202, R203) -/

theorem engineConsistent_idle {s : State} (he : s.engine = .idle) : EngineConsistent s ↔ s.busy = false := by
  simp only [EngineConsistent, he]

theorem engineConsistent_running {s : State} {w : Word} {ins : Inputs} {d : Nat} (he : s.engine = .running w ins d) :
    EngineConsistent s ↔
      s.busy = true ∧ s.done = false ∧ s.err = none ∧ s.cmd = w ∧ ins = s.capture := by
  simp only [EngineConsistent, he]

/-- With the engine consistent, it is idle while BUSY is 0. -/
theorem idle_of_not_busy {s : State} (hs : EngineConsistent s) (hb : s.busy = false) :
    s.engine = .idle := by
  cases he : s.engine with
  | idle => rfl
  | running w ins d =>
    obtain ⟨hbusy, -⟩ := (engineConsistent_running he).1 hs
    rw [hb] at hbusy
    cases hbusy

/-- With the engine consistent, a running command has no error recorded. -/
theorem err_of_running {s : State} {w : Word} {ins : Inputs} {d : Nat} (hs : EngineConsistent s)
    (he : s.engine = .running w ins d) : s.err = none := by
  obtain ⟨-, -, herr, -⟩ := (engineConsistent_running he).1 hs
  exact herr

/-- A change that leaves the engine, BUSY, DONE, CMD and the operands alone, and ERR too or clears it, keeps the
agreement. -/
theorem engineConsistent_of_same {s t : State} (hs : EngineConsistent s) (hengine : t.engine = s.engine)
    (hbusy : t.busy = s.busy) (hdone : t.done = s.done) (herr : t.err = s.err ∨ t.err = none) (hcmd : t.cmd = s.cmd)
    (hcapture : t.capture = s.capture) : EngineConsistent t := by
  cases he : s.engine with
  | idle =>
    rw [engineConsistent_idle he] at hs
    rw [engineConsistent_idle (hengine.trans he), hbusy, hs]
  | running w ins d =>
    obtain ⟨hb, hd, herr', hc, hins⟩ := (engineConsistent_running he).1 hs
    rw [engineConsistent_running (hengine.trans he), hbusy, hdone, hcmd, hcapture]
    exact ⟨hb, hd, herr.elim (·.trans herr') id, hc, hins⟩

theorem EventEffect.engineConsistent {s t : State} {e : Event} (h : EventEffect s e t) (hs : EngineConsistent s) :
    EngineConsistent t := by
  -- A write of an operand leaves the engine idle and BUSY 0.
  have hidle : s.busy = false → t.engine = s.engine → t.busy = s.busy → EngineConsistent t := fun hb heng hbusy =>
    (engineConsistent_idle (heng.trans (idle_of_not_busy hs hb))).2 (hbusy.trans hb)
  cases h with
  | silent p b r ht => subst ht; exact hs
  | launch w _ _ herr _ ht => subst ht; exact ⟨rfl, rfl, herr, rfl, rfl⟩
  | protocolError _ _ _ ht => subst ht; exact engineConsistent_of_same hs rfl rfl rfl (.inl rfl) rfl rfl
  | clearErrors _ ht => subst ht; exact engineConsistent_of_same hs rfl rfl rfl (.inr rfl) rfl rfl
  | writeValue _ _ _ _ hb ht => subst ht; exact hidle hb rfl rfl
  | writeSigWord _ _ _ _ hb ht => subst ht; exact hidle hb rfl rfl
  | writeSigLen _ _ _ hb _ ht => subst ht; exact hidle hb rfl rfl
  | abort _ _ _ _ _ _ ht => subst ht; exact rfl
  | commit _ _ _ _ _ _ _ _ _ ht => subst ht; exact rfl
  | draw w ins d _ hrun ht =>
    subst ht
    exact (engineConsistent_running (State.requestEntropy_engine_running hrun)).2 ((engineConsistent_running hrun).1 hs)
  | reset _ ht => subst ht; exact rfl

/-- Settles O57: acceptance sets the bits the engine then agrees with, and only a commit, an abort or reset ends it. -/
theorem stepKeepsEngineConsistent : Obligations.StepKeepsEngineConsistent := by
  unfold Obligations.StepKeepsEngineConsistent
  exact fun s t hs h => (step_eventEffect h).engineConsistent hs

/-! ### ERR and HERR are sticky (R26, R207) -/

theorem EventEffect.herr_sticky {s t : State} {e : Event} (h : EventEffect s e t) (hreset : e ≠ .reset)
    (hclear : e ≠ .write 0x00C 1) (hs : s.herr = true) : t.herr = true := by
  cases h with
  | clearErrors he _ => exact absurd he hclear
  | reset he _ => exact absurd he hreset
  | protocolError _ _ _ ht => subst ht; rfl
  | _ => subst t; exact hs

theorem EventEffect.err_sticky {s t : State} {e : Event} (h : EventEffect s e t) (hreset : e ≠ .reset)
    (hclear : e ≠ .write 0x00C 1) (hs : EngineConsistent s) (herr : s.err ≠ none) : t.err = s.err := by
  cases h with
  | clearErrors he _ => exact absurd he hclear
  | reset he _ => exact absurd he hreset
  | abort _ _ _ _ _ hrun _ => exact absurd (err_of_running hs hrun) herr
  | _ => subst t; rfl

/-- Settles O40: only CLR_ERR and reset clear the bits, and no command runs, to abort, while ERR is set. -/
theorem errorBitsAreSticky : Obligations.ErrorBitsAreSticky := by
  unfold Obligations.ErrorBitsAreSticky
  intro s t h hreset hclear
  have heff := step_eventEffect h
  exact ⟨heff.herr_sticky hreset hclear, heff.err_sticky hreset hclear⟩

/-! ### The writers of ERRINFO, EQ, Z and the registers (R24, R25, R27, R28, R34, R55) -/

theorem EventEffect.errInfo_change {s t : State} {e : Event} (h : EventEffect s e t) (hreset : e ≠ .reset) :
    t.errInfo = s.errInfo ∨ (e = .engine ∧ ∃ c, Aborted s t c ∧ t.errInfo = s.commandWord) := by
  cases h with
  | abort _ _ _ c he _ ht => subst ht; exact .inr ⟨he, c, aborted_abort s c, rfl⟩
  | reset he _ => exact absurd he hreset
  | _ => subst t; exact .inl rfl

theorem EventEffect.eq_change {s t : State} {e : Event} (h : EventEffect s e t) (hne : t.eq ≠ s.eq) :
    e = .reset ∨ (e = .engine ∧ t.err = s.err ∧
      ∃ w ins d rs1 rs2, s.engine = .running w ins d ∧ decode w = .ok (.feq rs1 rs2)) := by
  cases h with
  | commit w ins d i f he hrun hdec hlegal ht =>
    subst ht
    have hf : f.eq ≠ none := fun h => hne (by rw [State.commit_eq, h, Option.getD_none])
    obtain ⟨rs1, rs2, rfl⟩ := hlegal.eq hf
    exact .inr ⟨he, rfl, w, ins, d, rs1, rs2, hrun, hdec⟩
  | reset he _ => exact .inl he
  | _ => subst t; exact absurd rfl hne

theorem EventEffect.z_change {s t : State} {e : Event} (h : EventEffect s e t) (hne : t.z ≠ s.z) :
    e = .reset ∨ (e = .engine ∧ t.err = s.err ∧
      ∃ w ins d i, s.engine = .running w ins d ∧ decode w = .ok i ∧ writesZ i = true) := by
  cases h with
  | commit w ins d i f he hrun hdec hlegal ht =>
    subst ht
    have hf : f.z ≠ none := fun h => hne (by rw [State.commit_z, h, Option.getD_none])
    exact .inr ⟨he, rfl, w, ins, d, i, hrun, hdec, hlegal.z hf⟩
  | reset he _ => exact .inl he
  | _ => subst t; exact absurd rfl hne

theorem EventEffect.reg_change {s t : State} {e : Event} (h : EventEffect s e t) {r : RegNo}
    (hne : t.reg r ≠ s.reg r) :
    e = .reset ∨
      ((∃ w v, e = .write (valueAddr r w) v) ∧ s.busy = false ∧ (t.reg r).tag = .raw) ∨
      (e = .engine ∧ t.busy = false ∧ t.done = true ∧ t.err = s.err ∧
        ∃ w ins d i, s.engine = .running w ins d ∧ decode w = .ok i ∧ r ∈ destinations i) := by
  cases h with
  | writeValue i w v he hb ht =>
    subst ht
    obtain rfl : i = r := by
      by_contra hir
      exact hne (getReg_setReg_of_ne s.regs _ hir)
    refine .inr (.inl ⟨⟨w, v, he⟩, hb, ?_⟩)
    rw [State.reg_eq, State.replyWrite_regs, getReg_setReg_self]
  | commit w ins d i f he hrun hdec hlegal ht =>
    subst ht
    have hr : r ∈ destinations i := by
      by_contra hr
      exact hne (onlyRegs_commit hlegal.dests r hr)
    exact .inr (.inr ⟨he, rfl, rfl, rfl, w, ins, d, i, hrun, hdec, hr⟩)
  | reset he _ => exact .inl he
  | _ => subst t; exact absurd rfl hne

/-- A turn with a command keeps every register that is not its destination, and, unless it is DERENC, SIGBUF and
SIGLEN. -/
theorem exec_frame {i : Instr} {s t : State} (h : exec i s = .next t) :
    OnlyRegs s t (destinations i) ∧ ((∀ rs1 rs2, i ≠ .derenc rs1 rs2) → SigSame s t) := by
  have keeps : ∀ u : State, exec i s = .next u → t = u := fun u h' => Host.Outcome.next.inj (h.symm.trans h')
  rcases exec_cases i s with ⟨f, hlegal, h'⟩ | ⟨c, -, h'⟩ | ⟨rd, -, h' | h'⟩
  · obtain rfl := keeps _ h'
    refine ⟨onlyRegs_commit hlegal.dests, fun hder => sigSame_commit ?_⟩
    by_contra hsig
    obtain ⟨⟨bs, l⟩, hsig⟩ := Option.ne_none_iff_exists'.1 hsig
    obtain ⟨-, -, rs1, rs2, hi⟩ := hlegal.sig bs l hsig
    exact hder rs1 rs2 hi
  · obtain rfl := keeps _ h'
    exact ⟨fun _ _ => rfl, fun _ => ⟨rfl, fun _ => rfl⟩⟩
  · obtain rfl := keeps _ h'
    exact ⟨fun _ _ => rfl, fun _ => ⟨rfl, fun _ => rfl⟩⟩
  · obtain rfl := keeps _ h'
    exact ⟨onlyRegs_refl t _, fun _ => sigSame_refl t⟩

/-- Settles O51: among commits only FEQ's effect holds an EQ. -/
theorem eqChangesOnlyByFeq : Obligations.EqChangesOnlyByFeq := by
  unfold Obligations.EqChangesOnlyByFeq
  exact fun s t h hne => (step_eventEffect h).eq_change hne

/-- Settles O52: among commits only the effects of R28's commands hold a Z. -/
theorem zChangesOnlyByItsCommands : Obligations.ZChangesOnlyByItsCommands := by
  unfold Obligations.ZChangesOnlyByItsCommands
  exact fun s t h hne => (step_eventEffect h).z_change hne

/-- Settles O53: a commit writes destinations only, and a host write the register of its window. -/
theorem registersChangeOnlyByTheirWriters : Obligations.RegistersChangeOnlyByTheirWriters := by
  unfold Obligations.RegistersChangeOnlyByTheirWriters
  exact ⟨fun i s t h => exec_frame h, fun s t r h hne => (step_eventEffect h).reg_change hne⟩

end Sys2Proof.Machine
end

section
/-! The registers of the host window that hold one fixed word or a part of the status (R26, R30, R32, R34, R35): what
their reads and writes do, on every state. -/

namespace Sys2Proof.Machine

open Sys2Proof.Safety

/-! ### Reads and writes of a located address -/

theorem blockSame_refl (s : State) : BlockSame s s :=
  ⟨onlyRegs_refl s _, sigSame_refl s, rfl, rfl, rfl, rfl, rfl, rfl, rfl, rfl, rfl, rfl, rfl, rfl⟩

/-- A read that is not a busy read returns the located word and leaves the block alone (R60). -/
theorem readsAs_readLoc {a : Addr} {l : Loc} {s : State} (h : locate a = .ok l)
    (hb : s.busy = false ∨ l.busyGuarded = false) : ReadsAs a s (readLoc s l) :=
  ⟨_, busRead_idle h hb, rfl, blockSame_refl s, rfl⟩

/-- A busy read of a guarded location returns a free value (R54, R57, R59). -/
theorem readsFree_of_busy {a : Addr} {l : Loc} {s : State} (h : locate a = .ok l) (hb : s.busy = true)
    (hg : l.busyGuarded = true) : ReadsFree a s :=
  ⟨_, busRead_free h hb hg, rfl, blockSame_refl s⟩

/-- Every write of a read-only location is a bus error (R58). -/
theorem writeFaults_of_readOnly {a : Addr} {l : Loc} {s : State} (h : locate a = .ok l) (hr : l.readOnly = true)
    (v : Word) : WriteFaults a v s := by
  obtain ⟨f, hf⟩ := writeLoc_error_iff.2 (.inl hr)
  exact ⟨f, busWrite_fault h hf⟩

theorem locate_id : locate 0x000 = .ok .id := by decide
theorem locate_status : locate 0x004 = .ok .status := by decide
theorem locate_errInfo : locate 0x010 = .ok .errInfo := by decide
theorem locate_sigLen : locate 0x014 = .ok .sigLen := by decide

/-! ### ID, CTRL, ERRINFO and SIGLEN -/

/-- Settles O42: ID is a constant of the block, readable at all times. -/
theorem idReadsItsConstant : Obligations.IdReadsItsConstant := by
  unfold Obligations.IdReadsItsConstant
  exact fun s => ⟨readsAs_readLoc locate_id (.inr rfl), writeFaults_of_readOnly locate_id rfl⟩

/-- A write of 0 or 1 to CTRL: CLR_ERR by bit 0 (R32, R207). -/
theorem busWrite_ctrl {s : State} {v : Word} (hv : v.toNat < 2) :
    busWrite 0x00C v s = .next (if v = 1 then s.clearErrors else s).replyWrite :=
  busWrite_ok (locate_eq_ctrl.2 rfl) (writeCtrl_ok hv)

/-- Settles O39: bit 0 is CLR_ERR, and no other bit may be set. -/
theorem ctrlClearsErrors : Obligations.CtrlClearsErrors := by
  unfold Obligations.CtrlClearsErrors
  intro s
  refine ⟨⟨_, busWrite_ctrl (by decide), rfl, rfl, blockSame_refl s.clearErrors⟩,
    ⟨_, busWrite_ctrl (by decide), blockSame_refl s⟩, fun v hv => ?_,
    readsAs_readLoc (locate_eq_ctrl.2 rfl) (.inr rfl)⟩
  exact ⟨_, busWrite_fault (locate_eq_ctrl.2 rfl) (writeCtrl_error hv)⟩

/-- Settles O41: of the events other than reset, only an abort writes ERRINFO. -/
theorem errInfoIsWrittenByAbortsOnly : Obligations.ErrInfoIsWrittenByAbortsOnly := by
  unfold Obligations.ErrInfoIsWrittenByAbortsOnly
  refine ⟨fun s => ?_, rfl, fun s t h hreset => (step_eventEffect h).errInfo_change hreset⟩
  exact ⟨readsAs_readLoc locate_errInfo (.inr rfl), writeFaults_of_readOnly locate_errInfo rfl⟩

/-- Settles O48: a write of SIGLEN while idle takes up to 72, and any other is a protocol error. -/
theorem sigLenRegister : Obligations.SigLenRegister := by
  unfold Obligations.SigLenRegister
  intro s v
  refine ⟨fun hb => ?_, fun hb => readsFree_of_busy locate_sigLen hb rfl, fun hb hv => ?_, fun hv => ?_, rfl⟩
  · have hread : readLoc s .sigLen = BitVec.ofNat 32 s.sigLen.toNat := (BitVec.ofNat_toNat 32 s.sigLen).symm
    exact hread ▸ readsAs_readLoc locate_sigLen (.inl hb)
  · have hw : writeLoc s 0x014 v .sigLen = .ok { s with sigLen := v.setWidth 7 } :=
      congrArg Except.ok (State.writeSigLen_idle hb hv)
    refine ⟨_, busWrite_ok locate_sigLen hw, ?_, blockSame_refl { s with sigLen := v.setWidth 7 }⟩
    rw [State.replyWrite_sigLen, BitVec.toNat_setWidth, Nat.mod_eq_of_lt (by omega)]
  · have hw : writeLoc s 0x014 v .sigLen = .ok s.protocolError := congrArg Except.ok (State.writeSigLen_error hv)
    exact ⟨_, busWrite_ok locate_sigLen hw, blockSame_refl s.protocolError⟩

/-! ### STATUS -/

/-- Appending a lower part adds its number to the upper part, shifted (R26, R70). -/
theorem toNat_append_eq_add {m n : Nat} (x : BitVec m) (y : BitVec n) : (x ++ y).toNat = x.toNat * 2 ^ n + y.toNat := by
  rw [BitVec.toNat_append, ← Nat.shiftLeft_add_eq_or_of_lt y.isLt, Nat.shiftLeft_eq]

theorem toNat_status (s : State) :
    s.status.toNat = 256 * s.herr.toNat + 16 * (errBits s.err).toNat + 8 * s.z.toNat + 4 * s.eq.toNat
      + 2 * s.done.toNat + s.busy.toNat := by
  simp only [State.status, toNat_append_eq_add, BitVec.toNat_ofBool, BitVec.ofNat_eq_ofNat, BitVec.toNat_ofNat]
  omega

/-- A bit of a word, read off its number. -/
theorem getLsbD_of_toNat {x : Word} {i : Nat} {b : Bool} (h : x.toNat / 2 ^ i % 2 = b.toNat) : x.getLsbD i = b := by
  rw [BitVec.getLsbD, Nat.testBit_eq_decide_div_mod_eq, h]
  cases b <;> rfl

/-- Settles O43: each field is a digit of the STATUS word's number, and all of them together are below 512. -/
theorem statusReadsItsFields : Obligations.StatusReadsItsFields := by
  unfold Obligations.StatusReadsItsFields
  intro s
  have hcode : (errBits s.err).toNat < 16 := (errBits s.err).isLt
  have hherr := s.herr.toNat_lt
  have hz := s.z.toNat_lt
  have heq := s.eq.toNat_lt
  have hdone := s.done.toNat_lt
  have hbusy := s.busy.toNat_lt
  have herr : s.status.toNat / 16 % 16 = (errBits s.err).toNat := by
    rw [toNat_status]
    omega
  refine ⟨writeFaults_of_readOnly locate_status rfl, s.status, readsAs_readLoc locate_status (.inr rfl),
    getLsbD_of_toNat ?_, getLsbD_of_toNat ?_, getLsbD_of_toNat ?_, getLsbD_of_toNat ?_, getLsbD_of_toNat ?_, ?_,
    herr.trans ?code⟩
  case code =>
    cases s.err with
    | none => rfl
    | some c => cases c <;> rfl
  all_goals
    rw [toNat_status]
    omega

end Sys2Proof.Machine
end

section
/-! The host bus (R50 to R60): what every transaction and every step can end with, and the value, tag and SIGBUF
windows. -/

namespace Sys2Proof.Machine

open Sys2Proof.Safety

/-! ### How a transaction ends (R52, R58) -/

theorem readFaults_of_not_listed {a : Addr} (h : ¬Listed a) (s : State) : ReadFaults a s := by
  cases hl : locate a with
  | ok l => exact absurd ((listed_iff a).2 ⟨l, hl⟩) h
  | error f => exact ⟨f, by rw [busRead, hl]⟩

theorem writeFaults_of_not_listed {a : Addr} (h : ¬Listed a) (v : Word) (s : State) : WriteFaults a v s := by
  cases hl : locate a with
  | ok l => exact absurd ((listed_iff a).2 ⟨l, hl⟩) h
  | error f => exact ⟨f, by rw [busWrite, hl]⟩

/-- A read of a listed address ends with OK and some data, free or not. -/
theorem busRead_of_listed {a : Addr} (h : Listed a) (s : State) :
    ∃ t d, busRead a s = .next t ∧ t.reply = some (.readOk d) := by
  obtain ⟨l, hl⟩ := (listed_iff a).1 h
  by_cases hfree : s.busy = true ∧ l.busyGuarded = true
  · exact ⟨_, _, busRead_free hl hfree.1 hfree.2, rfl⟩
  · exact ⟨_, _, busRead_idle hl (by simpa [imp_iff_not_or] using hfree), rfl⟩

/-- The write transactions to a listed address that R32 and R58 exclude. -/
def WriteExcluded (a : Addr) (v : Word) : Prop :=
  a ∈ [0x000, 0x004, 0x010] ∨ (0x300 ≤ a.toNat ∧ a.toNat < 0x340) ∨ (a = 0x00C ∧ 2 ≤ v.toNat)

theorem writeLoc_error_iff_excluded {a : Addr} {l : Loc} (h : locate a = .ok l) (s : State) (v : Word) :
    (∃ f, writeLoc s a v l = .error f) ↔ WriteExcluded a v := by
  have hctrl : l = .ctrl ↔ a = 0x00C := by rw [← locate_eq_ctrl, h, Except.ok.injEq]
  rw [writeLoc_error_iff, readOnly_iff h, hctrl, or_assoc, WriteExcluded]

theorem writeFaults_of_excluded {a : Addr} {v : Word} (h : Listed a) (hv : WriteExcluded a v) (s : State) :
    WriteFaults a v s := by
  obtain ⟨l, hl⟩ := (listed_iff a).1 h
  obtain ⟨f, hf⟩ := (writeLoc_error_iff_excluded hl s v).2 hv
  exact ⟨f, busWrite_fault hl hf⟩

theorem busWrite_of_not_excluded {a : Addr} {v : Word} (h : Listed a) (hv : ¬WriteExcluded a v) (s : State) :
    ∃ t, busWrite a v s = .next t ∧ t.reply = some .writeOk := by
  obtain ⟨l, hl⟩ := (listed_iff a).1 h
  cases hw : writeLoc s a v l with
  | ok u => exact ⟨_, busWrite_ok hl hw, rfl⟩
  | error f => exact absurd ((writeLoc_error_iff_excluded hl s v).1 ⟨f, hw⟩) hv

/-- Settles O49: the addresses that name nothing fault, and of the others only the excluded writes do. -/
theorem busErrorsExactlyWhereStated : Obligations.BusErrorsExactlyWhereStated := by
  unfold Obligations.BusErrorsExactlyWhereStated
  intro s a v
  exact ⟨fun h => ⟨readFaults_of_not_listed h s, writeFaults_of_not_listed h v s⟩, fun h => busRead_of_listed h s,
    readsAs_readLoc (locate_eq_ctrl.2 rfl) (.inr rfl),
    fun h => ⟨fun hv => writeFaults_of_excluded h hv s, fun hv => busWrite_of_not_excluded h hv s⟩⟩

/-! ### How a step ends (R52) -/

theorem busRead_next_or_fault (a : Addr) (s : State) : (∃ t, busRead a s = .next t) ∨ ReadFaults a s := by
  by_cases h : Listed a
  · obtain ⟨t, d, ht, -⟩ := busRead_of_listed h s
    exact .inl ⟨t, ht⟩
  · exact .inr (readFaults_of_not_listed h s)

theorem busWrite_next_or_fault (a : Addr) (v : Word) (s : State) :
    (∃ t, busWrite a v s = .next t) ∨ WriteFaults a v s := by
  by_cases h : Listed a
  · by_cases hv : WriteExcluded a v
    · exact .inr (writeFaults_of_excluded h hv s)
    · obtain ⟨t, ht, -⟩ := busWrite_of_not_excluded h hv s
      exact .inl ⟨t, ht⟩
  · exact .inr (writeFaults_of_not_listed h v s)

/-- Every event leads to a next state, but for a host transaction that ends with a bus error. -/
theorem handle_next_or_fault (e : Event) (s : State) :
    (∃ t, handle e s = .next t) ∨
      ((∃ a, e = .read a) ∨ ∃ a v, e = .write a v) ∧ ∃ f, handle e s = .fault f := by
  cases e with
  | read a => exact (busRead_next_or_fault a s).imp_right fun h => ⟨.inl ⟨a, rfl⟩, h⟩
  | write a v => exact (busWrite_next_or_fault a v s).imp_right fun h => ⟨.inr ⟨a, v, rfl⟩, h⟩
  | engine => exact .inl (engineTurn_next s)
  | answer n a => exact .inl ⟨_, rfl⟩
  | reset => exact .inl ⟨_, rfl⟩

/-- Settles O7: a step has a next state, or is a host transaction that faults. -/
theorem onlyBusErrorsStopTheMachine : Obligations.OnlyBusErrorsStopTheMachine := by
  unfold Obligations.OnlyBusErrorsStopTheMachine
  refine ⟨exec_next, fun s r hr => ?_, fun s f hf => ?_⟩
  · rcases handle_next_or_fault s.nextEvent s.popInput with ⟨t, ht⟩ | ⟨-, f, hf⟩
    · cases hr.symm.trans ht
    · cases hr.symm.trans hf
  · rcases handle_next_or_fault s.nextEvent s.popInput with ⟨t, ht⟩ | ⟨hhost, -⟩
    · cases hf.symm.trans ht
    · exact hhost

/-! ### Reads (R60) -/

/-- The data of a read does not depend on how the transaction before it ended. -/
theorem readLoc_replyRead (s : State) (d : Word) (l : Loc) : readLoc (s.replyRead d) l = readLoc s l := by
  cases l <;> rfl

/-- A read leaves the block as it was. -/
theorem blockSame_of_busRead {a : Addr} {s t : State} (h : busRead a s = .next t) : BlockSame s t := by
  obtain ⟨l, -, ⟨-, -, rfl⟩ | ⟨-, rfl⟩⟩ := busRead_cases h
  · exact blockSame_refl s
  · exact blockSame_refl s

/-- Settles O50: an idle read leaves the located word, and so the data of the next read, as it was. -/
theorem readsHaveNoSideEffect : Obligations.ReadsHaveNoSideEffect := by
  unfold Obligations.ReadsHaveNoSideEffect
  refine ⟨fun a s t h => blockSame_of_busRead h, fun a s t u hb ht hu => ?_⟩
  obtain ⟨l, hl⟩ : ∃ l, locate a = .ok l := (busRead_cases ht).imp fun _ h => h.1
  rw [busRead_idle hl (.inl hb)] at ht
  obtain rfl := Host.Outcome.next.inj ht
  have hb' : (s.replyRead (readLoc s l)).busy = false := hb
  rw [busRead_idle hl (.inl hb')] at hu
  obtain rfl := Host.Outcome.next.inj hu
  rw [State.replyRead_reply, State.replyRead_reply, readLoc_replyRead]

/-! ### Writes while a command runs (R206) -/

/-- A write that is a protocol error ends with OK and sets HERR only. -/
theorem busWrite_onlyHerrSet {a : Addr} {l : Loc} {v : Word} {s : State} (h : locate a = .ok l)
    (hw : writeLoc s a v l = .ok s.protocolError) : ∃ t, busWrite a v s = .next t ∧ OnlyHerrSet s t :=
  ⟨_, busWrite_ok h hw, blockSame_refl s.protocolError⟩

/-- Of the events of a busy state only a turn of the engine and reset reach what a command reads or writes. -/
theorem EventEffect.frozen_of_busy {s t : State} {e : Event} (h : EventEffect s e t) (hb : s.busy = true)
    (hengine : e ≠ .engine) (hreset : e ≠ .reset) :
    OnlyRegs s t [] ∧ SigSame s t ∧ t.eq = s.eq ∧ t.z = s.z ∧ t.cmd = s.cmd ∧ t.engine = s.engine ∧
      t.busy = true := by
  have not_idle : s.busy ≠ false := by simp [hb]
  cases h with
  | launch _ _ hidle _ _ _ => exact absurd hidle not_idle
  | writeValue _ _ _ _ hidle _ => exact absurd hidle not_idle
  | writeSigWord _ _ _ _ hidle _ => exact absurd hidle not_idle
  | writeSigLen _ _ _ hidle _ _ => exact absurd hidle not_idle
  | abort _ _ _ _ he _ _ => exact absurd he hengine
  | commit _ _ _ _ _ he _ _ _ _ => exact absurd he hengine
  | draw _ _ _ he _ _ => exact absurd he hengine
  | reset he _ => exact absurd he hreset
  -- What is left writes error bits, the port and the model's own fields.
  | _ => subst t; exact ⟨onlyRegs_refl s [], sigSame_refl s, rfl, rfl, rfl, rfl, hb⟩

/-- Settles O54: every write of an operand and every launch needs BUSY 0. -/
theorem busyOperandsAreFrozen : Obligations.BusyOperandsAreFrozen := by
  unfold Obligations.BusyOperandsAreFrozen
  exact fun s t h => (step_eventEffect h).frozen_of_busy

/-! ### The value windows (R54, R55) -/

/-- Word `w` of a value as a number: its bits `255-32w : 224-32w`. -/
theorem wordOfVal_eq (v : Val) (w : Fin 8) :
    wordOfVal v w = BitVec.ofNat 32 (v.toNat / 2 ^ (224 - 32 * w.val) % 2 ^ 32) := by
  apply BitVec.eq_of_toNat_eq
  rw [wordOfVal, BitVec.extractLsb'_toNat, Nat.shiftRight_eq_div_pow, BitVec.toNat_ofNat, Nat.mod_mod]

/-- Settles O44: the located word, read as a quotient and a remainder of the register's number. -/
theorem valueWindowRead : Obligations.ValueWindowRead := by
  unfold Obligations.ValueWindowRead
  intro s i w
  refine ⟨fun hb => ?_, fun hb => readsFree_of_busy (locate_valueAddr i w) hb rfl⟩
  rw [← wordOfVal_eq]
  exact readsAs_readLoc (locate_valueAddr i w) (.inl hb)

/-- Settles O45: the write replaces one word of the register, and while busy is a protocol error. -/
theorem valueWindowWrite : Obligations.ValueWindowWrite := by
  unfold Obligations.ValueWindowWrite
  intro s i w v
  refine ⟨fun hb => ?_, fun hb => ?_⟩
  · have hw : writeLoc s (valueAddr i w) v (.value i w) =
        .ok { s with regs := setReg s.regs i ⟨replaceWord (s.reg i).val w v, .raw⟩ } :=
      congrArg Except.ok (State.writeValueWord_idle hb i w v)
    refine ⟨_, busWrite_ok (locate_valueAddr i w) hw, ?_, fun u => ?_, fun j hj => ?_, blockSame_refl _⟩
    · rw [State.reg_eq, State.replyWrite_regs, getReg_setReg_self]
    · rw [State.reg_eq, State.replyWrite_regs, getReg_setReg_self]
      exact extract_replaceWord _ w u v
    · exact getReg_setReg_of_ne _ _ fun hij => hj (by simp [hij])
  · exact busWrite_onlyHerrSet (locate_valueAddr i w) (congrArg Except.ok (State.writeValueWord_busy hb i w v))

/-! ### The TAG window (R57) -/

/-- Settles O46: the bits of each of the four tags, at a location that is read-only. -/
theorem tagWindow : Obligations.TagWindow := by
  unfold Obligations.TagWindow
  intro s i
  refine ⟨fun hb => ?_, fun hb => readsFree_of_busy (locate_tagAddr i) hb rfl,
    writeFaults_of_readOnly (locate_tagAddr i) rfl⟩
  have hread := readsAs_readLoc (s := s) (locate_tagAddr i) (.inl hb)
  cases ht : (s.reg i).tag <;> simpa [readLoc, ht, Tag.bits] using hread

/-! ### The SIGBUF window (R56, R59) -/

/-- The four bytes of a word, put together again. -/
theorem append_bytesOfWord (v : Word) :
    (v.extractLsb' 24 8 ++ v.extractLsb' 16 8 ++ v.extractLsb' 8 8 ++ v.extractLsb' 0 8 : Word) = v := by
  apply BitVec.eq_of_toNat_eq
  have hv := v.isLt
  simp only [toNat_append_eq_add, BitVec.extractLsb'_toNat, Nat.shiftRight_eq_div_pow]
  omega

/-- Reading back a word written to memory gives the word. -/
theorem Memory.readWord_writeBytes {m : Memory} (hm : m.wf = true) (a : Nat) (v : Word) :
    (Memory.writeBytes m a (bytesOfWord v)).readWord a = v := by
  have hbyte : ∀ k, k < 4 → (Memory.writeBytes m a (bytesOfWord v)).read (a + k) = (bytesOfWord v).getD k 0 := by
    intro k hk
    have hin : a ≤ a + k ∧ a + k < a + (bytesOfWord v).length := ⟨a.le_add_right k, Nat.add_lt_add_left hk a⟩
    rw [Memory.read_writeBytes hm, if_pos hin, Nat.add_sub_cancel_left]
  have hfirst := hbyte 0 (by omega)
  rw [Nat.add_zero] at hfirst
  rw [Memory.readWord, hfirst, hbyte 1 (by omega), hbyte 2 (by omega), hbyte 3 (by omega)]
  exact append_bytesOfWord v

/-- Settles O47: the window is the word at its byte address, and a write of it touches those four bytes. -/
theorem sigBufWindow : Obligations.SigBufWindow := by
  unfold Obligations.SigBufWindow
  intro s w v
  refine ⟨fun hb => readsAs_readLoc (locate_sigAddr w) (.inl hb), fun hb => readsFree_of_busy (locate_sigAddr w) hb rfl,
    fun hb hm => ?_, fun hb => ?_⟩
  · have hw : writeLoc s (sigAddr w) v (.sigWord w) =
        .ok { s with sigBuf := Memory.writeBytes s.sigBuf (sigWordAddr w) (bytesOfWord v) } :=
      congrArg Except.ok (State.writeSigWord_idle hb w v)
    refine ⟨_, busWrite_ok (locate_sigAddr w) hw, Memory.readWord_writeBytes hm _ v, fun a ha => ?_, rfl,
      blockSame_refl _⟩
    have hout : ¬(sigWordAddr w ≤ a ∧ a < sigWordAddr w + (bytesOfWord v).length) := by
      simp only [sigWordAddr, bytesOfWord, List.length_cons, List.length_nil]
      omega
    exact (Memory.read_writeBytes hm _ _ a).trans (if_neg hout)
  · exact busWrite_onlyHerrSet (locate_sigAddr w) (congrArg Except.ok (State.writeSigWord_busy hb w v))

end Sys2Proof.Machine
end

section
/-! What the decoder answers, said once for every word (R70 to R80): a well-formed command whose fields are those of the
word, or a rejection of fields that R79 lists. -/

namespace Sys2Proof

open Sys2Proof.Safety

/-! ### The fields that a class marks 0 (R71, R72) -/

/-- The opcodes whose class marks RD 0. -/
abbrev RdReserved (o : BitVec 8) : Prop := o.toNat ∈ [0x00, 0x10, 0x30]

/-- The opcodes whose class marks RS1 0. -/
abbrev Rs1Reserved (o : BitVec 8) : Prop := o.toNat ∈ [0x00, 0x02, 0x03, 0x20, 0x31, 0x40]

/-- The opcodes whose class marks RS2 0. -/
abbrev Rs2Reserved (o : BitVec 8) : Prop := o.toNat ∈ [0x00, 0x01, 0x02, 0x03, 0x0C, 0x0E, 0x20, 0x31, 0x40]

/-- The opcodes whose class marks MSEL 0. -/
abbrev MselReserved (o : BitVec 8) : Prop := o.toNat ≠ 0x01

/-- The opcodes whose class marks IMM8 0. -/
abbrev ImmReserved (o : BitVec 8) : Prop := o.toNat ∉ [0x02, 0x03, 0x0D]

/-- The fields with every reserved one set to 0. -/
def clearReserved (f : Fields) : Fields where
  opc := f.opc
  rd := if RdReserved f.opc then 0 else f.rd
  rs1 := if Rs1Reserved f.opc then 0 else f.rs1
  rs2 := if Rs2Reserved f.opc then 0 else f.rs2
  msel := if MselReserved f.opc then 0 else f.msel
  imm := if ImmReserved f.opc then 0 else f.imm

section
variable {f : Fields}

/-- A nonzero value in a reserved field is illegal (R72, R79). -/
theorem illegalFields_of_reserved
    (h : (f.rd ≠ 0 ∧ RdReserved f.opc) ∨ (f.rs1 ≠ 0 ∧ Rs1Reserved f.opc) ∨ (f.rs2 ≠ 0 ∧ Rs2Reserved f.opc) ∨
      (f.msel ≠ 0 ∧ MselReserved f.opc) ∨ (f.imm ≠ 0 ∧ ImmReserved f.opc)) : IllegalFields f := by
  rcases h with h | h | h | h | h
  · exact .inr (.inl (h.imp_left Fin.val_ne_of_ne))
  · exact .inr (.inr (.inl (h.imp_left Fin.val_ne_of_ne)))
  · exact .inr (.inr (.inr (.inl (h.imp_left Fin.val_ne_of_ne))))
  · exact .inr (.inr (.inr (.inr (.inl (h.imp_left BitVec.toNat_ne_iff_ne.2)))))
  · exact .inr (.inr (.inr (.inr (.inr (.inl (h.imp_left BitVec.toNat_ne_iff_ne.2))))))

theorem eq_ite_of_imp {α : Type} {p : Prop} [Decidable p] {x y : α} (h : p → x = y) : x = if p then y else x :=
  (ite_eq_right_iff.2 fun hp => (h hp).symm).symm

/-- Fields that clearing the reserved ones changes are illegal (R72, R79). -/
theorem illegalFields_of_ne_clearReserved (h : ¬f = clearReserved f) : IllegalFields f := by
  contrapose! h
  have hzero := mt illegalFields_of_reserved h
  obtain ⟨opc, rd, rs1, rs2, msel, imm⟩ := f
  simp only [not_or, not_and', not_not] at hzero
  obtain ⟨hrd, hrs1, hrs2, hmsel, himm⟩ := hzero
  simp only [clearReserved, Fields.mk.injEq, true_and]
  exact ⟨eq_ite_of_imp hrd, eq_ite_of_imp hrs1, eq_ite_of_imp hrs2, eq_ite_of_imp hmsel, eq_ite_of_imp himm⟩

/-! ### What a decoder may answer -/

/-- What a decoder may answer on the fields `f`: a well-formed command whose fields they are (R71, R76), or a rejection
when R79 lists them. -/
def AnswersFor (f : Fields) : Except Reject Instr → Prop
  | .ok i => i.WellFormed = true ∧ f = fieldsOfInstr i
  | .error _ => IllegalFields f

theorem answersFor_ite {p : Prop} [Decidable p] {a b : Except Reject Instr} (ha : p → AnswersFor f a)
    (hb : ¬p → AnswersFor f b) : AnswersFor f (if p then a else b) := by
  by_cases h : p
  · exact if_pos h ▸ ha h
  · exact if_neg h ▸ hb h

/-- A decoder that tests the reserved fields before it goes on. -/
theorem answersFor_class {p : Prop} [Decidable p] {d : Except Reject Instr} (hp : p ↔ f = clearReserved f)
    (hd : f = clearReserved f → AnswersFor f d) : AnswersFor f (if p then d else .error .reservedField) :=
  answersFor_ite (fun h => hd (hp.1 h)) fun h => illegalFields_of_ne_clearReserved (mt hp.2 h)

/-- A decoder that tests the reserved fields only. -/
theorem answersFor_acceptIf {i : Instr} {ok : Bool} (hok : ok = true ↔ f = clearReserved f) (hwf : i.WellFormed = true)
    (hi : clearReserved f = fieldsOfInstr i) : AnswersFor f (acceptIf ok .reservedField i) :=
  answersFor_class hok fun h => ⟨hwf, h.trans hi⟩

/-- An ill-formed command has an odd pair field (R76). -/
theorem exists_odd_of_not_wellFormed {i : Instr} (h : ¬i.WellFormed = true) : ∃ q ∈ i.pairFields, q.val % 2 = 1 := by
  simpa [Instr.WellFormed, evenPair] using h

/-- A decoder that tests the reserved fields and then the pair fields. -/
theorem answersFor_pairs {i : Instr} {p : Prop} [Decidable p] (hp : p ↔ f = clearReserved f)
    (hi : clearReserved f = fieldsOfInstr i) (hodd : ∀ q ∈ i.pairFields, q.val % 2 = 1 → IllegalFields f) :
    AnswersFor f (if p then acceptPairs i else .error .reservedField) :=
  answersFor_class hp fun h => answersFor_ite (fun hwf => ⟨hwf, h.trans hi⟩) fun hwf =>
    have ⟨q, hq, hqodd⟩ := exists_odd_of_not_wellFormed hwf
    hodd q hq hqodd

/-- One row of the opcode map (R77): `d` decodes the fields of opcode `o`, and the rest of the map the others. -/
theorem answersFor_opcode (o : BitVec 8) (d : Fields → Except Reject Instr) {e : Except Reject Instr}
    (he : f.opc ≠ o → AnswersFor f e)
    (hd : ∀ rd rs1 rs2 msel imm, AnswersFor ⟨o, rd, rs1, rs2, msel, imm⟩ (d ⟨o, rd, rs1, rs2, msel, imm⟩)) :
    AnswersFor f (if f.opc = o then d f else e) :=
  answersFor_ite (fun h => by subst h; exact hd _ _ _ _ _) he

end

/-! ### The commands with a code in MSEL or IMM8 (R73, R74) -/

section
variable (rd rs1 rs2 : RegNo) (msel : BitVec 4) (imm : Byte)

theorem answersFor_fred : AnswersFor ⟨0x01, rd, rs1, rs2, msel, imm⟩ (decodeFred ⟨0x01, rd, rs1, rs2, msel, imm⟩) := by
  refine answersFor_class (by simp [clearReserved]) fun h => ?_
  obtain ⟨rfl, rfl⟩ : rs2 = 0 ∧ imm = 0 := by simpa [clearReserved] using h
  refine answersFor_ite ?raw fun h0 => answersFor_ite ?p fun h1 => answersFor_ite ?n fun h2 => ?other
  case other =>
    have hmsel : 3 ≤ msel.toNat := by bv_omega
    simp [AnswersFor, IllegalFields, hmsel]
  all_goals
    rintro ⟨⟩
    exact ⟨rfl, rfl⟩

theorem answersFor_ldc : AnswersFor ⟨0x03, rd, rs1, rs2, msel, imm⟩ (decodeLdc ⟨0x03, rd, rs1, rs2, msel, imm⟩) := by
  refine answersFor_class (by simp [clearReserved]) fun h => ?_
  obtain ⟨rfl, rfl, rfl⟩ : rs1 = 0 ∧ rs2 = 0 ∧ msel = 0 := by simpa [clearReserved] using h
  refine answersFor_ite ?p fun h0 => answersFor_ite ?n fun h1 => answersFor_ite ?gx fun h2 =>
    answersFor_ite ?gy fun h3 => ?other
  case other =>
    have himm : 3 < imm.toNat := by bv_omega
    simp [AnswersFor, IllegalFields, himm]
  all_goals
    rintro ⟨⟩
    exact ⟨rfl, rfl⟩

theorem answersFor_fpow : AnswersFor ⟨0x0D, rd, rs1, rs2, msel, imm⟩ (decodeFpow ⟨0x0D, rd, rs1, rs2, msel, imm⟩) := by
  refine answersFor_class (by simp [clearReserved]) fun h => ?_
  obtain rfl : msel = 0 := by simpa [clearReserved] using h
  refine answersFor_ite ?positive fun h0 => answersFor_ite ?negative fun h1 => ?other
  case other =>
    have himm : imm.toNat / 2 ≠ 0 := by bv_omega
    simp [AnswersFor, IllegalFields, himm, -Nat.div_eq_zero_iff]
  all_goals
    rintro ⟨⟩
    exact ⟨rfl, rfl⟩

end

/-! ### The opcode map (R77) -/

/-- Decoding answers every word as R71 to R79 ask. After the rows of the map stand the unassigned opcodes, the commands
with pair fields, and those whose class tests the reserved fields only. -/
theorem answersFor_decodeFields (f : Fields) : AnswersFor f (decodeFields f) := by
  unfold decodeFields
  refine answersFor_opcode 0x00 (decodeZ · .nop) (fun _ => ?_) ?_
  refine answersFor_opcode 0x01 decodeFred (fun _ => ?_) answersFor_fred
  refine answersFor_opcode 0x02 (fun f => acceptIf (f.rs1 == 0 && f.rs2 == 0 && f.msel == 0) .reservedField
    (.fldi f.rd f.imm)) (fun _ => ?_) ?_
  refine answersFor_opcode 0x03 decodeLdc (fun _ => ?_) answersFor_ldc
  refine answersFor_opcode 0x08 (decodeR3 · .fadd) (fun _ => ?_) ?_
  refine answersFor_opcode 0x09 (decodeR3 · .fsub) (fun _ => ?_) ?_
  refine answersFor_opcode 0x0A (decodeR3 · .fmul) (fun _ => ?_) ?_
  refine answersFor_opcode 0x0B (decodeR3 · .fdiv) (fun _ => ?_) ?_
  refine answersFor_opcode 0x0C (decodeR2 · .finv) (fun _ => ?_) ?_
  refine answersFor_opcode 0x0D decodeFpow (fun _ => ?_) answersFor_fpow
  refine answersFor_opcode 0x0E (decodeR2 · .fneg) (fun _ => ?_) ?_
  refine answersFor_opcode 0x0F (decodeR3 · .fmod) (fun _ => ?_) ?_
  refine answersFor_opcode 0x10 (decodeC2 · .feq) (fun _ => ?_) ?_
  refine answersFor_opcode 0x20 (decodeQ1 · .ldg) (fun _ => ?_) ?ldg
  refine answersFor_opcode 0x21 (decodeQ3 · .padd) (fun _ => ?_) ?padd
  refine answersFor_opcode 0x22 (decodeQ3 · .pmul) (fun _ => ?_) ?pmul
  refine answersFor_opcode 0x30 (decodeC2 · .derenc) (fun _ => ?_) ?_
  refine answersFor_opcode 0x31 (decodeQ1 · .derdec) (fun _ => ?_) ?derdec
  refine answersFor_opcode 0x40 (decodeR1 · .nonce) (fun _ => .inl ?_) ?_
  · simp only [List.mem_cons, List.not_mem_nil, or_false]
    bv_omega
  case ldg | padd | pmul | derdec =>
    exact fun _ _ _ _ _ =>
      answersFor_pairs (by simp [clearReserved]) rfl (by simp +contextual [Instr.pairFields, IllegalFields])
  all_goals exact fun _ _ _ _ _ => answersFor_acceptIf (by simp [clearReserved, and_assoc]) rfl rfl

/-! ### Decoding and encoding are inverse (R70 to R77, R80) -/

theorem decodeFields_eq_ok {f : Fields} {i : Instr} (h : decodeFields f = .ok i) :
    i.WellFormed = true ∧ f = fieldsOfInstr i := by
  have := answersFor_decodeFields f
  rwa [h] at this

theorem illegalFields_of_error {f : Fields} {r : Reject} (h : decodeFields f = .error r) : IllegalFields f := by
  have := answersFor_decodeFields f
  rwa [h] at this

theorem decodeFields_fieldsOfInstr {i : Instr} (h : i.WellFormed = true) : decodeFields (fieldsOfInstr i) = .ok i := by
  cases i with
  | ldc rd cid => cases cid <;> rfl
  | fpow rd rs1 rs2 neg => cases neg <;> rfl
  | ldg qd => exact if_pos h
  | padd qd qa qb => exact if_pos h
  | pmul qd rk qb => exact if_pos h
  | derdec qd => exact if_pos h
  | _ => rfl

/-- A well-formed command is encoded by its fields and by no other word (R70, R80). -/
theorem encodedBy_fieldsOfInstr {i : Instr} (h : i.WellFormed = true) : EncodedBy i (fieldsOfInstr i) := by
  intro w
  constructor
  · intro hw
    rw [← (decodeFields_eq_ok hw).2, packFields_fieldsOf]
  · rintro rfl
    rw [decode_packFields, decodeFields_fieldsOfInstr h]

theorem wellFormed_of_decode {w : Word} {i : Instr} (h : decode w = .ok i) : i.WellFormed = true :=
  (decodeFields_eq_ok h).1

/-- Settles O1: a well-formed command's fields, packed and taken apart again, decode to the command. -/
theorem decodeOfEncodeIsIdentity : Obligations.DecodeOfEncodeIsIdentity := by
  unfold Obligations.DecodeOfEncodeIsIdentity
  exact fun i h => (encodedBy_fieldsOfInstr h (encode i)).2 rfl

/-- Settles O2: the decoder answers with a command only for the fields that encode it. -/
theorem decodedWordIsTheEncoding : Obligations.DecodedWordIsTheEncoding := by
  unfold Obligations.DecodedWordIsTheEncoding
  intro w i h
  have hwf := wellFormed_of_decode h
  exact ⟨((encodedBy_fieldsOfInstr hwf w).1 h).symm, hwf⟩

/-- Settles O4: thirteen fixed words. -/
theorem workedEncodingsDecode : Obligations.WorkedEncodingsDecode := by
  unfold Obligations.WorkedEncodingsDecode
  decide

/-! ### The illegal words (R79) -/

theorem not_illegalFields_fieldsOfInstr {i : Instr} (h : i.WellFormed = true) : ¬IllegalFields (fieldsOfInstr i) := by
  cases i with
  | ldc rd cid => cases cid <;> simp [IllegalFields, fieldsOfInstr, ConstId.code]
  | fpow rd rs1 rs2 neg => cases neg <;> simp [IllegalFields, fieldsOfInstr]
  | _ => simp_all [IllegalFields, fieldsOfInstr, Instr.WellFormed, Instr.pairFields, evenPair]

theorem illegalFields_iff (w : Word) : IllegalFields (fieldsOf w) ↔ ∃ r, decode w = .error r := by
  refine ⟨fun hill => ?_, fun ⟨r, hr⟩ => illegalFields_of_error hr⟩
  cases hw : decode w with
  | error r => exact ⟨r, rfl⟩
  | ok i =>
    obtain ⟨hwf, hf⟩ := decodeFields_eq_ok hw
    exact absurd (hf ▸ hill) (not_illegalFields_fieldsOfInstr hwf)

/-- A word that R79 does not list decodes (R80). -/
theorem decode_of_not_illegalFields {w : Word} (h : ¬IllegalFields (fieldsOf w)) : ∃ i, decode w = .ok i := by
  cases hw : decode w with
  | error r => exact absurd (illegalFields_of_error hw) h
  | ok i => exact ⟨i, rfl⟩

end Sys2Proof

namespace Sys2Proof.Machine

open Sys2Proof.Safety

/-- A running illegal word aborts, whatever its opcode (R72, R79). -/
theorem illegalFormsAbort (opc : BitVec 8) : IllegalFormsAbort opc := by
  intro s w ins d hrun _ hill
  obtain ⟨r, hr⟩ := (illegalFields_iff w).1 hill
  exact ⟨s.abort .illegal, by simp only [engineTurn, hrun, hr], aborted_abort s .illegal⟩

theorem locate_cmd : locate 0x008 = .ok .cmd := by decide

/-- A write to CMD that is accepted launches the word (R202). -/
theorem busWrite_cmd_accepted {s : State} (hb : s.busy = false) (he : s.err = none) (hh : s.herr = false) (w : Word) :
    busWrite 0x008 w s = .next (s.launch w).replyWrite :=
  busWrite_ok locate_cmd (congrArg Except.ok (State.offer_idle hb he hh w))

/-- Settles O5: acceptance does not look at the word, and the engine's turn on an undecodable one is an abort. -/
theorem illegalWordsAreAcceptedThenAbort : Obligations.IllegalWordsAreAcceptedThenAbort := by
  unfold Obligations.IllegalWordsAreAcceptedThenAbort
  refine ⟨illegalFields_iff, fun s w hb he hh hill => ?_⟩
  have hrun : (s.launch w).replyWrite.engine = .running w s.capture 0 := rfl
  obtain ⟨u, hturn, habort⟩ := illegalFormsAbort _ _ w _ _ hrun rfl hill
  have ⟨_, hinfo, _⟩ := habort
  rw [State.commandWord_running hrun] at hinfo
  exact ⟨_, u, busWrite_cmd_accepted hb he hh w, rfl, rfl, onlyRegs_refl s [], sigSame_refl s, rfl, rfl, rfl, hturn,
    habort, hinfo⟩

end Sys2Proof.Machine
end

section
/-! The match and mask rows of R78: a word meets the row of the command it decodes to and no other, and a word that
meets a row has none of the faults R79 lists. -/

namespace Sys2Proof

open Sys2Proof.Safety

/-! ### The row of a command -/

/-- The word of every well-formed command meets its row. -/
theorem encodedRow : ∀ i : Instr, Laws.EncodedRow.Statement i
  | .nop => Laws.EncodedRow.nop
  | .fredRaw rd rs1 => Laws.EncodedRow.fredRaw rd rs1
  | .fredP rd rs1 => Laws.EncodedRow.fredP rd rs1
  | .fredN rd rs1 => Laws.EncodedRow.fredN rd rs1
  | .fldi rd imm => Laws.EncodedRow.fldi rd imm
  | .ldc rd cid => Laws.EncodedRow.ldc rd cid
  | .fadd rd rs1 rs2 => Laws.EncodedRow.fadd rd rs1 rs2
  | .fsub rd rs1 rs2 => Laws.EncodedRow.fsub rd rs1 rs2
  | .fmul rd rs1 rs2 => Laws.EncodedRow.fmul rd rs1 rs2
  | .fdiv rd rs1 rs2 => Laws.EncodedRow.fdiv rd rs1 rs2
  | .finv rd rs1 => Laws.EncodedRow.finv rd rs1
  | .fpow rd rs1 rs2 neg => Laws.EncodedRow.fpow rd rs1 rs2 neg
  | .fneg rd rs1 => Laws.EncodedRow.fneg rd rs1
  | .fmod rd rs1 rs2 => Laws.EncodedRow.fmod rd rs1 rs2
  | .feq rs1 rs2 => Laws.EncodedRow.feq rs1 rs2
  | .ldg qd => Laws.EncodedRow.ldg qd
  | .padd qd qa qb => Laws.EncodedRow.padd qd qa qb
  | .pmul qd rk qb => Laws.EncodedRow.pmul qd rk qb
  | .derenc rs1 rs2 => Laws.EncodedRow.derenc rs1 rs2
  | .derdec qd => Laws.EncodedRow.derdec qd
  | .nonce rd => Laws.EncodedRow.nonce rd

/-- The row of a command. -/
abbrev Instr.row (i : Instr) : Word × Word := (i.matchWord, i.maskWord)

theorem row_mem_opcodeRows (i : Instr) : i.row ∈ opcodeRows := by
  cases i <;> simp [Instr.row, Instr.matchWord, Instr.maskWord, opcodeRows]

theorem meetsRow_of_decode {w : Word} {i : Instr} (h : decode w = .ok i) : meetsRow w i.row = true := by
  have hwf := wellFormed_of_decode h
  have hw : w = encode i := (encodedBy_fieldsOfInstr hwf w).1 h
  exact hw ▸ beq_iff_eq.2 (encodedRow i hwf)

/-- Two rows that one word meets agree on the bits that both look at. -/
theorem rows_agree_of_meetsRow {w : Word} {a b : Word × Word} (ha : meetsRow w a = true) (hb : meetsRow w b = true) :
    a.1 &&& (a.2 &&& b.2) = b.1 &&& (a.2 &&& b.2) := by
  rw [← beq_iff_eq.1 ha, ← beq_iff_eq.1 hb]
  ext i hi
  simp only [BitVec.getElem_and]
  grind

/-- A word meets one row at most (R78). -/
theorem row_eq_of_meetsRow {w : Word} {a b : Word × Word} (ha : a ∈ opcodeRows) (hb : b ∈ opcodeRows)
    (hwa : meetsRow w a = true) (hwb : meetsRow w b = true) : a = b := by
  have hdisjoint : opcodeRows.Pairwise fun a b => ¬(meetsRow w a = true ∧ meetsRow w b = true) :=
    opcodeRows_disjoint.imp fun hne h => hne (rows_agree_of_meetsRow h.1 h.2)
  have : Std.Symm fun a b => ¬(meetsRow w a = true ∧ meetsRow w b = true) := ⟨fun _ _ h h' => h h'.symm⟩
  by_contra hne
  exact hdisjoint.forall ha hb hne ⟨hwa, hwb⟩

/-! ### A word that meets a row -/

/-- A word meets a row in each of its fields. -/
theorem extractLsb'_of_meetsRow {w : Word} {row : Word × Word} (h : meetsRow w row = true) (lo n : Nat) :
    w.extractLsb' lo n &&& row.2.extractLsb' lo n = row.1.extractLsb' lo n := by
  rw [← BitVec.extractLsb'_and, beq_iff_eq.1 h]

theorem and_one_eq_zero_iff {x : BitVec 4} : x &&& 1#4 = 0#4 ↔ x.toNat % 2 = 0 := by
  rw [← BitVec.toNat_inj, BitVec.toNat_and]
  exact (Nat.and_one_is_mod _).congr_left

theorem and_254_eq_zero_iff {x : Byte} : x &&& 254#8 = 0#8 ↔ x.toNat / 2 = 0 := by
  revert x
  decide

theorem and_252_eq_zero_iff {x : Byte} : x &&& 252#8 = 0#8 ↔ x.toNat ≤ 3 := by
  revert x
  decide

/-- Fields that meet the fields of a row (R70) are legal. -/
theorem not_illegalFields_of_masked {row : Word × Word} (hr : row ∈ opcodeRows) {opc imm : BitVec 8}
    {rd rs1 rs2 msel : BitVec 4}
    (hopc : opc &&& row.2.extractLsb' 24 8 = row.1.extractLsb' 24 8)
    (hrd : rd &&& row.2.extractLsb' 20 4 = row.1.extractLsb' 20 4)
    (hrs1 : rs1 &&& row.2.extractLsb' 16 4 = row.1.extractLsb' 16 4)
    (hrs2 : rs2 &&& row.2.extractLsb' 12 4 = row.1.extractLsb' 12 4)
    (hmsel : msel &&& row.2.extractLsb' 8 4 = row.1.extractLsb' 8 4)
    (himm : imm &&& row.2.extractLsb' 0 8 = row.1.extractLsb' 0 8) :
    ¬IllegalFields ⟨opc, regOfBits rd, regOfBits rs1, regOfBits rs2, msel, imm⟩ := by
  have and_255 (x : BitVec 8) : x &&& 255#8 = x := BitVec.and_allOnes
  have and_15 (x : BitVec 4) : x &&& 15#4 = x := BitVec.and_allOnes
  rw [IllegalFields]
  simp only [opcodeRows, List.mem_cons, List.not_mem_nil, or_false] at hr
  -- Every row looks at all of OPC, at the reserved fields, and at just those bits of the others that R79 wants 0.
  rcases hr with rfl | rfl | rfl | rfl | rfl | rfl | rfl | rfl | rfl | rfl | rfl | rfl | rfl | rfl | rfl | rfl | rfl |
    rfl | rfl | rfl | rfl
  all_goals simp_all [regOfBits, and_one_eq_zero_iff, and_254_eq_zero_iff, and_252_eq_zero_iff]

theorem not_illegalFields_of_meetsRow {w : Word} {row : Word × Word} (hr : row ∈ opcodeRows)
    (h : meetsRow w row = true) : ¬IllegalFields (fieldsOf w) :=
  have hpart := extractLsb'_of_meetsRow h
  not_illegalFields_of_masked hr (hpart 24 8) (hpart 20 4) (hpart 16 4) (hpart 12 4) (hpart 8 4) (hpart 0 8)

theorem decodes_iff_meetsRow (w : Word) : (∃ i, decode w = .ok i) ↔ ∃ row ∈ opcodeRows, meetsRow w row = true := by
  constructor
  · rintro ⟨i, hi⟩
    exact ⟨i.row, row_mem_opcodeRows i, meetsRow_of_decode hi⟩
  · rintro ⟨row, hr, hw⟩
    exact decode_of_not_illegalFields (not_illegalFields_of_meetsRow hr hw)

/-- Settles O3: a decoded word meets its command's row, rows exclude each other, and a word that meets one is legal. -/
theorem decodableWordsAreTheTableRows : Obligations.DecodableWordsAreTheTableRows := by
  unfold Obligations.DecodableWordsAreTheTableRows
  refine ⟨decodes_iff_meetsRow, fun w i hi => ⟨row_mem_opcodeRows i, fun row hr => ⟨fun hw => ?_, ?_⟩⟩⟩
  · exact row_eq_of_meetsRow hr (row_mem_opcodeRows i) hw (meetsRow_of_decode hi)
  · rintro rfl
    exact meetsRow_of_decode hi

end Sys2Proof
end

section
/-! The field commands (R101 to R114): each commits the number of its formula or aborts with the first check that fails,
and over the prime moduli the powers of R12 and R109 are inverses. -/

namespace Sys2Proof.Machine

open Sys2Proof.Safety

/-! ### From the result of a command to its outcome -/

theorem abortsWith_of_complete {i : Instr} {s : State} {r : Except ErrCode Effect} {c : ErrCode}
    (h : exec i s = complete s r) (hr : r = .error c) : AbortsWith i s c :=
  abortsWith_of (by rw [h, hr, complete_eq, finish_error])

theorem commitsReg_of_complete {i : Instr} {s : State} {r : Except ErrCode Effect} {rd : RegNo} {n : Nat} {t : Tag}
    (h : exec i s = complete s r) (hr : r = .ok (writeField rd (valOf n) t)) (hn : n < 2 ^ 256) :
    CommitsReg i s rd n t :=
  commitsReg_of (by rw [h, hr, complete_eq, finish_ok]) (toNat_valOf hn)

/-- Z after a command that commits a register (R28). -/
theorem z_of_commitsReg {i : Instr} {s t : State} {rd : RegNo} {n : Nat} {tag : Tag} (h : CommitsReg i s rd n tag)
    (ht : exec i s = .next t) : t.z = decide (n = 0) := by
  obtain ⟨u, hu, -, -, hz, -⟩ := h
  obtain rfl : t = u := by simpa [ht] using hu
  exact hz

/-- The register value of the number a register value stands for. -/
theorem valOf_toNat {w : Nat} (v : BitVec w) : valOf v.toNat = v.setWidth 256 := BitVec.ofNat_toNat 256 v

/-! ### Operands by their tags (R10, R11) -/

theorem someUninit_one {s : State} {i : RegNo} : SomeUninit s [i] ↔ (arg s i).tag = .none := by
  simp [SomeUninit]

theorem someUninit_two {s : State} {i j : RegNo} :
    SomeUninit s [i, j] ↔ (arg s i).tag = .none ∨ (arg s j).tag = .none := by
  simp [SomeUninit]

/-- Readable operands (R10). -/
theorem readable_two {s : State} {i j : RegNo} (h : ¬SomeUninit s [i, j]) :
    (arg s i).tag ≠ .none ∧ (arg s j).tag ≠ .none := by
  rwa [someUninit_two, not_or] at h

/-- A command that reads two operands first (R10) fails with `E_UNINIT` when one of them has tag NONE. -/
theorem read_two_uninit {s : State} {i j : RegNo} (h : SomeUninit s [i, j]) {α : Type}
    (f : FReg → FReg → Except ErrCode α) :
    (do let x ← readOp s.operands i; let y ← readOp s.operands j; f x y) = .error .uninit := by
  by_cases hi : (arg s i).tag = .none
  · rw [readOp_error hi, except_error_bind]
  · have hj := (someUninit_two.1 h).resolve_left hi
    rw [readOp_ok hi, except_ok_bind, readOp_error hj, except_error_bind]

/-- A command that reads two readable operands goes on with them. -/
theorem read_two_ok {s : State} {i j : RegNo} (hi : (arg s i).tag ≠ .none) (hj : (arg s j).tag ≠ .none) {α : Type}
    (f : FReg → FReg → Except ErrCode α) :
    (do let x ← readOp s.operands i; let y ← readOp s.operands j; f x y) = f (arg s i) (arg s j) := by
  rw [readOp_ok hi, except_ok_bind, readOp_ok hj, except_ok_bind, arg, arg]

/-! ### Commands of one and of two field elements (R11, R100) -/

/-- A command that answers with `field2Result` is a command of two field-element operands. -/
theorem twoFieldCommand_of_complete {i : Instr} {s : State} {f : Nat → Nat → Nat → Nat} {rd rs1 rs2 : RegNo}
    (h : exec i s = complete s (field2Result f rd rs1 rs2 s.operands)) (hf : ∀ a b {m}, 0 < m → f a b m < m) :
    TwoFieldCommand i s rd rs1 rs2 fun m a b => f a b m := by
  refine ⟨fun hun => ?_, fun hread hbad => ?_, fun m hm htag => ?_⟩
  · exact abortsWith_of_complete h (by rw [field2Result, fieldOp2_uninit (someUninit_two.1 hun), except_error_bind])
  · obtain ⟨h1, h2⟩ := readable_two hread
    have hbad' : (arg s rs1).tag ≠ (arg s rs2).tag ∨ (arg s rs1).tag = .raw := by
      by_cases htag : (arg s rs1).tag = (arg s rs2).tag
      · simpa [htag] using hbad
      · exact .inl htag
    exact abortsWith_of_complete h (by rw [field2Result, fieldOp2_mismatch h1 h2 hbad', except_error_bind])
  · exact commitsReg_of_complete h (by rw [field2Result, fieldOp2_ok hm htag, except_ok_bind, arg, arg])
      ((hf _ _ (modulus_pos hm)).trans (modulus_lt hm))

/-- A command that answers with `field1Result` is a command of one field-element operand. -/
theorem oneFieldCommand_of_complete {i : Instr} {s : State} {f : Nat → Nat → Nat} {rd rs1 : RegNo}
    (h : exec i s = complete s (field1Result f rd rs1 s.operands)) (hf : ∀ a {m}, 0 < m → f a m < m) :
    OneFieldCommand i s rd rs1 fun m a => f a m := by
  refine ⟨fun hun => ?_, fun hraw => ?_, fun m hm => ?_⟩
  · exact abortsWith_of_complete h (by rw [field1Result, fieldOp1_uninit (someUninit_one.1 hun), except_error_bind])
  · exact abortsWith_of_complete h (by rw [field1Result, fieldOp1_mismatch hraw, except_error_bind])
  · exact commitsReg_of_complete h (by rw [field1Result, fieldOp1_ok hm, except_ok_bind, arg])
      ((hf _ (modulus_pos hm)).trans (modulus_lt hm))

theorem fdiv_twoField (s : State) (rd rs1 rs2 : RegNo) :
    TwoFieldCommand (.fdiv rd rs1 rs2) s rd rs1 rs2 fun m a b => divMod a b m :=
  twoFieldCommand_of_complete rfl divMod_lt

theorem finv_oneField (s : State) (rd rs1 : RegNo) :
    OneFieldCommand (.finv rd rs1) s rd rs1 fun m b => invMod b m :=
  oneFieldCommand_of_complete rfl invMod_lt

/-- Settles O14: FADD is the two-operand command of `addMod`. -/
theorem faddAddsModulo : Obligations.FaddAddsModulo := by
  unfold Obligations.FaddAddsModulo
  exact fun s rd rs1 rs2 =>
    ⟨encodedBy_fieldsOfInstr rfl, illegalFormsAbort _, twoFieldCommand_of_complete rfl addMod_lt⟩

/-- Settles O15: FSUB is the two-operand command of `subMod`. -/
theorem fsubSubtractsModulo : Obligations.FsubSubtractsModulo := by
  unfold Obligations.FsubSubtractsModulo
  exact fun s rd rs1 rs2 =>
    ⟨encodedBy_fieldsOfInstr rfl, illegalFormsAbort _, twoFieldCommand_of_complete rfl subMod_lt⟩

/-- Settles O16: FMUL is the two-operand command of `mulMod`. -/
theorem fmulMultipliesModulo : Obligations.FmulMultipliesModulo := by
  unfold Obligations.FmulMultipliesModulo
  exact fun s rd rs1 rs2 =>
    ⟨encodedBy_fieldsOfInstr rfl, illegalFormsAbort _, twoFieldCommand_of_complete rfl mulMod_lt⟩

/-- Settles O20: FNEG is the one-operand command of `negMod`. -/
theorem fnegNegatesModulo : Obligations.FnegNegatesModulo := by
  unfold Obligations.FnegNegatesModulo
  exact fun s rd rs1 => ⟨encodedBy_fieldsOfInstr rfl, illegalFormsAbort _, oneFieldCommand_of_complete rfl negMod_lt⟩

/-! ### Inverses over the prime moduli (R12, R33, R114) -/

theorem modulus_prime {t : Tag} {m : Nat} (h : t.modulus = some m) : m.Prime := by
  rcases modulus_eq_some.1 h with ⟨-, rfl⟩ | ⟨-, rfl⟩
  · exact prime_P
  · exact prime_N

theorem two_lt_modulus {t : Tag} {m : Nat} (h : t.modulus = some m) : 2 < m := by
  rcases modulus_eq_some.1 h with ⟨-, rfl⟩ | ⟨-, rfl⟩
  · exact two_lt_P
  · decide

theorem invMod_zero {m : Nat} (hm : 2 < m) : invMod 0 m = 0 := by
  rw [invMod_eq, zero_pow (by omega), Nat.zero_mod]

theorem divMod_zero (a : Nat) {m : Nat} (hm : 2 < m) : divMod a 0 m = 0 := by
  rw [divMod, invMod_zero hm, mul_zero, Nat.zero_mod]

/-- The inverse of a reduced element is 0 for 0 only: a prime that divides a power divides its base. -/
theorem invMod_eq_zero_iff {m b : Nat} (hp : m.Prime) (hm : 2 < m) (hb : b < m) : invMod b m = 0 ↔ b = 0 := by
  constructor
  · intro h
    rw [invMod_eq] at h
    have hdvd : m ∣ b := hp.dvd_of_dvd_pow (Nat.dvd_of_mod_eq_zero h)
    exact Nat.eq_zero_of_dvd_of_lt hdvd hb
  · rintro rfl
    exact invMod_zero hm

/-- A reduced element that is not 0 divided by itself is 1. -/
theorem divMod_self {m a : Nat} (hp : m.Prime) (hm : 2 < m) (h0 : 0 < a) (ha : a < m) : divMod a a m = 1 := by
  have : Fact m.Prime := ⟨hp⟩
  have hne : (a : ZMod m) ≠ 0 := fun h => h0.ne' (eq_of_cast_eq ha hp.pos (by rw [h, Nat.cast_zero]))
  exact eq_of_cast_eq (divMod_lt a a hp.pos) hp.one_lt (by rw [cast_divMod hm, div_self hne, Nat.cast_one])

/-- Fermat: a power whose exponent is a multiple of `m - 1` is 1. -/
theorem pow_mod_eq_one_of_dvd {m b k : Nat} (hp : m.Prime) (h0 : 0 < b) (hb : b < m) (hk : m - 1 ∣ k) :
    b ^ k % m = 1 := by
  obtain ⟨q, rfl⟩ := hk
  have hcop : Nat.Coprime b m := (Nat.coprime_of_lt_prime h0.ne' hb hp).symm
  have hone : b ^ (m - 1) ≡ 1 [MOD m] := Nat.totient_prime hp ▸ Nat.ModEq.pow_totient hcop
  have hpow : b ^ ((m - 1) * q) ≡ 1 [MOD m] := by
    rw [pow_mul]
    exact (hone.pow q).trans (by rw [one_pow])
  exact Eq.trans hpow (Nat.mod_eq_of_lt hp.one_lt)

/-- Settles O17: FDIV is the two-operand command of `divMod`, and `0^(m-2)` is 0. -/
theorem fdivDividesByFermat : Obligations.FdivDividesByFermat := by
  unfold Obligations.FdivDividesByFermat
  intro s rd rs1 rs2
  refine ⟨encodedBy_fieldsOfInstr rfl, illegalFormsAbort _, ?_, fun hsome htag hzero => ?_⟩
  · simpa only [divMod_eq] using fdiv_twoField s rd rs1 rs2
  · obtain ⟨m, hm⟩ := Option.isSome_iff_exists.1 hsome
    obtain ⟨-, -, hcommit⟩ := fdiv_twoField s rd rs1 rs2
    simpa [hzero, divMod_zero _ (two_lt_modulus hm)] using hcommit m hm htag

/-- Settles O23: over a prime modulus `a * a^(m-2)` is 1. -/
theorem fdivOfEqualOperandsIsOne : Obligations.FdivOfEqualOperandsIsOne := by
  unfold Obligations.FdivOfEqualOperandsIsOne
  intro s rd rs1 rs2 m hm heq h0 hlt
  obtain ⟨-, -, hcommit⟩ := fdiv_twoField s rd rs1 rs2
  simpa [heq, divMod_self (modulus_prime hm) (two_lt_modulus hm) h0 hlt] using hcommit m hm (by rw [heq])

/-- Settles O18: FINV is the one-operand command of `invMod`, which is 0 for 0 only. -/
theorem finvInvertsByFermat : Obligations.FinvInvertsByFermat := by
  unfold Obligations.FinvInvertsByFermat
  intro s rd rs1
  have ⟨_, _, hcommit⟩ := finv_oneField s rd rs1
  refine ⟨encodedBy_fieldsOfInstr rfl, illegalFormsAbort _, ?_, fun hsome hzero => ?_, fun m hm hlt => ?_⟩
  · simpa only [invMod_eq] using finv_oneField s rd rs1
  · obtain ⟨m, hm⟩ := Option.isSome_iff_exists.1 hsome
    simpa [hzero, invMod_zero (two_lt_modulus hm)] using hcommit m hm
  · obtain ⟨t, ht, -, -, hz, -⟩ := hcommit m hm
    refine ⟨t, ht, ?_⟩
    rw [hz, decide_eq_true_iff, invMod_eq_zero_iff (modulus_prime hm) (two_lt_modulus hm) hlt]
    exact val_eq_zero.symm

/-! ### FPOW (R109) -/

/-- The power of a readable base and exponent, unless the base is 0 and the exponent negative. -/
theorem fpow_commits {s : State} {rs1 rs2 : RegNo} {neg : Bool} {m : Nat} (rd : RegNo)
    (hm : (arg s rs1).tag.modulus = some m) (he : (arg s rs2).tag ≠ .none)
    (hok : neg = false ∨ (arg s rs2).val = 0 ∨ (arg s rs1).val ≠ 0) :
    CommitsReg (.fpow rd rs1 rs2 neg) s rd
      ((arg s rs1).val.toNat ^ powExponent (arg s rs2).val.toNat m neg % m) (arg s rs1).tag := by
  refine commitsReg_of_complete rfl ?_ ((Nat.mod_lt _ (modulus_pos hm)).trans (modulus_lt hm))
  rw [fpowResult, read_two_ok (tag_ne_none_of_modulus hm) he, asField_ok hm, except_ok_bind, powMod_eq, if_neg]
  simp only [Bool.and_eq_true, bne_iff_ne, beq_iff_eq]
  rintro ⟨⟨hneg, hexp⟩, hbase⟩
  rcases hok with h | h | h
  · simp [h] at hneg
  · exact hexp (val_eq_zero.1 h)
  · exact h (val_eq_zero.2 hbase)

theorem powExponent_of_nonneg {e : Nat} (m : Nat) {neg : Bool} (h : neg = false ∨ e = 0) :
    powExponent e m neg = e := by
  rcases h with rfl | rfl <;> simp [powExponent]

theorem powExponent_of_neg {e : Nat} (m : Nat) (h : e ≠ 0) : powExponent e m true = negMod e (m - 1) := by
  simp [powExponent, h]

/-- The reduced negative exponent and the exponent add up to a multiple of `m - 1`. -/
theorem dvd_powExponent_add {m : Nat} (hm : 2 < m) (e : Nat) : m - 1 ∣ powExponent e m true + e := by
  by_cases he : e = 0
  · simp [he, powExponent]
  · rw [powExponent_of_neg m he, ← Int.natCast_dvd_natCast, negMod]
    have hnn : 0 ≤ -(e : Int) % ((m - 1 : Nat) : Int) := Int.emod_nonneg _ (by omega)
    rw [Nat.cast_add, Int.toNat_of_nonneg hnn, Int.dvd_iff_emod_eq_zero, Int.emod_add_emod, neg_add_cancel,
      Int.zero_emod]

/-- Settles O19: the operands are read first, then the base's tag is checked, then the zero base. -/
theorem fpowRaisesToThePower : Obligations.FpowRaisesToThePower := by
  unfold Obligations.FpowRaisesToThePower
  intro s rd rs1 rs2 neg
  refine ⟨encodedBy_fieldsOfInstr rfl, illegalFormsAbort _, fun hun => ?_, fun hread hraw => ?_, fun m hm he =>
    ⟨fun hneg hexp hbase => ?_, fun hneg hexp hbase => ?_, fun hnonneg => ?_⟩⟩
  · exact abortsWith_of_complete rfl (read_two_uninit hun _)
  · obtain ⟨h1, h2⟩ := readable_two hread
    exact abortsWith_of_complete rfl (by rw [fpowResult, read_two_ok h1 h2, asField_raw hraw, except_error_bind])
  · refine abortsWith_of_complete rfl ?_
    rw [fpowResult, read_two_ok (tag_ne_none_of_modulus hm) he, asField_ok hm, except_ok_bind, if_pos]
    simp [hneg, hbase, mt val_eq_zero.2 hexp]
  · subst hneg
    have hcommit := fpow_commits rd hm he (neg := true) (.inr (.inr hbase))
    rwa [powExponent_of_neg m (mt val_eq_zero.2 hexp)] at hcommit
  · have hcommit := fpow_commits rd hm he (hnonneg.imp_right .inl)
    rwa [powExponent_of_nonneg m (hnonneg.imp_right val_eq_zero.1)] at hcommit

/-- Settles O24: the exponents of the two powers add up to a multiple of `m - 1`, and such a power is 1. -/
theorem fpowNegativeIsTheInverse : Obligations.FpowNegativeIsTheInverse := by
  unfold Obligations.FpowNegativeIsTheInverse
  intro s rd rs1 rs2 m hm he h0 hlt
  have hbase : (arg s rs1).val ≠ 0 := mt val_eq_zero.1 h0.ne'
  refine ⟨_, fpow_commits rd hm he (.inr (.inr hbase)), ?_⟩
  rw [← Nat.mul_mod, ← pow_add]
  exact pow_mod_eq_one_of_dvd (modulus_prime hm) h0 hlt (dvd_powExponent_add (two_lt_modulus hm) _)

/-! ### FMOD and FEQ (R111, R112) -/

/-- Settles O21: the operands are read first, then the divisor is checked. -/
theorem fmodTakesTheRemainder : Obligations.FmodTakesTheRemainder := by
  unfold Obligations.FmodTakesTheRemainder
  intro s rd rs1 rs2
  refine ⟨encodedBy_fieldsOfInstr rfl, illegalFormsAbort _, fun hun => ?_, fun hread hzero => ?_, fun hread hne => ?_⟩
  · exact abortsWith_of_complete rfl (read_two_uninit hun _)
  · obtain ⟨h1, h2⟩ := readable_two hread
    exact abortsWith_of_complete rfl (by rw [fmodResult, read_two_ok h1 h2, if_pos (val_eq_zero.1 hzero)])
  · obtain ⟨h1, h2⟩ := readable_two hread
    exact commitsReg_of_complete rfl (by rw [fmodResult, read_two_ok h1 h2, if_neg (mt val_eq_zero.2 hne)])
      ((Nat.mod_le _ _).trans_lt (arg s rs1).val.isLt)

theorem eqOfRegs_eq (a b : FReg) : eqOfRegs a b = decide (a.val = b.val ∧ a.tag = b.tag) := by
  simp [eqOfRegs, Bool.beq_eq_decide_eq]

/-- Settles O22: FEQ's effect on readable operands is EQ alone. -/
theorem feqComparesValueAndTag : Obligations.FeqComparesValueAndTag := by
  unfold Obligations.FeqComparesValueAndTag
  intro s rs1 rs2
  refine ⟨encodedBy_fieldsOfInstr rfl, illegalFormsAbort _, fun hun => ?_, fun hread => ?_⟩
  · exact abortsWith_of_complete rfl (read_two_uninit hun _)
  · obtain ⟨h1, h2⟩ := readable_two hread
    have hexec : exec (.feq rs1 rs2) s = .next (s.commit { eq := some (eqOfRegs (arg s rs1) (arg s rs2)) }) := by
      rw [exec_eq (i := .feq rs1 rs2) nofun, resultOf, feqResult, read_two_ok h1 h2, finish_ok]
    exact ⟨_, hexec, eqOfRegs_eq _ _, rfl, onlyRegs_commit (by simp), sigSame_commit rfl, completed_commit _ _⟩

/-! ### FRED, FLDI and LDC (R101 to R103) -/

theorem fredResult_uninit {s : State} {rs1 : RegNo} (h : (arg s rs1).tag = .none) (t : Tag) (rd : RegNo) :
    fredResult t rd rs1 s.operands = .error .uninit := by
  rw [fredResult, readOp_error h, except_error_bind]

theorem fredResult_raw {s : State} {rs1 : RegNo} (h : (arg s rs1).tag ≠ .none) (rd : RegNo) :
    fredResult .raw rd rs1 s.operands = .ok (writeField rd (valOf (arg s rs1).val.toNat) .raw) := by
  rw [fredResult, readOp_ok h, except_ok_bind, valOf_toNat, BitVec.setWidth_eq]
  rfl

theorem fredResult_modulus {s : State} {rs1 : RegNo} (h : (arg s rs1).tag ≠ .none) {t : Tag} {m : Nat}
    (ht : t.modulus = some m) (rd : RegNo) :
    fredResult t rd rs1 s.operands = .ok (writeField rd (valOf ((arg s rs1).val.toNat % m)) t) := by
  rw [fredResult, readOp_ok h, except_ok_bind, ht, arg]

/-- Settles O11: one readable operand, copied or reduced. -/
theorem fredReducesIntoItsModulus : Obligations.FredReducesIntoItsModulus := by
  unfold Obligations.FredReducesIntoItsModulus
  intro s rd rs1
  refine ⟨⟨encodedBy_fieldsOfInstr rfl, encodedBy_fieldsOfInstr rfl, encodedBy_fieldsOfInstr rfl⟩,
    illegalFormsAbort _, fun hun => ?_, fun hread => ?_⟩
  · have hnone := someUninit_one.1 hun
    exact ⟨abortsWith_of_complete rfl (fredResult_uninit hnone .raw rd),
        abortsWith_of_complete rfl (fredResult_uninit hnone .p rd),
        abortsWith_of_complete rfl (fredResult_uninit hnone .n rd)⟩
  · have hread := mt someUninit_one.2 hread
    exact ⟨commitsReg_of_complete rfl (fredResult_raw hread rd) (arg s rs1).val.isLt,
        commitsReg_of_complete rfl (fredResult_modulus hread rfl rd) ((Nat.mod_lt _ P_pos).trans P_lt),
        commitsReg_of_complete rfl (fredResult_modulus hread rfl rd) ((Nat.mod_lt _ N_pos).trans N_lt)⟩

/-- Settles O12: FLDI reads no register and commits the immediate. -/
theorem fldiLoadsTheImmediate : Obligations.FldiLoadsTheImmediate := by
  unfold Obligations.FldiLoadsTheImmediate
  intro s rd imm
  refine ⟨encodedBy_fieldsOfInstr rfl, illegalFormsAbort _, ?_⟩
  exact commitsReg_of_complete rfl (by rw [valOf_toNat]) (imm.isLt.trans (by decide))

theorem constOf_bounds (cid : ConstId) : 0 < constOf cid ∧ constOf cid < 2 ^ 256 := by
  cases cid <;> decide

theorem ldc_commits (s : State) (rd : RegNo) (cid : ConstId) : CommitsReg (.ldc rd cid) s rd (constOf cid) .raw :=
  commitsReg_of_complete rfl rfl (constOf_bounds cid).2

/-- Settles O13: LDC reads no register and commits its constant, none of which is 0. -/
theorem ldcLoadsTheConstant : Obligations.LdcLoadsTheConstant := by
  unfold Obligations.LdcLoadsTheConstant
  intro s rd
  refine ⟨⟨encodedBy_fieldsOfInstr rfl, encodedBy_fieldsOfInstr rfl, encodedBy_fieldsOfInstr rfl,
    encodedBy_fieldsOfInstr rfl⟩, illegalFormsAbort _, ldc_commits s rd .p, ldc_commits s rd .n, ldc_commits s rd .gx,
    ldc_commits s rd .gy, fun cid t ht => ?_⟩
  rw [z_of_commitsReg (ldc_commits s rd cid) ht, decide_eq_false_iff_not]
  exact (constOf_bounds cid).1.ne'

end Sys2Proof.Machine
end

section
/-! The point commands (R140 to R144): each commits the pair of its formula or aborts with the first check that fails,
and PMUL by 1, by 2, and of the sentinel. -/

namespace Sys2Proof.Machine

open Sys2Proof.Safety

/-! ### Operands and results of the point commands -/

theorem commitsPair_of_complete {i : Instr} {s : State} {r : Except ErrCode Effect} {qd : RegNo} {p : Nat × Nat}
    (h : exec i s = complete s r) (hr : r = .ok (writePoint qd (valOf p.1) (valOf p.2))) (h1 : p.1 < 2 ^ 256)
    (h2 : p.2 < 2 ^ 256) : CommitsPair i s qd p.1 p.2 .p (decide (p = (0, 0))) :=
  commitsPair_point (by rw [h, hr, complete_eq, finish_ok]) h1 h2

theorem someUninit_append {s : State} {is js : List RegNo} :
    SomeUninit s (is ++ js) ↔ SomeUninit s is ∨ SomeUninit s js := by
  simp only [SomeUninit, List.mem_append, or_and_right, exists_or]

theorem readOp_of_readable {s : State} {i : RegNo} (h : (arg s i).tag ≠ .none) :
    readOp s.operands i = .ok (arg s i) :=
  readOp_ok h

theorem readPair_of_someUninit {s : State} {q : RegNo} (h : SomeUninit s [q, pairY q]) :
    readPair s.operands q = .error .uninit :=
  readPair_uninit (someUninit_two.1 h)

theorem readPair_of_readable {s : State} {q : RegNo} (h : ¬SomeUninit s [q, pairY q]) :
    readPair s.operands q = .ok (arg s q, arg s (pairY q)) :=
  have ⟨hx, hy⟩ := readable_two h
  readPair_ok hx hy

/-! ### LDG (R140) -/

theorem ldg_wellFormed (qd : RegNo) : (Instr.ldg qd).WellFormed = evenPair qd := Bool.and_true _

theorem generator_ne_zero : (Config.Gx, Config.Gy) ≠ (0, 0) := by decide

/-- Settles O25: LDG has the parity of its pair field as its one check, and the generator is not the sentinel. -/
theorem ldgLoadsTheGenerator : Obligations.LdgLoadsTheGenerator := by
  unfold Obligations.LdgLoadsTheGenerator
  intro s qd
  rw [← ldg_wellFormed]
  refine ⟨fun hwf => ⟨encodedBy_fieldsOfInstr hwf, illegalFormsAbort _, ?_⟩, fun hodd => ?_⟩
  · have hresult : ldgResult qd = .ok (writePoint qd (valOf Config.Gx) (valOf Config.Gy)) := by
      rw [ldgResult, requireEven_ok (qs := [qd]) hwf, except_ok_bind]
    have hcommit := commitsPair_of_complete (i := .ldg qd) (s := s) (p := (Config.Gx, Config.Gy)) rfl hresult
      (by decide) (by decide)
    rwa [decide_eq_false generator_ne_zero] at hcommit
  · have hresult : ldgResult qd = .error .illegal := by
      rw [ldgResult, requireEven_error (qs := [qd]) hodd, except_error_bind]
    exact abortsWith_of_complete rfl hresult

/-! ### PADD (R141) -/

/-- PADD reads its first point, then its second. -/
theorem paddResult_uninit {s : State} {qd qa qb : RegNo} (hwf : (Instr.padd qd qa qb).WellFormed = true)
    (h : SomeUninit s [qa, pairY qa, qb, pairY qb]) : paddResult qd qa qb s.operands = .error .uninit := by
  rw [paddResult, requireEven_ok (qs := [qd, qa, qb]) hwf, except_ok_bind]
  by_cases ha : SomeUninit s [qa, pairY qa]
  · rw [readPair_of_someUninit ha, except_error_bind]
  · have hb : SomeUninit s [qb, pairY qb] := ((someUninit_append (is := [qa, pairY qa])).1 h).resolve_left ha
    simp only [readPair_of_readable ha, readPair_of_someUninit hb, except_ok_bind, except_error_bind]

/-- PADD of readable operands checks their tags. -/
theorem paddResult_mismatch {s : State} {qd qa qb : RegNo} (hwf : (Instr.padd qd qa qb).WellFormed = true)
    (hread : ¬SomeUninit s [qa, pairY qa, qb, pairY qb])
    (htag : ∃ i ∈ [qa, pairY qa, qb, pairY qb], (arg s i).tag ≠ .p) :
    paddResult qd qa qb s.operands = .error .fieldMismatch := by
  obtain ⟨ha, hb⟩ := not_or.1 (mt (someUninit_append (is := [qa, pairY qa])).2 hread)
  obtain ⟨i, hi, hne⟩ := htag
  have htags : requireTagP [arg s qa, arg s (pairY qa), arg s qb, arg s (pairY qb)] = .error .fieldMismatch :=
    requireTagP_error ⟨_, List.mem_map_of_mem (f := arg s) hi, hne⟩
  rw [paddResult, requireEven_ok (qs := [qd, qa, qb]) hwf]
  simp only [readPair_of_readable ha, readPair_of_readable hb, htags, except_ok_bind, except_error_bind]

/-- Settles O26: the checks fail in the order of R141, and `padd` is its formula. -/
theorem paddAddsByTheFormula : Obligations.PaddAddsByTheFormula := by
  unfold Obligations.PaddAddsByTheFormula
  intro s qd qa qb
  refine ⟨fun hodd => ?_, fun hwf => ⟨encodedBy_fieldsOfInstr hwf, illegalFormsAbort _, fun hun => ?_,
    fun hread htag => ?_, fun htag r hr => ?_⟩⟩
  · exact abortsWith_of_complete rfl
      (by rw [paddResult, requireEven_error (qs := [qd, qa, qb]) hodd, except_error_bind])
  · exact abortsWith_of_complete rfl (paddResult_uninit hwf hun)
  · exact abortsWith_of_complete rfl (paddResult_mismatch hwf hread htag)
  · exact padd_commits hwf htag (hr.trans (padd_eq_spec _ _).symm)

/-! ### PMUL (R142, R143) -/

/-- PMUL reads its scalar, then its base. -/
theorem pmulResult_uninit {s : State} {qd rk qb : RegNo} (hwf : (Instr.pmul qd rk qb).WellFormed = true)
    (h : SomeUninit s [rk, qb, pairY qb]) : pmulResult qd rk qb s.operands = .error .uninit := by
  rw [pmulResult, requireEven_ok (qs := [qd, qb]) hwf, except_ok_bind]
  by_cases hk : (arg s rk).tag = .none
  · rw [readOp_error hk, except_error_bind]
  · have hb : SomeUninit s [qb, pairY qb] :=
      ((someUninit_append (is := [rk])).1 h).resolve_left (mt someUninit_one.1 hk)
    rw [readOp_ok hk, except_ok_bind, readPair_of_someUninit hb, except_error_bind]

/-- PMUL of readable operands goes on with the check of the base's tags. -/
theorem pmulResult_readable {s : State} {qd rk qb : RegNo} (hwf : (Instr.pmul qd rk qb).WellFormed = true)
    (h : ¬SomeUninit s [rk, qb, pairY qb]) :
    pmulResult qd rk qb s.operands = (do
      requireTagP [arg s qb, arg s (pairY qb)]
      if 0 < (arg s rk).val.toNat ∧ (arg s rk).val.toNat < Config.N then
        let r := scalarmul (arg s rk).val.toNat ((arg s qb).val.toNat, (arg s (pairY qb)).val.toNat)
        .ok (writePoint qd (valOf r.1) (valOf r.2))
      else .error .scalarRange) := by
  obtain ⟨hk, hb⟩ := not_or.1 (mt (someUninit_append (is := [rk])).2 h)
  rw [pmulResult, requireEven_ok (qs := [qd, qb]) hwf]
  simp only [readOp_of_readable (mt someUninit_one.2 hk), readPair_of_readable hb, except_ok_bind]

/-- A readable scalar and a P-tagged base are readable operands. -/
theorem pmul_readable {s : State} {rk qb : RegNo} (hk : (arg s rk).tag ≠ .none) (hx : (arg s qb).tag = .p)
    (hy : (arg s (pairY qb)).tag = .p) : ¬SomeUninit s [rk, qb, pairY qb] := by
  simp [SomeUninit, hk, hx, hy]

theorem requireTagP_pair {x y : FReg} (hx : x.tag = .p) (hy : y.tag = .p) : requireTagP [x, y] = .ok () :=
  requireTagP_ok (by simp [hx, hy])

/-- PMUL of a scalar in range and a P-tagged base commits their product (R142, R143). -/
theorem pmul_commits {s : State} {qd rk qb : RegNo} (hwf : (Instr.pmul qd rk qb).WellFormed = true)
    (hk : (arg s rk).tag ≠ .none) (hx : (arg s qb).tag = .p) (hy : (arg s (pairY qb)).tag = .p)
    (h0 : 0 < (arg s rk).val.toNat) (hN : (arg s rk).val.toNat < Config.N) {r : Nat × Nat}
    (hr : r = scalarmulSpec (arg s rk).val.toNat ((arg s qb).val.toNat, (arg s (pairY qb)).val.toNat)) :
    CommitsPair (.pmul qd rk qb) s qd r.1 r.2 .p (decide (r = (0, 0))) := by
  rw [← scalarmul_eq_spec] at hr
  obtain ⟨h1, h2⟩ := hr ▸ scalarmul_lt_word (arg s qb).val.isLt (arg s (pairY qb)).val.isLt
  refine commitsPair_of_complete rfl ?_ h1 h2
  rw [pmulResult_readable hwf (pmul_readable hk hx hy), requireTagP_pair hx hy, except_ok_bind, if_pos ⟨h0, hN⟩, hr]

/-- Settles O27: the checks fail in the order of R142, and `scalarmul` is the fold of R143. -/
theorem pmulMultipliesByDoubleAndAdd : Obligations.PmulMultipliesByDoubleAndAdd := by
  unfold Obligations.PmulMultipliesByDoubleAndAdd
  intro s qd rk qb
  refine ⟨fun hodd => ?_, fun hwf => ⟨encodedBy_fieldsOfInstr hwf, illegalFormsAbort _, fun hun => ?_,
    fun hread htag => ?_, fun hk hx hy => ⟨fun hrange => ?_, fun h0 hN r hr => pmul_commits hwf hk hx hy h0 hN hr⟩⟩⟩
  · exact abortsWith_of_complete rfl (by rw [pmulResult, requireEven_error (qs := [qd, qb]) hodd, except_error_bind])
  · exact abortsWith_of_complete rfl (pmulResult_uninit hwf hun)
  · refine abortsWith_of_complete rfl ?_
    rw [pmulResult_readable hwf hread, requireTagP_error (by simpa using htag), except_error_bind]
  · refine abortsWith_of_complete rfl ?_
    rw [pmulResult_readable hwf (pmul_readable hk hx hy), requireTagP_pair hx hy, except_ok_bind, if_neg (by omega)]

/-! ### Corner cases of PMUL (R144) -/

/-- Above bit `n` the bits of `2^n` are 0. -/
theorem testBit_two_pow_of_mem_range' {n len i : Nat} (h : i ∈ List.range' (n + 1) len) :
    Nat.testBit (2 ^ n) i = false :=
  Nat.testBit_two_pow_of_ne (by have := List.mem_range'_1.1 h; omega)

/-- The bit numbers of R143 are 0 and those from 1. -/
theorem range_256_eq_cons : List.range 256 = 0 :: List.range' 1 255 := by
  rw [List.range_eq_range', List.range'_succ]

/-- The one bit of 1 takes the base as it is. -/
theorem scalarmulSpec_one (b : Nat × Nat) : scalarmulSpec 1 b = b := by
  rw [scalarmulSpec, range_256_eq_cons, List.foldl_cons]
  exact foldl_scalarBit_of_zero (fun _ => testBit_two_pow_of_mem_range' (n := 0)) _

/-- The one bit of 2 takes the base doubled once. -/
theorem scalarmulSpec_two (b : Nat × Nat) : scalarmulSpec 2 b = paddSpec b b := by
  rw [scalarmulSpec, range_256_eq_cons, List.range'_succ, List.foldl_cons, List.foldl_cons]
  exact foldl_scalarBit_of_zero (fun _ => testBit_two_pow_of_mem_range' (n := 1)) _

/-- With the sentinel as accumulator and as base, no bit changes either. -/
theorem scalarBit_zero (k i : Nat) : scalarBit k ((0, 0), (0, 0)) i = ((0, 0), (0, 0)) := by
  simp [scalarBit, paddSpec_zero]

theorem scalarmulSpec_zero (k : Nat) : scalarmulSpec k (0, 0) = (0, 0) := by
  rw [scalarmulSpec, List.foldl_fixed' (scalarBit_zero k)]

/-- Settles O28: PMUL commits the fold of R143, which is known for these scalars and for this base. -/
theorem pmulCornerCases : Obligations.PmulCornerCases := by
  unfold Obligations.PmulCornerCases
  intro s qd rk qb hwf hk hx hy b hb
  have hcommit {r : Nat × Nat} (hr : r = scalarmulSpec (arg s rk).val.toNat b) (h0 : 0 < (arg s rk).val.toNat)
      (hN : (arg s rk).val.toNat < Config.N) : CommitsPair (.pmul qd rk qb) s qd r.1 r.2 .p (decide (r = (0, 0))) :=
    pmul_commits hwf hk hx hy h0 hN (hb ▸ hr)
  have two_lt_N : 2 < Config.N := by decide
  refine ⟨fun h1 => ?_, fun h2 r hr => ?_, fun h0 hN hzero => ?_⟩
  · exact hcommit (by rw [h1, scalarmulSpec_one]) (by omega) (by omega)
  · exact hcommit (by rw [h2, scalarmulSpec_two, hr]) (by omega) (by omega)
  · exact hcommit (r := (0, 0)) (by rw [hzero, scalarmulSpec_zero]) h0 hN

end Sys2Proof.Machine
end

section
/-! The signature commands (R160 to R167): DERENC commits the DER string of its operands, DERDEC commits the pair its
checks admit, and the string DERENC leaves passes those checks with the two values. -/

namespace Sys2Proof.Machine

open Sys2Proof.Safety

/-! ### DERENC (R160, R162) -/

/-- DERENC of readable operands commits their string, whatever their tags. -/
theorem exec_derenc_readable {s : State} {rs1 rs2 : RegNo} (h : ¬SomeUninit s [rs1, rs2]) :
    exec (.derenc rs1 rs2) s =
      .next (s.commit (writeDer (derSeq (arg s rs1).val.toNat (arg s rs2).val.toNat))) := by
  obtain ⟨h1, h2⟩ := readable_two h
  rw [exec_eq (i := .derenc rs1 rs2) nofun, resultOf, derencResult, read_two_ok h1 h2, finish_ok]

/-- Settles O30: SIGBUF after the commit is read byte by byte inside the string, behind it and outside SIGBUF. -/
theorem derencSerializes : Obligations.DerencSerializes := by
  unfold Obligations.DerencSerializes
  intro s rs1 rs2
  refine ⟨encodedBy_fieldsOfInstr rfl, illegalFormsAbort _, fun hun => ?_, fun hread hwf D hD => ?_⟩
  · exact abortsWith_of_complete rfl (read_two_uninit hun _)
  · rw [← derSeq_eq_spec (arg s rs1).val.isLt (arg s rs2).val.isLt] at hD
    obtain ⟨hlo, hhi⟩ : 70 ≤ D.length ∧ D.length ≤ 72 := hD ▸ length_derSeq _ _
    refine ⟨s.commit (writeDer D), hD ▸ exec_derenc_readable hread, sigLen_writeDer hhi s.sigLen, hlo, hhi, fun j hj => ?_,
      fun j hj hj72 => ?_, fun a ha => ?_, onlyRegs_commit (by simp [writeDer]), rfl, rfl, completed_commit _ _⟩
    · exact sig_writeDer hwf hhi (hj.trans_le hhi)
    · exact (sig_writeDer hwf hhi hj72).trans (List.getD_eq_default _ _ hj)
    · rw [sigSize] at ha
      exact (read_writeDer hwf hhi a).trans (if_neg (by omega))

/-! ### DERDEC (R164, R166) -/

theorem derdec_wellFormed (qd : RegNo) : (Instr.derdec qd).WellFormed = evenPair qd := Bool.and_true _

/-- DERDEC of an even pair goes on with the checks of SIGBUF. -/
theorem derdecResult_even {qd : RegNo} (hwf : (Instr.derdec qd).WellFormed = true) (o : Inputs) :
    derdecResult qd o = (do
      let p ← derParse o.sigBuf o.sigLen.toNat
      .ok (writeSignature qd (valOf p.1) (valOf p.2))) := by
  rw [derdecResult, requireEven_ok (qs := [qd]) hwf, except_ok_bind]

/-- Z of a signature is the test on its numbers (R28). -/
theorem zOfSignature_valOf {r v : Nat} (hr : r < 2 ^ 256) (hv : v < 2 ^ 256) :
    zOfSignature (valOf r) (valOf v) = decide (r = 0 ∨ v = 0) := by
  rw [Bool.eq_iff_iff]
  simp [zOfSignature, val_eq_zero, toNat_valOf hr, toNat_valOf hv]

/-- The numbers of an accepted string fit a register (R164, the last check). -/
theorem derAccepts_lt {m : Memory} {L r v : Nat} (h : DerAccepts m L r v) : r < 2 ^ 256 ∧ v < 2 ^ 256 := by
  obtain ⟨lr, ls, -, -, -, -, -, -, -, -, -, -, -, -, -, -, -, -, hlt⟩ := h
  exact hlt

/-- A string DERDEC's checks admit for no pair fails one of them (R164). -/
theorem derParse_error_of_not_accepts {m : Memory} {L : Nat} (h : ∀ r v, ¬DerAccepts m L r v) :
    derParse m L = .error .derFormat := by
  cases hp : derParse m L with
  | ok p => exact absurd (derParse_ok.1 hp) (h p.1 p.2)
  | error c => rw [derParse_error hp]

/-- DERDEC of an accepted string commits the pair it holds, tag RAW (R164, R166). -/
theorem derdec_commits {s : State} {qd : RegNo} (hwf : (Instr.derdec qd).WellFormed = true) {r v : Nat}
    (h : DerAccepts s.operands.sigBuf s.operands.sigLen.toNat r v) :
    CommitsPair (.derdec qd) s qd r v .raw (decide (r = 0 ∨ v = 0)) := by
  obtain ⟨hr, hv⟩ := derAccepts_lt h
  have hexec : exec (.derdec qd) s = .next (s.commit (writeSignature qd (valOf r) (valOf v))) := by
    rw [exec_eq (i := .derdec qd) nofun, resultOf, derdecResult_even hwf, derParse_ok.2 h, except_ok_bind, finish_ok]
  exact commitsPair_of hexec rfl rfl rfl (congrArg some (zOfSignature_valOf hr hv)) (toNat_valOf hr) (toNat_valOf hv)

/-- Settles O31: the parity of the pair field is checked first, then the string, and a failed check has one code. -/
theorem derdecParses : Obligations.DerdecParses := by
  unfold Obligations.DerdecParses
  intro s qd
  rw [← derdec_wellFormed]
  refine ⟨fun hodd => ?_, fun hwf => ⟨encodedBy_fieldsOfInstr hwf, illegalFormsAbort _, fun r v h => ?_, fun h => ?_⟩⟩
  · exact abortsWith_of_complete rfl
      (by rw [derdecResult, requireEven_error (qs := [qd]) hodd, except_error_bind])
  · exact derdec_commits hwf h
  · exact abortsWith_of_complete rfl
      (by rw [derdecResult_even hwf, derParse_error_of_not_accepts h, except_error_bind])

/-! ### The round trip (R167) -/

theorem Memory.readBytes_add (m : Memory) (a n k : Nat) :
    m.readBytes a (n + k) = m.readBytes a n ++ m.readBytes (a + n) k := by
  simp only [Memory.readBytes_eq, List.range_add, List.map_append, List.map_map, Nat.add_assoc]
  rfl

/-- The two parts of a string in SIGBUF lie one behind the other. -/
theorem readBytes_eq_append {m : Memory} {j n : Nat} {x y : List Byte} (h : m.readBytes (sigBase + j) n = x ++ y) :
    m.readBytes (sigBase + j) x.length = x ∧ m.readBytes (sigBase + (j + x.length)) y.length = y := by
  obtain rfl : n = x.length + y.length := by rw [← m.length_readBytes (sigBase + j) n, h, List.length_append]
  rw [Memory.readBytes_add, Nat.add_assoc] at h
  exact List.append_inj h (m.length_readBytes _ _)

/-- The first byte of a string in SIGBUF, and the rest behind it. -/
theorem readBytes_eq_cons {m : Memory} {j n : Nat} {b : Byte} {t : List Byte}
    (h : m.readBytes (sigBase + j) n = b :: t) : m.sig j = b ∧ m.readBytes (sigBase + (j + 1)) t.length = t :=
  have ⟨hb, ht⟩ := readBytes_eq_append (x := [b]) h
  ⟨(List.cons.inj hb).1, ht⟩

/-- The first SIGLEN bytes of SIGBUF after DERENC are the string (R162). -/
theorem readBytes_writeDer {m : Memory} (hm : m.wf = true) {d : List Byte} (hd : d.length ≤ 72) :
    ((writeDer d).sigBuf m).readBytes sigBase d.length = d := by
  refine List.ext_getElem (Memory.length_readBytes _ _ _) fun i h1 h2 => ?_
  have hi : ((writeDer d).sigBuf m).sig i = d[i] := by
    rw [sig_writeDer hm hd (by omega), List.getD_eq_getElem _ _ h2]
  simpa only [Memory.readBytes_eq, List.getElem_map, List.getElem_range, Memory.sig] using hi

/-- The body of a DER INTEGER has 32 or 33 bytes (R161). -/
theorem length_derBody_bounds (v : Nat) : 32 ≤ (derBody v).length ∧ (derBody v).length ≤ 33 := by
  rw [length_derBody]
  split <;> decide

/-- A DER INTEGER at byte `j` of SIGBUF (R160): its tag, its length, its number, and what stands behind it. -/
theorem sig_of_derInt {m : Memory} {j n v : Nat} (hv : v < 2 ^ 256) {rest : List Byte}
    (h : m.readBytes (sigBase + j) n = derInt v ++ rest) :
    (m.sig j).toNat = 0x02 ∧ (m.sig (j + 1)).toNat = (derBody v).length ∧
      sigNumber m (j + 2) (derBody v).length = v ∧
      m.readBytes (sigBase + (j + 2 + (derBody v).length)) rest.length = rest := by
  have hlen := (length_derBody_bounds v).2
  rw [derInt_eq hv, List.cons_append, List.cons_append] at h
  obtain ⟨htag, htail⟩ := readBytes_eq_cons h
  obtain ⟨hlength, hbodyRest⟩ := readBytes_eq_cons htail
  obtain ⟨hbody, hrest⟩ := readBytes_eq_append hbodyRest
  refine ⟨congrArg BitVec.toNat htag, ?_, ?_, hrest⟩
  · rw [hlength, BitVec.toNat_ofNat, Nat.mod_eq_of_lt (by omega)]
  · rw [sigNumber_eq, hbody, beNat_derBody hv]

/-- SIGBUF holding the DER string of two values passes DERDEC's checks with them, padded or not (R161, R164). -/
theorem derAccepts_derSeq {m : Memory} {r v : Nat} (hr : r < 2 ^ 256) (hv : v < 2 ^ 256)
    (h : m.readBytes sigBase (derSeq r v).length = derSeq r v) : DerAccepts m (derSeq r v).length r v := by
  have hlen : (derSeq r v).length = (derInt r ++ derInt v).length + 2 := rfl
  have hlenInt : (derInt r ++ derInt v).length = 4 + (derBody r).length + (derBody v).length := by
    simp only [derInt_eq hr, derInt_eq hv, List.length_append, List.length_cons]
    omega
  obtain ⟨hr32, hr33⟩ := length_derBody_bounds r
  obtain ⟨hv32, hv33⟩ := length_derBody_bounds v
  obtain ⟨hseq, htail⟩ := readBytes_eq_cons (j := 0) h
  obtain ⟨hlenByte, hints⟩ := readBytes_eq_cons (j := 1) htail
  have hseqLen : (m.sig 1).toNat = (derSeq r v).length - 2 := by
    rw [hlenByte, BitVec.toNat_ofNat]
    omega
  obtain ⟨htag, hlr, hnum, hsecond⟩ := sig_of_derInt (j := 2) hr hints
  obtain ⟨htag', hls, hnum', -⟩ :=
    sig_of_derInt (j := 4 + (derBody r).length) (rest := []) hv (hsecond.trans (List.append_nil _).symm)
  rw [Nat.add_right_comm] at hls hnum'
  exact ⟨(derBody r).length, (derBody v).length, by omega, congrArg BitVec.toNat hseq, by omega, hseqLen, htag, hlr,
    by omega, hr33, by omega, htag', hls, by omega, hv33, by omega, hnum.symm, hnum'.symm, hr, hv⟩

theorem engineTurn_launch {w : Word} {i : Instr} (h : decode w = .ok i) (s : State) :
    engineTurn (s.launch w) = exec i (s.launch w) := by
  simp only [engineTurn, State.launch_engine, h]

/-- A register is known by its number and its tag. -/
theorem freg_eq_of_toNat {x : FReg} {v : Val} {t : Tag} (hv : x.val.toNat = v.toNat) (ht : x.tag = t) : x = ⟨v, t⟩ := by
  obtain ⟨y, u⟩ := x
  rw [← ht, ← BitVec.eq_of_toNat_eq hv]

/-- Settles O32: DERENC leaves a string that DERDEC accepts with the two values. -/
theorem derRoundTrip : Obligations.DerRoundTrip := by
  unfold Obligations.DerRoundTrip
  intro s rs1 rs2 qd w hread hwf hw
  have hr := (arg s rs1).val.isLt
  have hv := (arg s rs2).val.isLt
  have hlen := (length_derSeq (arg s rs1).val.toNat (arg s rs2).val.toNat).2
  have haccepts := derAccepts_derSeq hr hv (readBytes_writeDer hwf hlen)
  rw [← sigLen_writeDer hlen s.sigLen] at haccepts
  obtain ⟨u, hexec, hx, hxt, hy, hyt, -, -, honly, hsig, -, -, -, -, herr, -⟩ :=
    derdec_commits (s := (s.commit (writeDer _)).launch w) (wellFormed_of_decode hw) haccepts
  refine ⟨_, u, exec_derenc_readable hread, (engineTurn_launch hw _).trans hexec, ?_, ?_, honly, hsig, herr⟩
  · exact freg_eq_of_toNat hx hxt
  · exact freg_eq_of_toNat hy hyt

end Sys2Proof.Machine
end

section
/-! The nonce generator and the entropy port (R180 to R185, R210): what a turn of NONCE does with what the port holds, the
run of one whose requests are answered, and the answers that no request asked for. -/

namespace Sys2Proof.Machine

open Sys2Proof.Safety

/-! ### A turn of NONCE (R180) -/

theorem acceptedNonce_bytes {a : BitVec 256} (h0 : 0 < a.toNat) (hN : a.toNat < Config.N) :
    acceptedNonce (.bytes a) = some a := if_pos ⟨h0, hN⟩

theorem acceptedNonce_bytes_none {a : BitVec 256} (h : a.toNat = 0 ∨ Config.N ≤ a.toNat) :
    acceptedNonce (.bytes a) = none := if_neg (by omega)

section
variable {s : State} (rd : RegNo)

theorem exec_nonce_accepted {a : Answer} {k : Val} (hack : s.port.ack = some a) (hk : acceptedNonce a = some k) :
    exec (.nonce rd) s = .next (s.commit (writeField rd k .n)) := by
  simp only [exec, execNonce, hack, hk, complete_eq, finish_ok]

theorem exec_nonce_rejected {a : Answer} (hack : s.port.ack = some a) (ha : acceptedNonce a = none) :
    exec (.nonce rd) s = .next s.requestEntropy := by
  simp only [exec, execNonce, hack, ha]

theorem exec_nonce_quiet (hport : s.port = .quiet) : exec (.nonce rd) s = .next s.requestEntropy := by
  simp only [exec, execNonce, hport, EntropyPort.quiet]

theorem exec_nonce_waiting (hack : s.port.ack = none) (hreq : s.port.req ≠ none) :
    exec (.nonce rd) s = .next s := by
  obtain ⟨n, hn⟩ := Option.ne_none_iff_exists'.1 hreq
  simp only [exec, execNonce, hack, hn]

/-- NONCE commits the scalar of an accepted answer (R180). -/
theorem nonce_commits {a : Answer} {k : Val} (hack : s.port.ack = some a) (hk : acceptedNonce a = some k) :
    CommitsReg (.nonce rd) s rd k.toNat .n :=
  commitsReg_of (exec_nonce_accepted rd hack hk) rfl

end

/-- Settles O33: one case for each thing the port can hold. -/
theorem nonceTurn : Obligations.NonceTurn := by
  unfold Obligations.NonceTurn
  intro s rd
  refine ⟨encodedBy_fieldsOfInstr rfl, illegalFormsAbort _, fun a hack h0 hN => ?_, fun hask => ?_,
    exec_nonce_waiting rd⟩
  · exact nonce_commits rd hack (acceptedNonce_bytes h0 hN)
  · have hexec : exec (.nonce rd) s = .next s.requestEntropy := by
      rcases hask with hack | ⟨a, hack, ha⟩ | hquiet
      · exact exec_nonce_rejected rd hack rfl
      · exact exec_nonce_rejected rd hack (acceptedNonce_bytes_none ha)
      · exact exec_nonce_quiet rd hquiet
    exact ⟨s.requestEntropy, hexec, rfl, rfl, rfl, blockSame_refl _⟩

/-- Settles O35: of the turns of NONCE only the commit of an accepted answer ends BUSY. -/
theorem nonceCommitsInRange : Obligations.NonceCommitsInRange := by
  unfold Obligations.NonceCommitsInRange
  intro s t rd hbusy hexec hidle
  rcases execNonce_cases rd s with ⟨a, k, hack, hk, -⟩ | h
  · obtain ⟨-, h0, hN⟩ := acceptedNonce_range hk
    obtain ⟨u, hu, hval, htag, hz, -⟩ := nonce_commits rd hack hk
    obtain rfl := Host.Outcome.next.inj (hexec.symm.trans hu)
    rw [hval]
    exact ⟨h0, hN, htag, hz.trans (decide_eq_false h0.ne')⟩
  · have hkept : t.busy = s.busy := by
      rcases h with h | h
      · rw [Host.Outcome.next.inj (hexec.symm.trans h), State.requestEntropy_busy]
      · rw [Host.Outcome.next.inj (hexec.symm.trans h)]
    exact absurd (hkept.trans hbusy) (Bool.eq_false_iff.1 hidle)

/-! ### One listed event, and the run of a NONCE (R180, R183) -/

theorem core_run_one (s : State) : core.run 1 s = step s := by
  have h : core.step s = step s := rfl
  simp only [Host.Core.run, h]
  cases step s <;> rfl

theorem step_of_inputs {s : State} {e : Event} {es : List Event} (h : s.inputs = e :: es) :
    step s = handle e { s with inputs := es } := by
  simp only [step, State.nextEvent, State.popInput, h, List.headD_cons, List.tail_cons]

/-- A turn of the engine runs the command of its word (R202). -/
theorem step_engine {s : State} {w : Word} {ins : Inputs} {d : Nat} {i : Instr} {es : List Event}
    (h : s.inputs = .engine :: es) (hrun : s.engine = .running w ins d) (hw : decode w = .ok i) :
    step s = exec i { s with inputs := es } := by
  rw [step_of_inputs h]
  simp only [handle, engineTurn, hrun, hw]

/-- The state `s` with the answer `a` at hand and the events `es` to come. -/
def State.answered (s : State) (a : Answer) (es : List Event) : State := { s with port := ⟨none, some a⟩, inputs := es }

/-- The answer to the outstanding request is put on the port (R181). -/
theorem step_answer {s : State} {n : Nat} {a : Answer} {es : List Event} (h : s.inputs = .answer n a :: es)
    (hreq : s.port.req = some n) : step s = .next (s.answered a es) :=
  (step_of_inputs h).trans (congrArg Host.Outcome.next (State.takeAnswer_of_eq (s := { s with inputs := es }) a hreq))

/-- The turn of the engine after the answer. -/
theorem step_answered {s : State} {w : Word} {ins : Inputs} {d : Nat} {i : Instr} (hrun : s.engine = .running w ins d)
    (hw : decode w = .ok i) (a : Answer) (es : List Event) :
    step (s.answered a (.engine :: es)) = exec i (s.answered a es) :=
  step_engine (s := s.answered a (.engine :: es)) rfl hrun hw

/-- The first turn of a NONCE asks for an answer (R180). -/
theorem step_launched_nonce {w : Word} {rd : RegNo} (hw : decode w = .ok (.nonce rd)) (s : State) (es : List Event) :
    step { s.launch w with inputs := .engine :: es } = .next { s.launch w with inputs := es }.requestEntropy :=
  (step_engine rfl rfl hw).trans (exec_nonce_quiet rd rfl)

/-- The events of a source that answers the requests from number `n` on with the listed answers, each followed by a turn
of the engine (logs 1, 8, 9). -/
def answerEvents (n : Nat) (as : List Answer) : List Event :=
  (as.zipIdx n).flatMap (fun p => [Event.answer p.2 p.1, .engine])

/-- A NONCE with its request outstanding draws once more for each rejected answer, and then takes its turn with the last
one (R180, R182). -/
theorem run_nonce_answered {w : Word} {rd : RegNo} (hw : decode w = .ok (.nonce rd)) {bad : List Answer}
    (hbad : ∀ b ∈ bad, acceptedNonce b = none) (a : Answer) {ins : Inputs} {rest : List Event} {s : State} {n d : Nat}
    (hrun : s.engine = .running w ins d) (hreq : s.port.req = some n) (hn : s.requests = n + 1)
    (hin : s.inputs = answerEvents n (bad ++ [a]) ++ rest) :
    core.run (2 * bad.length + 2) s = exec (.nonce rd)
      { s.answered a rest with requests := n + 1 + bad.length, engine := .running w ins (d + bad.length) } := by
  induction bad generalizing s n d with
  | nil =>
    have hanswer : step s = .next (s.answered a (.engine :: rest)) := step_answer hin hreq
    simp only [List.length_nil, Nat.add_zero, ← hrun, ← hn]
    exact ((core_run_succ 1 hanswer).trans (core_run_one _)).trans (step_answered hrun hw a rest)
  | cons b bad ih =>
    obtain ⟨hb, hbad⟩ := List.forall_mem_cons.1 hbad
    let es := answerEvents (n + 1) (bad ++ [a]) ++ rest
    have hanswer : step s = .next (s.answered b (.engine :: es)) := step_answer hin hreq
    have hturn : step (s.answered b (.engine :: es)) = .next (s.answered b es).requestEntropy :=
      (step_answered hrun hw b es).trans (exec_nonce_rejected rd rfl hb)
    have hrest := ih (s := (s.answered b es).requestEntropy) hbad (State.requestEntropy_engine_running hrun)
      (congrArg some hn) (congrArg (· + 1) hn) rfl
    rw [Nat.add_right_comm (n + 1) 1, Nat.add_right_comm d 1] at hrest
    exact ((core_run_succ _ hanswer).trans (core_run_succ _ hturn)).trans hrest

/-- Settles O34: the first turn asks, each rejected answer leads to a new request, and the accepted one is committed. -/
theorem nonceDrawsUntilAccepted : Obligations.NonceDrawsUntilAccepted := by
  unfold Obligations.NonceDrawsUntilAccepted
  intro s rd w bad k rest hw hbad h0 hN
  let es := answerEvents s.requests (bad ++ [.bytes k]) ++ rest
  have hfirst := step_launched_nonce hw s es
  have hrest := run_nonce_answered hw hbad (.bytes k) (s := State.requestEntropy { s.launch w with inputs := es })
    rfl rfl rfl rfl
  obtain ⟨t, hexec, hval, htag, hz, heq, honly, hsig, hbusy, hdone, -, -, herr, -, -, -, hrequests, -, hinputs, -⟩ :=
    nonce_commits
      (s := { (s.launch w).answered (.bytes k) rest with
        requests := s.requests + 1 + bad.length, engine := .running w s.capture (0 + 1 + bad.length) })
      rd rfl (acceptedNonce_bytes h0 hN)
  exact ⟨t, ((core_run_succ _ hfirst).trans hrest).trans hexec, freg_eq_of_toNat hval htag, honly, hsig,
    hz.trans (decide_eq_false h0.ne'), heq, herr, hbusy, hdone, hrequests.trans (Nat.add_right_comm _ _ _), hinputs⟩

/-! ### Answers that no request asked for (R185, R210) -/

theorem handle_answer_unasked {s : State} {n : Nat} (a : Answer) (h : s.port.req ≠ some n) :
    handle (.answer n a) s = .next s :=
  congrArg _ (State.takeAnswer_of_ne a h)

/-- No event lowers the count of requests (logs 8, 11). -/
theorem EventEffect.requests_le {s t : State} {e : Event} (h : EventEffect s e t) : s.requests ≤ t.requests := by
  cases h with
  | draw _ _ _ _ _ ht => subst ht; exact Nat.le_succ _
  | _ => subst t; exact Nat.le_refl _

/-- Settles O36: an outstanding request has a number below the count, and a new one gets the count itself. -/
theorem unaskedAnswersAreIgnored : Obligations.UnaskedAnswersAreIgnored := by
  unfold Obligations.UnaskedAnswersAreIgnored
  refine ⟨fun s n a h => handle_answer_unasked a h, fun s n a hnum hreq => ?_,
    fun s t h => (step_eventEffect h).requests_le⟩
  refine ⟨handle_answer_unasked a nofun, rfl, Nat.le_refl _, fun t ht => handle_answer_unasked a fun hreq' => ?_⟩
  have hlt : n < s.requests := hnum n hreq
  have hnew : t.requests = n := Option.some.inj hreq'
  omega

end Sys2Proof.Machine
end

section
/-! NOP (R195): the command whose effect is empty, on every state and from its write to CMD to the engine's turn. -/

namespace Sys2Proof.Machine

open Sys2Proof.Safety

/-- The engine's turn runs the command that its word decodes to (R202). -/
theorem engineTurn_running {s : State} {w : Word} {ins : Inputs} {d : Nat} {i : Instr}
    (hrun : s.engine = .running w ins d) (hw : decode w = .ok i) : engineTurn s = exec i s := by
  simp only [engineTurn, hrun, hw]

/-- NOP commits the empty effect (R195). -/
theorem exec_nop (s : State) : exec .nop s = .next (s.commit {}) := by
  rw [exec_eq (i := .nop) nofun, resultOf, finish_ok]

/-- The commit of NOP keeps the registers, SIGBUF, SIGLEN, EQ and Z (R195). -/
theorem nop_commits (s : State) :
    ∃ t, exec .nop s = .next t ∧ OnlyRegs s t [] ∧ SigSame s t ∧ t.eq = s.eq ∧ t.z = s.z ∧ Completed s t :=
  ⟨_, exec_nop s, onlyRegs_commit nofun, sigSame_commit rfl, rfl, rfl, completed_commit s {}⟩

/-- Settles O10: the turn after the accepted write is NOP's commit on the launched state, whose CMD is the word 0. -/
theorem nopOnlyCommits : Obligations.NopOnlyCommits := by
  unfold Obligations.NopOnlyCommits
  have hencoded : EncodedBy .nop ⟨0x00, 0, 0, 0, 0, 0⟩ := encodedBy_fieldsOfInstr rfl
  refine ⟨hencoded, illegalFormsAbort _, nop_commits, fun s hb he hh => ?_⟩
  have hword : decode 0x00000000 = .ok .nop := (hencoded _).2 rfl
  obtain ⟨u, hexec, honly, hsig, heq, hz, hbusy, hdone, -, -, herr, hherr, hcmd, hinfo, -⟩ :=
    nop_commits (s.launch 0x00000000).replyWrite
  exact ⟨_, u, busWrite_cmd_accepted hb he hh _, (engineTurn_running rfl hword).trans hexec, hcmd, hdone, hbusy, honly,
    hsig, heq, hz, herr.trans he, hherr.trans hh, hinfo⟩

end Sys2Proof.Machine
end

section
/-! The invariant of the entropy port (R181, R210, R231, log 8): which operations leave the port alone, quiet it, ask for
entropy or take an answer, and that every step keeps the port legal. -/

namespace Sys2Proof.Machine

open Sys2Proof.Safety

/-- The port serves a running NONCE only, and an outstanding request has a number already given out. -/
def PortLegal (s : State) : Prop := PortConsistent s ∧ RequestNumbered s

/-! ### What keeps the port legal -/

theorem portLegal_of_quiet {s : State} (h : s.port = .quiet) : PortLegal s := by
  simp [PortLegal, PortConsistent, RequestNumbered, h, EntropyPort.quiet]

theorem portLegal_of_same {s t : State} (hs : PortLegal s) (hengine : t.engine = s.engine) (hport : t.port = s.port)
    (hrequests : t.requests = s.requests) : PortLegal t := by
  rwa [PortLegal, PortConsistent, RequestNumbered, hengine, hport, hrequests]

/-- A running NONCE may ask: the new request has the number the count has just passed (R180, log 8). -/
theorem portLegal_requestEntropy {s : State} {w : Word} {ins : Inputs} {d : Nat} {rd : RegNo}
    (hrun : s.engine = .running w ins d) (hw : decode w = .ok (.nonce rd)) : PortLegal s.requestEntropy := by
  refine ⟨⟨fun _ => ⟨w, ins, d + 1, rd, State.requestEntropy_engine_running hrun, hw⟩, .inr rfl⟩, fun n hn => ?_⟩
  obtain rfl : s.requests = n := Option.some.inj hn
  exact Nat.lt_succ_self _

/-- An answer is taken only in place of the request it answers, which a NONCE made (R185). -/
theorem PortLegal.takeAnswer {s : State} (hs : PortLegal s) (n : Nat) (a : Answer) : PortLegal (s.takeAnswer n a) := by
  rcases takeAnswer_cases s n a with ⟨hreq, h⟩ | ⟨-, h⟩ <;> rw [h]
  · obtain ⟨⟨hnonce, -⟩, -⟩ := hs
    have hbusy : s.port ≠ .quiet := fun hquiet => by
      rw [hquiet] at hreq
      cases hreq
    exact ⟨⟨fun _ => hnonce hbusy, .inl rfl⟩, nofun⟩
  · exact hs

/-! ### Events -/

theorem PortLegal.busRead {s t : State} {a : Addr} (hs : PortLegal s) (h : busRead a s = .next t) : PortLegal t := by
  obtain ⟨l, -, ⟨-, -, rfl⟩ | ⟨-, rfl⟩⟩ := busRead_cases h
  · exact portLegal_of_same hs rfl rfl rfl
  · exact portLegal_of_same hs rfl rfl rfl

/-- A write of the host reaches the port only by launching a command, with the port quiet (R202). -/
theorem PortLegal.busWrite {s t : State} {a : Addr} {v : Word} (hs : PortLegal s) (h : busWrite a v s = .next t) :
    PortLegal t := by
  obtain ⟨u, rfl, ⟨-, -, -, -, rfl⟩ | rfl | ⟨-, -, rfl⟩ | rfl | ⟨_, _, -, -, rfl⟩ | ⟨_, -, rfl⟩ | ⟨-, -, rfl⟩⟩ :=
    busWrite_cases h
  · exact portLegal_of_quiet rfl
  all_goals exact portLegal_of_same hs rfl rfl rfl

theorem PortLegal.engineTurn {s t : State} (hs : PortLegal s) (h : engineTurn s = .next t) : PortLegal t := by
  rcases engineTurn_effect h with ⟨-, rfl⟩ | ⟨w, ins, d, hrun, h⟩
  · exact hs
  · rcases h with ⟨c, rfl⟩ | ⟨i, e, -, -, rfl⟩ | ⟨rd, hw, rfl | rfl⟩
    · exact portLegal_of_quiet rfl
    · exact portLegal_of_quiet rfl
    · exact portLegal_requestEntropy hrun hw
    · exact hs

theorem PortLegal.step {s t : State} (hs : PortLegal s) (h : step s = .next t) : PortLegal t := by
  have hpop : PortLegal s.popInput := portLegal_of_same hs rfl rfl rfl
  rcases step_cases h with ⟨a, -, h⟩ | ⟨a, v, -, h⟩ | ⟨-, h⟩ | ⟨n, a, -, rfl⟩ | ⟨-, rfl⟩
  · exact hpop.busRead h
  · exact hpop.busWrite h
  · exact hpop.engineTurn h
  · exact hpop.takeAnswer n a
  · exact portLegal_of_quiet rfl

/-- Settles O58: only a NONCE's request and its answer leave the port other than quiet or as it was. -/
theorem stepKeepsPortConsistent : Obligations.StepKeepsPortConsistent := by
  unfold Obligations.StepKeepsPortConsistent
  exact fun s t hport hnum h => PortLegal.step ⟨hport, hnum⟩ h

end Sys2Proof.Machine
end

section
/-! The life of a command (R202, R203, R206): how its turn ends, when a write to CMD is accepted, the writes that are host
protocol errors, and the event that a step takes. -/

namespace Sys2Proof.Machine

open Sys2Proof.Safety

/-! ### Commit or abort (R201, R203) -/

/-- Settles O8: a turn ends in a commit or an abort with a listed code, or is one of a NONCE that goes on. -/
theorem commandsCommitOrAbortPrecisely : Obligations.CommandsCommitOrAbortPrecisely := by
  unfold Obligations.CommandsCommitOrAbortPrecisely
  intro i s
  rcases exec_cases i s with ⟨e, -, h⟩ | ⟨c, hc, h⟩ | ⟨rd, hi, h⟩
  · exact ⟨_, h, fun _ => ⟨rfl, rfl, rfl, rfl⟩, .inl ⟨rfl, rfl⟩⟩
  · exact ⟨_, h, fun _ => ⟨rfl, rfl, rfl, rfl⟩, .inr ⟨c, hc, aborted_abort s c⟩⟩
  · rcases h with h | h
    · exact ⟨_, h, fun hne => absurd hi (hne rd), .inl ⟨rfl, rfl⟩⟩
    · exact ⟨_, h, fun hne => absurd hi (hne rd), .inl ⟨rfl, rfl⟩⟩

/-! ### Acceptance and host protocol errors (R202, R206) -/

/-- A write to CMD that is not accepted is a protocol error (R202). -/
theorem busWrite_cmd_refused {s : State} (h : s.busy = true ∨ s.err ≠ none ∨ s.herr = true) (w : Word) :
    ∃ t, busWrite 0x008 w s = .next t ∧ OnlyHerrSet s t :=
  busWrite_onlyHerrSet locate_cmd (congrArg Except.ok (State.offer_error h w))

/-- A write to SIGLEN while BUSY, or above 72, is a protocol error (R35, R59). -/
theorem busWrite_sigLen_refused {s : State} {v : Word} (h : 72 < v.toNat ∨ s.busy = true) :
    ∃ t, busWrite 0x014 v s = .next t ∧ OnlyHerrSet s t :=
  busWrite_onlyHerrSet locate_sigLen (congrArg Except.ok (State.writeSigLen_error h))

/-- Settles O37: the write launches the word or is a protocol error, and CMD is readable at all times. -/
theorem commandAcceptance : Obligations.CommandAcceptance := by
  unfold Obligations.CommandAcceptance
  intro s w
  refine ⟨fun h => busWrite_cmd_refused h w, fun hb he hh => ?_, readsAs_readLoc locate_cmd (.inr rfl)⟩
  exact ⟨_, busWrite_cmd_accepted hb he hh w, rfl, rfl, rfl, rfl, onlyRegs_refl s [], sigSame_refl s, rfl, rfl, he, hh,
    rfl, rfl, rfl, rfl⟩

/-- Settles O38: each of the offending writes is the model's one protocol error. -/
theorem protocolErrorsSetOnlyHerr : Obligations.ProtocolErrorsSetOnlyHerr := by
  unfold Obligations.ProtocolErrorsSetOnlyHerr
  intro s v
  refine ⟨fun h => busWrite_cmd_refused h v, fun hb => ⟨fun i w => ?_, fun w => ?_, ?_⟩, fun hv => ?_⟩
  · exact busWrite_onlyHerrSet (locate_valueAddr i w) (congrArg Except.ok (State.writeValueWord_busy hb i w v))
  · exact busWrite_onlyHerrSet (locate_sigAddr w) (congrArg Except.ok (State.writeSigWord_busy hb w v))
  · exact busWrite_sigLen_refused (.inr hb)
  · exact busWrite_sigLen_refused (.inl hv)

/-! ### The next event and the engine's turn (R17, R39, R79, R203) -/

theorem step_of_nextEvent {s : State} {e : Event} (h : s.nextEvent = e) : step s = handle e s.popInput := by
  rw [step, h]

theorem engineTurn_idle {s : State} (h : s.engine = .idle) : engineTurn s = .next s := by
  simp only [engineTurn, h]

theorem engineTurn_illegal {s : State} {w : Word} {ins : Inputs} {d : Nat} (hrun : s.engine = .running w ins d)
    (hw : ∀ i, decode w ≠ .ok i) : engineTurn s = .next (s.abort .illegal) := by
  cases hd : decode w with
  | ok i => exact absurd hd (hw i)
  | error r => simp only [engineTurn, hrun, hd]

theorem State.nextEvent_of_nil {s : State} (h : s.inputs = []) : s.nextEvent = .engine := by
  rw [State.nextEvent, h, List.headD_nil]

theorem State.nextEvent_of_cons {s : State} {e : Event} {es : List Event} (h : s.inputs = e :: es) :
    s.nextEvent = e := by
  rw [State.nextEvent, h, List.headD_cons]

theorem State.popInput_of_nil {s : State} (h : s.inputs = []) : s.popInput = s := by
  rw [State.popInput, h, List.tail_nil, ← h]

theorem State.popInput_of_cons {s : State} {e : Event} {es : List Event} (h : s.inputs = e :: es) :
    s.popInput = { s with inputs := es } := by
  rw [State.popInput, h, List.tail_cons]

/-- The word placed is run by the very next step, on the state that its acceptance leaves (log 10). -/
theorem step_withFetchWord (s : State) {nbits n : Nat} {i : Instr}
    (h : decode (BitVec.ofNat 32 (n % 2 ^ nbits)) = .ok i) :
    step (s.withFetchWord nbits n) = exec i (s.launch (BitVec.ofNat 32 (n % 2 ^ nbits))) :=
  (step_of_nextEvent (s := s.withFetchWord nbits n) (e := .engine) rfl).trans
    (engineTurn_running (s := (s.withFetchWord nbits n).popInput) rfl h)

/-- Settles O6: one clause for each event, and at the engine's turn for each thing the engine can hold. -/
theorem stepRunsTheDecodedCommand : Obligations.StepRunsTheDecodedCommand := by
  unfold Obligations.StepRunsTheDecodedCommand
  refine ⟨?running, ?illegal, ?idle, ?nil, ?cons, ?read, ?write, ?answer, ?reset, ?placed⟩
  case running => exact fun s w ins d i he hrun hw => (step_of_nextEvent he).trans (engineTurn_running hrun hw)
  case illegal => exact fun s w ins d he hrun hw => (step_of_nextEvent he).trans (engineTurn_illegal hrun hw)
  case idle => exact fun s he hidle => (step_of_nextEvent he).trans (engineTurn_idle hidle)
  case nil => exact fun s h => ⟨State.nextEvent_of_nil h, State.popInput_of_nil h⟩
  case cons => exact fun s e rest h => ⟨State.nextEvent_of_cons h, State.popInput_of_cons h⟩
  case read => exact fun s a he => step_of_nextEvent he
  case write => exact fun s a v he => step_of_nextEvent he
  case answer => exact fun s n a he => step_of_nextEvent he
  case reset => exact fun s he => step_of_nextEvent he
  case placed => exact fun s nbits n i h => ⟨step_withFetchWord s h, State.operands_launch s _⟩

end Sys2Proof.Machine
end

section
/-! Reset (70_reset_and_hazards.md R230, R231): the reset state is a fixed point of the reset input, so that one
argument about `resetAll` covers both, and it meets the invariants. -/

namespace Sys2Proof.Machine

open Sys2Proof.Safety

/-- The machine starts in a state that the reset input gives. -/
theorem State.resetAll_reset : State.reset.resetAll = State.reset := rfl

@[simp] theorem State.resetAll_reg (s : State) (i : RegNo) : s.resetAll.reg i = ⟨0, .none⟩ := getReg_reset i

@[simp] theorem State.resetAll_status (s : State) : s.resetAll.status = 0 := by
  simp [State.status, errBits]

/-- The reset event is taken off the list, and the events after it stay (log 11). -/
theorem step_of_reset {s : State} {rest : List Event} (h : s.inputs = .reset :: rest) :
    ∃ t : State, step s = .next t.resetAll ∧ t.inputs = rest := by
  refine ⟨s.popInput, step_of_nextEvent (State.nextEvent_of_cons h), ?_⟩
  rw [State.popInput_of_cons h]

/-- Settles O9: the state after the event and the state the machine starts in are both what `resetAll` gives. -/
theorem resetPutsEveryValue : Obligations.ResetPutsEveryValue := by
  unfold Obligations.ResetPutsEveryValue
  intro s rest h
  obtain ⟨t, hstep, hrest⟩ := step_of_reset h
  refine ⟨t.resetAll, hstep, hrest, fun u hu => ?_⟩
  obtain ⟨v, rfl⟩ : ∃ v : State, u = v.resetAll := by
    rcases List.mem_pair.1 hu with rfl | rfl
    · exact ⟨t, rfl⟩
    · exact ⟨State.reset, State.resetAll_reset.symm⟩
  -- Past the registers and STATUS, each clause is a field of `State.reset` or a constant.
  exact ⟨v.resetAll_reg, v.resetAll_status, rfl, rfl, rfl, rfl, rfl, rfl, rfl, rfl, rfl, rfl, fun _ => rfl, rfl, rfl,
    rfl, rfl, rfl, rfl, rfl⟩

/-- Settles O59: no register has a modulus, SIGBUF and SIGLEN are 0, the engine is idle and the port quiet. -/
theorem resetMeetsTheInvariants : Obligations.ResetMeetsTheInvariants := by
  unfold Obligations.ResetMeetsTheInvariants
  have hfields : FieldValuesReduced State.reset := ⟨regsReduced_reset, nofun⟩
  have hsig : SigStoreLegal State.reset := ⟨rfl, nofun, Nat.zero_le _⟩
  have hengine : EngineConsistent State.reset := (engineConsistent_idle rfl).2 rfl
  have hport : PortLegal State.reset := portLegal_of_quiet rfl
  exact ⟨hfields, hsig, hengine, hport⟩

end Sys2Proof.Machine
end
